-- ==== Sys2Proof/Word.lean ====
section
/-! DEFINITION. The word types of the Channel Engine (30_encoding.md R100: a command word has 16 bits; parameters, note numbers and register values have 8). -/

namespace Sys2Proof

/-- A 16-bit command word (R100). -/
abbrev Word := BitVec 16

/-- An 8-bit quantity: a parameter byte, a note number, a register address or value. -/
abbrev Byte := BitVec 8

end Sys2Proof
end

