-- ==== Sys2Proof/Config.lean ====
section
/-! DEFINITION. The launch configuration `cfg` (00_scope.md R7 to R9, 70_reset_and_hazards.md R414), the shapes of the launch tables (20_memory.md R71 to R75), and the free values. -/

namespace Sys2Proof

/-- Instrument-type tags (20_memory.md R72). -/
inductive InstType where
  | none | native | foreign | sample
  deriving DecidableEq, Repr, Inhabited

/-- The five sequence kinds in their fixed order (10_state.md R46). -/
inductive Kind where
  | volume | arpeggio | pitch | hipitch | duty
  deriving DecidableEq, Repr, Inhabited

/-- The kinds in the order of every loop "for k in 0 .. 4" (10_state.md R46). -/
def Kind.all : List Kind := [.volume, .arpeggio, .pitch, .hipitch, .duty]

/-- One value for each sequence kind. -/
structure PerKind (α : Type) where
  volume : α
  arpeggio : α
  pitch : α
  hipitch : α
  duty : α
  deriving DecidableEq, Repr, Inhabited

/-- The value of kind `k`. -/
def PerKind.get {α : Type} (p : PerKind α) : Kind → α
  | .volume => p.volume
  | .arpeggio => p.arpeggio
  | .pitch => p.pitch
  | .hipitch => p.hipitch
  | .duty => p.duty

/-- Replace the value of kind `k`. -/
def PerKind.set {α : Type} (p : PerKind α) (k : Kind) (v : α) : PerKind α :=
  match k with
  | .volume => { p with volume := v }
  | .arpeggio => { p with arpeggio := v }
  | .pitch => { p with pitch := v }
  | .hipitch => { p with hipitch := v }
  | .duty => { p with duty := v }

/-- The same value for every kind. -/
def PerKind.const {α : Type} (v : α) : PerKind α := ⟨v, v, v, v, v⟩

/-- One instrument memory entry (20_memory.md R71). -/
structure InstEntry where
  type : InstType
  en : PerKind Bool
  seq : PerKind (BitVec 7)
  deriving DecidableEq, Repr, Inhabited

/-- One sequence (20_memory.md R73). The item count is the number of items (log 21). -/
structure SeqData where
  loop : Byte
  release : Byte
  setting : BitVec 2
  items : List Byte
  deriving DecidableEq, Repr, Inhabited

/-- The implementation parameters (00_scope.md R7, R8, R9). -/
structure Config where
  /-- note-table entries (R7) -/
  noteCount : Nat
  /-- WHEEL_MAX; WHEEL_MIN is its negation (R7) -/
  wheelMax : Int
  /-- TIMER_PARAM_LIMIT (R7) -/
  timerParamLimit : Nat
  /-- ECHO_LEN (R8) -/
  echoLen : Nat
  /-- PERIOD_MAX (R8) -/
  periodMax : Nat
  /-- VOL_MAX (R8) -/
  volMax : Nat
  /-- VOL_DIV (R8) -/
  volDiv : Nat
  /-- INVERT_DIR (R8) -/
  invertDir : Bool
  /-- NCH (R8) -/
  nch : Nat
  /-- FXCOLS (R9) -/
  fxCols : Nat
  /-- VOL_SHIFT (R9) -/
  volShift : Nat
  /-- VOL_INT_MAX (R9) -/
  volIntMax : Nat
  /-- INST_COUNT (R9) -/
  instCount : Nat
  /-- SEQ_COUNT (R9) -/
  seqCount : Nat
  /-- SEQ_MAX (R9) -/
  seqMax : Nat
  /-- INST_DEF_VOL (R9) -/
  instDefVol : Byte
  /-- WHEEL_RANGE (R9) -/
  wheelRange : Nat
  /-- FINE_NEUTRAL (R9) -/
  fineNeutral : Byte
  /-- NATIVE_TYPE (R9); no rule reads it -/
  nativeType : InstType
  /-- VOLD_SETS_DEFAULT (R9) -/
  voldSetsDefault : Bool
  /-- CHIP_ID (R9) -/
  chipId : Byte
  deriving DecidableEq, Repr

/-- The parameters at the values the spec takes for the illustrated chip (00_scope.md R7 to R9; log 11). -/
def cfg : Config where
  noteCount := 256
  wheelMax := 511
  timerParamLimit := 0x80
  echoLen := 4
  periodMax := 4095
  volMax := 15
  volDiv := 15
  invertDir := false
  nch := 3
  fxCols := 4
  volShift := 3
  volIntMax := 127
  instCount := 64
  seqCount := 128
  seqMax := 252
  instDefVol := 15
  wheelRange := 6
  fineNeutral := 0x80
  nativeType := .native
  voldSetsDefault := false
  chipId := 0

/-! The free values: constants with no body, so that nothing can be proved of what they are. -/

/-- The vibrato waveform at depth d >= 1 and phase p (43_period_volume.md R270, 93 U7; log 10). -/
opaque Config.vibWave : Nat → Nat → Int

/-- The tremolo waveform at depth d >= 1 and phase p, an attenuation >= 0 (43_period_volume.md R270, 93 U7; log 10). -/
opaque Config.tremWave : Nat → Nat → Nat

/-- What the note table holds at launch, any entries of 16 bits (00_scope.md R9 `note_table`, 93 U19; log 5). -/
opaque Config.launchNote : Nat → Word

/-- What instrument memory holds at launch (00_scope.md R9 `inst_mem`, 93 U19; log 5). -/
opaque Config.launchInst : Nat → InstEntry

/-- What sequence memory holds at launch (00_scope.md R9 `seq_mem`, 93 U19; log 5, log 34). -/
opaque Config.launchSeq : Kind → Nat → SeqData

/-- The period that the n-th call of TriggerNote on a channel gives in linear pitch mode (43_period_volume.md R264, 93 U6; log 8). -/
opaque Config.linearNote : Nat → Nat → Nat

/-- The period CalculatePeriod gives in linear pitch mode, of what the calculation reads: the channel's numbers and the listed note table (43_period_volume.md R264, R265; log 8). -/
opaque Config.linearPeriod : List Int → List (Nat × Word) → Nat

end Sys2Proof
end

