-- ==== Sys2Proof/Syntax.lean ====
section
/-! DEFINITION. The instructions: one constructor per row of spec/opcode_table.json (30_encoding.md). -/

namespace Sys2Proof

/-- An effect word (30_encoding.md R109): a kind and a parameter byte. -/
structure Fx where
  kind : Byte
  param : Byte
  deriving DecidableEq, Repr, Inhabited

/-- A note-event record (30_encoding.md R103, R104). The reserved bits are ignored on input and not kept. -/
structure NoteEvent where
  note : BitVec 4
  oct : BitVec 3
  volc : BitVec 5
  inst : Byte
  fx : List Fx
  deriving DecidableEq, Repr, Inhabited

/-- The empty event (30_encoding.md R108): no note, VOL_NONE, INST_NONE, FX_NONE in every column. -/
def NoteEvent.empty : NoteEvent where
  note := 0
  oct := 0
  volc := 16
  inst := 0xFF
  fx := List.replicate cfg.fxCols ⟨0, 0⟩

/-- A channel number as a command word carries it (30_encoding.md R100, bits 11:8). -/
abbrev Chan := BitVec 4

/-- The instructions. HC rows are the host commands; the other rows are the element operations that
the commands perform (30_encoding.md R101), each with the channel `c` that its context gives (log 2). -/
inductive Instr where
  -- HC: host commands (30_encoding.md R101)
  | nop
  | reset (c : Chan)
  | play (c : Chan) (ev : NoteEvent)
  | process (c : Chan)
  | refresh (c : Chan)
  | commit
  | tick
  | forcereload (c : Chan)
  | setpitch (c : Chan) (w : Word)
  | setcfg (arg : Byte)
  | reservedA
  | reservedB
  | reservedC
  | reservedD
  | reservedE
  | reservedF
  -- NE.W0: note words (30_encoding.md R104, R105)
  | nNone (c : Chan) (oct : BitVec 3) (volc : BitVec 5)
  | nC (c : Chan) (oct : BitVec 3) (volc : BitVec 5)
  | nCs (c : Chan) (oct : BitVec 3) (volc : BitVec 5)
  | nD (c : Chan) (oct : BitVec 3) (volc : BitVec 5)
  | nDs (c : Chan) (oct : BitVec 3) (volc : BitVec 5)
  | nE (c : Chan) (oct : BitVec 3) (volc : BitVec 5)
  | nF (c : Chan) (oct : BitVec 3) (volc : BitVec 5)
  | nFs (c : Chan) (oct : BitVec 3) (volc : BitVec 5)
  | nG (c : Chan) (oct : BitVec 3) (volc : BitVec 5)
  | nGs (c : Chan) (oct : BitVec 3) (volc : BitVec 5)
  | nA (c : Chan) (oct : BitVec 3) (volc : BitVec 5)
  | nAs (c : Chan) (oct : BitVec 3) (volc : BitVec 5)
  | nB (c : Chan) (oct : BitVec 3) (volc : BitVec 5)
  | nHalt (c : Chan) (oct : BitVec 3) (volc : BitVec 5)
  | nRelease (c : Chan) (oct : BitVec 3) (volc : BitVec 5)
  | nEcho (c : Chan) (oct : BitVec 3) (volc : BitVec 5)
  -- NE.W1: the instrument reference (30_encoding.md R104, R106)
  | neW1 (c : Chan) (inst : Byte)
  -- FX: effect words (30_encoding.md R110, R111, R122)
  | fxNone (c : Chan) (p : Byte)
  | fxPortamento (c : Chan) (p : Byte)
  | fxVibrato (c : Chan) (p : Byte)
  | fxTremolo (c : Chan) (p : Byte)
  | fxArpeggio (c : Chan) (p : Byte)
  | fxFinePitch (c : Chan) (p : Byte)
  | fxPortaUp (c : Chan) (p : Byte)
  | fxPortaDown (c : Chan) (p : Byte)
  | fxSlideUp (c : Chan) (p : Byte)
  | fxSlideDown (c : Chan) (p : Byte)
  | fxVolSlide (c : Chan) (p : Byte)
  | fxNoteCut (c : Chan) (p : Byte)
  | fxNoteRelease (c : Chan) (p : Byte)
  | fxDelayedVol (c : Chan) (p : Byte)
  | fxTranspose (c : Chan) (p : Byte)
  | fxDuty (c : Chan) (p : Byte)
  | fxDelay (c : Chan) (p : Byte)
  | fxEnvLo (c : Chan) (p : Byte)
  | fxEnvHi (c : Chan) (p : Byte)
  | fxEnvShape (c : Chan) (p : Byte)
  | fxNoise (c : Chan) (p : Byte)
  | fxUnknown (c : Chan) (kind p : Byte)
  -- SQ: sequence items (30_encoding.md R113 to R115)
  | sqVolume (c : Chan) (item : Byte)
  | sqArpAbsolute (c : Chan) (item : Byte)
  | sqArpFixed (c : Chan) (item : Byte)
  | sqArpRelative (c : Chan) (item : Byte)
  | sqArpScheme0 (c : Chan) (limit : BitVec 6)
  | sqArpScheme1 (c : Chan) (limit : BitVec 6)
  | sqArpScheme2 (c : Chan) (limit : BitVec 6)
  | sqArpScheme3 (c : Chan) (limit : BitVec 6)
  | sqPitchRelative (c : Chan) (item : Byte)
  | sqPitchAbsolute (c : Chan) (item : Byte)
  | sqPitchReserved (c : Chan) (item : Byte)
  | sqHipitch (c : Chan) (item : Byte)
  | sqDuty (c : Chan) (item : Byte)
  -- RW: register write pairs (30_encoding.md R112, 20_memory.md R77)
  | periodLo0 (v : Byte)
  | periodHi0 (v : Byte)
  | periodLo1 (v : Byte)
  | periodHi1 (v : Byte)
  | periodLo2 (v : Byte)
  | periodHi2 (v : Byte)
  | noise (v : Byte)
  | mixer (v : Byte)
  | level0 (v : Byte)
  | level1 (v : Byte)
  | level2 (v : Byte)
  | envLo (v : Byte)
  | envHi (v : Byte)
  | envShape (v : Byte)
  deriving DecidableEq, Repr

end Sys2Proof
end

