-- ==== Sys2Proof/WellFormed.lean ====
section
/-! DEFINITION. Which instructions are well formed: the conditions of 30_encoding.md and 20_memory.md R77 that the types of Syntax.lean do not already hold. -/

namespace Sys2Proof

/-- The effect kinds of the two tables: the universal kinds 0x00..0x10 (30_encoding.md R110) and the illustrated chip's 0x80..0x83 (R111). -/
def knownFxKind (kind : Byte) : Bool :=
  decide (kind.toNat ≤ 0x10) || (decide (0x80 ≤ kind.toNat) && decide (kind.toNat ≤ 0x83))

/-- The bits a register value leaves zero (20_memory.md R77): `value` fits in its low `n` bits. -/
def fitsLow (n : Nat) (value : Byte) : Bool := decide (value.toNat < 2 ^ n)

/-- A note event has exactly FXCOLS effect columns (30_encoding.md R103). -/
def NoteEvent.wf (ev : NoteEvent) : Bool := decide (ev.fx.length = cfg.fxCols)

/-- The check, one arm per constructor. -/
def Instr.wf : Instr → Bool
  | .nop => true
  | .reset _ => true
  | .play _ ev => ev.wf
  | .process _ => true
  | .refresh _ => true
  | .commit => true
  | .tick => true
  | .forcereload _ => true
  | .setpitch _ _ => true
  | .setcfg _ => true
  | .reservedA => true
  | .reservedB => true
  | .reservedC => true
  | .reservedD => true
  | .reservedE => true
  | .reservedF => true
  | .nNone _ _ _ => true
  | .nC _ _ _ => true
  | .nCs _ _ _ => true
  | .nD _ _ _ => true
  | .nDs _ _ _ => true
  | .nE _ _ _ => true
  | .nF _ _ _ => true
  | .nFs _ _ _ => true
  | .nG _ _ _ => true
  | .nGs _ _ _ => true
  | .nA _ _ _ => true
  | .nAs _ _ _ => true
  | .nB _ _ _ => true
  | .nHalt _ _ _ => true
  | .nRelease _ _ _ => true
  | .nEcho _ _ _ => true
  | .neW1 _ _ => true
  | .fxNone _ _ => true
  | .fxPortamento _ _ => true
  | .fxVibrato _ _ => true
  | .fxTremolo _ _ => true
  | .fxArpeggio _ _ => true
  | .fxFinePitch _ _ => true
  | .fxPortaUp _ _ => true
  | .fxPortaDown _ _ => true
  | .fxSlideUp _ _ => true
  | .fxSlideDown _ _ => true
  | .fxVolSlide _ _ => true
  | .fxNoteCut _ _ => true
  | .fxNoteRelease _ _ => true
  | .fxDelayedVol _ _ => true
  | .fxTranspose _ _ => true
  | .fxDuty _ _ => true
  | .fxDelay _ _ => true
  | .fxEnvLo _ _ => true
  | .fxEnvHi _ _ => true
  | .fxEnvShape _ _ => true
  | .fxNoise _ _ => true
  | .fxUnknown _ kind _ => !knownFxKind kind
  | .sqVolume _ _ => true
  | .sqArpAbsolute _ _ => true
  | .sqArpFixed _ _ => true
  | .sqArpRelative _ _ => true
  | .sqArpScheme0 _ _ => true
  | .sqArpScheme1 _ _ => true
  | .sqArpScheme2 _ _ => true
  | .sqArpScheme3 _ _ => true
  | .sqPitchRelative _ _ => true
  | .sqPitchAbsolute _ _ => true
  | .sqPitchReserved _ _ => true
  | .sqHipitch _ _ => true
  | .sqDuty _ _ => true
  | .periodLo0 _ => true
  | .periodHi0 v => fitsLow 4 v
  | .periodLo1 _ => true
  | .periodHi1 v => fitsLow 4 v
  | .periodLo2 _ => true
  | .periodHi2 v => fitsLow 4 v
  | .noise v => fitsLow 5 v
  | .mixer v => fitsLow 6 v
  | .level0 v => fitsLow 5 v
  | .level1 v => fitsLow 5 v
  | .level2 v => fitsLow 5 v
  | .envLo _ => true
  | .envHi _ => true
  | .envShape v => fitsLow 4 v

/-- The instruction is well formed. -/
abbrev WellFormed (i : Instr) : Prop := i.wf = true

end Sys2Proof
end

