-- ==== Sys2Proof/Decode.lean ====
section
/-! DEFINITION. Decoding and encoding (30_encoding.md R100 to R126).

The five formats share their bit patterns, so a word is read in a CONTEXT: the command port reads HC words,
PLAY reads the two note words and the effect columns of its record, PROCESS reads the items of a running slot,
and the register port carries RW pairs. The context also gives the channel, which no word but HC holds (log 2). -/

namespace Sys2Proof

/-- Where a word stands, and so which format it has (30_encoding.md, section 1). -/
inductive Ctx where
  /-- the command port: format HC -/
  | host
  /-- word W0 of an NE record for channel `c` -/
  | noteWord (c : Chan)
  /-- word W1 of an NE record for channel `c` -/
  | instWord (c : Chan)
  /-- an effect column of an NE record for channel `c`: format FX -/
  | effect (c : Chan)
  /-- an item of a sequence of kind `k` and setting `setting` bound on channel `c`: format SQ -/
  | seqItem (c : Chan) (k : Kind) (setting : BitVec 2)
  /-- the register write port: format RW -/
  | port
  deriving DecidableEq, Repr

/-- Why a word list is refused. -/
inductive DecodeError where
  /-- fewer words than the form has -/
  | truncated
  /-- a sequence item has 8 bits (R113); the word holds more -/
  | itemTooWide
  /-- an RW address above 0x0D: no register of the map (20_memory.md R77) -/
  | noSuchRegister
  /-- an RW value with a bit set that its register leaves zero (20_memory.md R77) -/
  | reservedValueBits
  deriving DecidableEq, Repr

/-! ### Bit fields -/

/-- Bits 15:12 of an HC word (R100). -/
def opField (w : Word) : BitVec 4 := w.extractLsb' 12 4

/-- Bits 11:8 of an HC word (R100). -/
def chField (w : Word) : Chan := w.extractLsb' 8 4

/-- Bits 7:0 of a word. -/
def loByte (w : Word) : Byte := w.extractLsb' 0 8

/-- Bits 15:8 of a word. -/
def hiByte (w : Word) : Byte := w.extractLsb' 8 8

/-- W0 bits 3:0, the note code (R104). -/
def noteField (w : Word) : BitVec 4 := w.extractLsb' 0 4

/-- W0 bits 6:4, the octave or echo index (R104). -/
def octField (w : Word) : BitVec 3 := w.extractLsb' 4 3

/-- W0 bits 12:8, the volume column (R104). -/
def volcField (w : Word) : BitVec 5 := w.extractLsb' 8 5

/-- An FX word (R109). -/
def fxOfWord (w : Word) : Fx := ⟨hiByte w, loByte w⟩

/-- An NE record from its words (R104): reserved bits are ignored (R125). -/
def eventOfWords (w0 w1 : Word) (columns : List Word) : NoteEvent where
  note := noteField w0
  oct := octField w0
  volc := volcField w0
  inst := loByte w1
  fx := columns.map fxOfWord

/-! ### The decoder -/

/-- The host command at the head of the port (R101). A command's length is fixed by its `op` (R126). -/
def decodeHost : List Word → Except DecodeError (Instr × List Word)
  | [] => .error .truncated
  | w :: rest =>
    match (opField w).toNat with
    | 0x0 => .ok (.nop, rest)
    | 0x1 => .ok (.reset (chField w), rest)
    | 0x2 =>
      match rest with
      | w0 :: w1 :: f0 :: f1 :: f2 :: f3 :: rest' =>
        .ok (.play (chField w) (eventOfWords w0 w1 [f0, f1, f2, f3]), rest')
      | _ => .error .truncated
    | 0x3 => .ok (.process (chField w), rest)
    | 0x4 => .ok (.refresh (chField w), rest)
    | 0x5 => .ok (.commit, rest)
    | 0x6 => .ok (.tick, rest)
    | 0x7 => .ok (.forcereload (chField w), rest)
    | 0x8 =>
      match rest with
      | x :: rest' => .ok (.setpitch (chField w) x, rest')
      | [] => .error .truncated
    | 0x9 => .ok (.setcfg (loByte w), rest)
    | 0xA => .ok (.reservedA, rest)
    | 0xB => .ok (.reservedB, rest)
    | 0xC => .ok (.reservedC, rest)
    | 0xD => .ok (.reservedD, rest)
    | 0xE => .ok (.reservedE, rest)
    | _ => .ok (.reservedF, rest)

/-- The note word (R104, R105). -/
def decodeNoteWord (c : Chan) (w : Word) : Instr :=
  match (noteField w).toNat with
  | 0 => .nNone c (octField w) (volcField w)
  | 1 => .nC c (octField w) (volcField w)
  | 2 => .nCs c (octField w) (volcField w)
  | 3 => .nD c (octField w) (volcField w)
  | 4 => .nDs c (octField w) (volcField w)
  | 5 => .nE c (octField w) (volcField w)
  | 6 => .nF c (octField w) (volcField w)
  | 7 => .nFs c (octField w) (volcField w)
  | 8 => .nG c (octField w) (volcField w)
  | 9 => .nGs c (octField w) (volcField w)
  | 10 => .nA c (octField w) (volcField w)
  | 11 => .nAs c (octField w) (volcField w)
  | 12 => .nB c (octField w) (volcField w)
  | 13 => .nHalt c (octField w) (volcField w)
  | 14 => .nRelease c (octField w) (volcField w)
  | _ => .nEcho c (octField w) (volcField w)

/-- An effect (R110, R111); every other kind is FX_UNKNOWN (R122). -/
def decodeFx (c : Chan) (f : Fx) : Instr :=
  match f.kind.toNat with
  | 0x00 => .fxNone c f.param
  | 0x01 => .fxPortamento c f.param
  | 0x02 => .fxVibrato c f.param
  | 0x03 => .fxTremolo c f.param
  | 0x04 => .fxArpeggio c f.param
  | 0x05 => .fxFinePitch c f.param
  | 0x06 => .fxPortaUp c f.param
  | 0x07 => .fxPortaDown c f.param
  | 0x08 => .fxSlideUp c f.param
  | 0x09 => .fxSlideDown c f.param
  | 0x0A => .fxVolSlide c f.param
  | 0x0B => .fxNoteCut c f.param
  | 0x0C => .fxNoteRelease c f.param
  | 0x0D => .fxDelayedVol c f.param
  | 0x0E => .fxTranspose c f.param
  | 0x0F => .fxDuty c f.param
  | 0x10 => .fxDelay c f.param
  | 0x80 => .fxEnvLo c f.param
  | 0x81 => .fxEnvHi c f.param
  | 0x82 => .fxEnvShape c f.param
  | 0x83 => .fxNoise c f.param
  | _ => .fxUnknown c f.kind f.param

/-- A sequence item, read by its kind and setting (R75, R113, R114, R124). -/
def decodeSeqItem (c : Chan) (k : Kind) (setting : BitVec 2) (item : Byte) : Instr :=
  match k with
  | .volume => .sqVolume c item
  | .arpeggio =>
    match setting.toNat with
    | 0 => .sqArpAbsolute c item
    | 1 => .sqArpFixed c item
    | 2 => .sqArpRelative c item
    | _ =>
      match (item.extractLsb' 6 2).toNat with
      | 0 => .sqArpScheme0 c (item.extractLsb' 0 6)
      | 1 => .sqArpScheme1 c (item.extractLsb' 0 6)
      | 2 => .sqArpScheme2 c (item.extractLsb' 0 6)
      | _ => .sqArpScheme3 c (item.extractLsb' 0 6)
  | .pitch =>
    match setting.toNat with
    | 0 => .sqPitchRelative c item
    | 1 => .sqPitchAbsolute c item
    | _ => .sqPitchReserved c item
  | .hipitch => .sqHipitch c item
  | .duty => .sqDuty c item

/-- The register an RW pair names (20_memory.md R77), before its reserved bits are checked. -/
def registerWrite (addr value : Byte) : Except DecodeError Instr :=
  match addr.toNat with
  | 0x0 => .ok (.periodLo0 value)
  | 0x1 => .ok (.periodHi0 value)
  | 0x2 => .ok (.periodLo1 value)
  | 0x3 => .ok (.periodHi1 value)
  | 0x4 => .ok (.periodLo2 value)
  | 0x5 => .ok (.periodHi2 value)
  | 0x6 => .ok (.noise value)
  | 0x7 => .ok (.mixer value)
  | 0x8 => .ok (.level0 value)
  | 0x9 => .ok (.level1 value)
  | 0xA => .ok (.level2 value)
  | 0xB => .ok (.envLo value)
  | 0xC => .ok (.envHi value)
  | 0xD => .ok (.envShape value)
  | _ => .error .noSuchRegister

/-- An RW pair (30_encoding.md R112): address in the high byte, value in the low byte. -/
def decodePort (w : Word) : Except DecodeError Instr :=
  match registerWrite (hiByte w) (loByte w) with
  | .ok i => if i.wf then .ok i else .error .reservedValueBits
  | .error e => .error e

/-- Decode the words in their context: the instruction and the words left. -/
def decode (x : Ctx) (ws : List Word) : Except DecodeError (Instr × List Word) :=
  match x with
  | .host => decodeHost ws
  | .noteWord c =>
    match ws with
    | w :: rest => .ok (decodeNoteWord c w, rest)
    | [] => .error .truncated
  | .instWord c =>
    match ws with
    | w :: rest => .ok (.neW1 c (loByte w), rest)
    | [] => .error .truncated
  | .effect c =>
    match ws with
    | w :: rest => .ok (decodeFx c (fxOfWord w), rest)
    | [] => .error .truncated
  | .seqItem c k setting =>
    match ws with
    | w :: rest =>
      if hiByte w = 0 then .ok (decodeSeqItem c k setting (loByte w), rest) else .error .itemTooWide
    | [] => .error .truncated
  | .port =>
    match ws with
    | w :: rest =>
      match decodePort w with
      | .ok i => .ok (i, rest)
      | .error e => .error e
    | [] => .error .truncated

/-! ### The encoder -/

/-- An HC word (R100). -/
def hcWord (op : BitVec 4) (c : Chan) (arg : Byte) : Word := op ++ c ++ arg

/-- W0 of an NE record (R104), reserved bits 0. -/
def noteWord (note : BitVec 4) (oct : BitVec 3) (volc : BitVec 5) : Word :=
  (0 : BitVec 3) ++ volc ++ (0 : BitVec 1) ++ oct ++ note

/-- W1 of an NE record (R104), reserved bits 0. -/
def instWord (inst : Byte) : Word := (0 : Byte) ++ inst

/-- An FX word (R109), and an RW pair (R112): two bytes, the first in bits 15:8. -/
def bytePair (hi lo : Byte) : Word := hi ++ lo

/-- A sequence item as a word: its byte in bits 7:0 (R113). -/
def itemWord (item : Byte) : Word := (0 : Byte) ++ item

/-- A scheme item (R114). -/
def schemeItem (scheme : BitVec 2) (limit : BitVec 6) : Byte := scheme ++ limit

/-- The words of an NE record (R103). -/
def eventWords (ev : NoteEvent) : List Word :=
  noteWord ev.note ev.oct ev.volc :: instWord ev.inst :: ev.fx.map fun f => bytePair f.kind f.param

/-- The context an instruction is read in. -/
def Instr.ctx : Instr → Ctx
  | .nop => .host
  | .reset _ => .host
  | .play _ _ => .host
  | .process _ => .host
  | .refresh _ => .host
  | .commit => .host
  | .tick => .host
  | .forcereload _ => .host
  | .setpitch _ _ => .host
  | .setcfg _ => .host
  | .reservedA => .host
  | .reservedB => .host
  | .reservedC => .host
  | .reservedD => .host
  | .reservedE => .host
  | .reservedF => .host
  | .nNone c _ _ => .noteWord c
  | .nC c _ _ => .noteWord c
  | .nCs c _ _ => .noteWord c
  | .nD c _ _ => .noteWord c
  | .nDs c _ _ => .noteWord c
  | .nE c _ _ => .noteWord c
  | .nF c _ _ => .noteWord c
  | .nFs c _ _ => .noteWord c
  | .nG c _ _ => .noteWord c
  | .nGs c _ _ => .noteWord c
  | .nA c _ _ => .noteWord c
  | .nAs c _ _ => .noteWord c
  | .nB c _ _ => .noteWord c
  | .nHalt c _ _ => .noteWord c
  | .nRelease c _ _ => .noteWord c
  | .nEcho c _ _ => .noteWord c
  | .neW1 c _ => .instWord c
  | .fxNone c _ => .effect c
  | .fxPortamento c _ => .effect c
  | .fxVibrato c _ => .effect c
  | .fxTremolo c _ => .effect c
  | .fxArpeggio c _ => .effect c
  | .fxFinePitch c _ => .effect c
  | .fxPortaUp c _ => .effect c
  | .fxPortaDown c _ => .effect c
  | .fxSlideUp c _ => .effect c
  | .fxSlideDown c _ => .effect c
  | .fxVolSlide c _ => .effect c
  | .fxNoteCut c _ => .effect c
  | .fxNoteRelease c _ => .effect c
  | .fxDelayedVol c _ => .effect c
  | .fxTranspose c _ => .effect c
  | .fxDuty c _ => .effect c
  | .fxDelay c _ => .effect c
  | .fxEnvLo c _ => .effect c
  | .fxEnvHi c _ => .effect c
  | .fxEnvShape c _ => .effect c
  | .fxNoise c _ => .effect c
  | .fxUnknown c _ _ => .effect c
  | .sqVolume c _ => .seqItem c .volume 0
  | .sqArpAbsolute c _ => .seqItem c .arpeggio 0
  | .sqArpFixed c _ => .seqItem c .arpeggio 1
  | .sqArpRelative c _ => .seqItem c .arpeggio 2
  | .sqArpScheme0 c _ => .seqItem c .arpeggio 3
  | .sqArpScheme1 c _ => .seqItem c .arpeggio 3
  | .sqArpScheme2 c _ => .seqItem c .arpeggio 3
  | .sqArpScheme3 c _ => .seqItem c .arpeggio 3
  | .sqPitchRelative c _ => .seqItem c .pitch 0
  | .sqPitchAbsolute c _ => .seqItem c .pitch 1
  | .sqPitchReserved c _ => .seqItem c .pitch 2
  | .sqHipitch c _ => .seqItem c .hipitch 0
  | .sqDuty c _ => .seqItem c .duty 0
  | .periodLo0 _ => .port
  | .periodHi0 _ => .port
  | .periodLo1 _ => .port
  | .periodHi1 _ => .port
  | .periodLo2 _ => .port
  | .periodHi2 _ => .port
  | .noise _ => .port
  | .mixer _ => .port
  | .level0 _ => .port
  | .level1 _ => .port
  | .level2 _ => .port
  | .envLo _ => .port
  | .envHi _ => .port
  | .envShape _ => .port

/-- The words of an instruction (R100 to R115; ignored fields are written 0). -/
def encode : Instr → List Word
  | .nop => [hcWord 0x0 0 0]
  | .reset c => [hcWord 0x1 c 0]
  | .play c ev => hcWord 0x2 c 0 :: eventWords ev
  | .process c => [hcWord 0x3 c 0]
  | .refresh c => [hcWord 0x4 c 0]
  | .commit => [hcWord 0x5 0 0]
  | .tick => [hcWord 0x6 0 0]
  | .forcereload c => [hcWord 0x7 c 0]
  | .setpitch c w => [hcWord 0x8 c 0, w]
  | .setcfg arg => [hcWord 0x9 0 arg]
  | .reservedA => [hcWord 0xA 0 0]
  | .reservedB => [hcWord 0xB 0 0]
  | .reservedC => [hcWord 0xC 0 0]
  | .reservedD => [hcWord 0xD 0 0]
  | .reservedE => [hcWord 0xE 0 0]
  | .reservedF => [hcWord 0xF 0 0]
  | .nNone _ oct volc => [noteWord 0 oct volc]
  | .nC _ oct volc => [noteWord 1 oct volc]
  | .nCs _ oct volc => [noteWord 2 oct volc]
  | .nD _ oct volc => [noteWord 3 oct volc]
  | .nDs _ oct volc => [noteWord 4 oct volc]
  | .nE _ oct volc => [noteWord 5 oct volc]
  | .nF _ oct volc => [noteWord 6 oct volc]
  | .nFs _ oct volc => [noteWord 7 oct volc]
  | .nG _ oct volc => [noteWord 8 oct volc]
  | .nGs _ oct volc => [noteWord 9 oct volc]
  | .nA _ oct volc => [noteWord 10 oct volc]
  | .nAs _ oct volc => [noteWord 11 oct volc]
  | .nB _ oct volc => [noteWord 12 oct volc]
  | .nHalt _ oct volc => [noteWord 13 oct volc]
  | .nRelease _ oct volc => [noteWord 14 oct volc]
  | .nEcho _ oct volc => [noteWord 15 oct volc]
  | .neW1 _ inst => [instWord inst]
  | .fxNone _ p => [bytePair 0x00 p]
  | .fxPortamento _ p => [bytePair 0x01 p]
  | .fxVibrato _ p => [bytePair 0x02 p]
  | .fxTremolo _ p => [bytePair 0x03 p]
  | .fxArpeggio _ p => [bytePair 0x04 p]
  | .fxFinePitch _ p => [bytePair 0x05 p]
  | .fxPortaUp _ p => [bytePair 0x06 p]
  | .fxPortaDown _ p => [bytePair 0x07 p]
  | .fxSlideUp _ p => [bytePair 0x08 p]
  | .fxSlideDown _ p => [bytePair 0x09 p]
  | .fxVolSlide _ p => [bytePair 0x0A p]
  | .fxNoteCut _ p => [bytePair 0x0B p]
  | .fxNoteRelease _ p => [bytePair 0x0C p]
  | .fxDelayedVol _ p => [bytePair 0x0D p]
  | .fxTranspose _ p => [bytePair 0x0E p]
  | .fxDuty _ p => [bytePair 0x0F p]
  | .fxDelay _ p => [bytePair 0x10 p]
  | .fxEnvLo _ p => [bytePair 0x80 p]
  | .fxEnvHi _ p => [bytePair 0x81 p]
  | .fxEnvShape _ p => [bytePair 0x82 p]
  | .fxNoise _ p => [bytePair 0x83 p]
  | .fxUnknown _ kind p => [bytePair kind p]
  | .sqVolume _ item => [itemWord item]
  | .sqArpAbsolute _ item => [itemWord item]
  | .sqArpFixed _ item => [itemWord item]
  | .sqArpRelative _ item => [itemWord item]
  | .sqArpScheme0 _ limit => [itemWord (schemeItem 0 limit)]
  | .sqArpScheme1 _ limit => [itemWord (schemeItem 1 limit)]
  | .sqArpScheme2 _ limit => [itemWord (schemeItem 2 limit)]
  | .sqArpScheme3 _ limit => [itemWord (schemeItem 3 limit)]
  | .sqPitchRelative _ item => [itemWord item]
  | .sqPitchAbsolute _ item => [itemWord item]
  | .sqPitchReserved _ item => [itemWord item]
  | .sqHipitch _ item => [itemWord item]
  | .sqDuty _ item => [itemWord item]
  | .periodLo0 v => [bytePair 0x00 v]
  | .periodHi0 v => [bytePair 0x01 v]
  | .periodLo1 v => [bytePair 0x02 v]
  | .periodHi1 v => [bytePair 0x03 v]
  | .periodLo2 v => [bytePair 0x04 v]
  | .periodHi2 v => [bytePair 0x05 v]
  | .noise v => [bytePair 0x06 v]
  | .mixer v => [bytePair 0x07 v]
  | .level0 v => [bytePair 0x08 v]
  | .level1 v => [bytePair 0x09 v]
  | .level2 v => [bytePair 0x0A v]
  | .envLo v => [bytePair 0x0B v]
  | .envHi v => [bytePair 0x0C v]
  | .envShape v => [bytePair 0x0D v]

/-! ### Numbered bits, as the opcode table numbers them -/

/-- The most words a host command has: PLAY's own word and its record (R101, R103). -/
def longestCommand : Nat := 3 + cfg.fxCols

/-- The 16-bit words of a number whose bit 0 is bit 0 of the first word; bits from `nbits` up are 0. -/
def tableWords (nbits w : Nat) : List Word :=
  (List.range longestCommand).map fun i => BitVec.ofNat 16 ((w % 2 ^ nbits) >>> (16 * i))

/-- The words the command at the head of the port has: fixed by its opcode (R101, R126). -/
def commandLength (w : Word) : Nat :=
  match (opField w).toNat with
  | 0x2 => longestCommand
  | 0x8 => 2
  | _ => 1

/-- The instruction the decoder reads from the table's numbered bits: a row of 16 bits or more as the command
port reads it; a row of 8 bits as an item of an arpeggio scheme sequence of channel 0, the only SQ rows whose
bits the table fixes (log 4). -/
def decodeTableWord (nbits w : Nat) : Option Instr :=
  if nbits ≤ 8 then
    some (decodeSeqItem 0 .arpeggio 3 (BitVec.ofNat 8 (w % 2 ^ nbits)))
  else
    match decode .host (tableWords nbits w) with
    | .ok (i, _) => some i
    | .error _ => none

end Sys2Proof
end

