-- ==== Sys2Proof/Machine/State.lean ====
section
/-! DEFINITION. The state of the Channel Engine as plain data (10_state.md; 20_memory.md, section 1), the ways a step can stop, and the state after power-on (70_reset_and_hazards.md, section 1). -/

namespace Sys2Proof.Machine

/-- The kinds of the continuous-effect slot (10_state.md R31). -/
inductive Eff where
  | none | arpeggio | portamento | portaUp | portaDown | slideUp | slideDown
  deriving DecidableEq, Repr, Inhabited

/-- One echo-buffer slot (10_state.md R44). -/
inductive Echo where
  | empty
  | halt
  | note (n : Byte)
  deriving DecidableEq, Repr, Inhabited

/-- The play-state tag of a sequence slot (10_state.md R48). -/
inductive PlayState where
  | disabled | running | ended | halted
  deriving DecidableEq, Repr, Inhabited

/-- A sequence slot (10_state.md R47 to R49); `bound = none` is SEQ_NONE. -/
structure Slot where
  bound : Option (BitVec 7)
  st : PlayState
  pos : Nat
  deriving DecidableEq, Repr, Inhabited

/-- The slot of a new handler, and of a kind an instrument does not enable: (SEQ_NONE, S_DISABLED, 0) (70_reset_and_hazards.md R403). -/
def Slot.off : Slot := ⟨none, .disabled, 0⟩

/-- The handler record (10_state.md R51). -/
structure Handler where
  type : InstType
  slots : PerKind Slot
  noteOff : Int
  pitchOff : Int
  deriving DecidableEq, Repr, Inhabited

/-- The runtime state of one channel (10_state.md, sections 1 to 8). `free` is the model's own: the number of
values TriggerNote has given in linear pitch mode (log 8). -/
structure Channel where
  chipId : Byte
  chIdx : Byte
  note : Byte
  trigger : Bool
  gate : Bool
  release : Bool
  inst : Byte
  instType : InstType
  handler : Option Handler
  forceReload : Bool
  vol : BitVec 7
  defVol : BitVec 7
  instVol : Byte
  eff : Eff
  effParam : Byte
  period : Nat
  pitchWheel : Int
  finePitch : Byte
  portaSpeed : Byte
  portaTo : Nat
  arpPhase : Fin 3
  arpParam : Byte
  vibSpeed : BitVec 4
  vibDepth : BitVec 4
  vibPhase : BitVec 6
  tremSpeed : BitVec 4
  tremDepth : BitVec 4
  tremPhase : BitVec 6
  volSlide : Byte
  cutTimer : Byte
  relTimer : Byte
  voldTimer : BitVec 5
  newVol : BitVec 7
  transTimer : BitVec 4
  transAmount : BitVec 4
  transDown : Bool
  duty : Byte
  defDuty : Byte
  delayPending : Bool
  delayTimer : Byte
  delayEvent : NoteEvent
  echo : List Echo
  free : Nat
  deriving DecidableEq, Repr, Inhabited

/-- The channels of the chip, NCH = 3 of them (00_scope.md R8). -/
structure Channels where
  c0 : Channel
  c1 : Channel
  c2 : Channel
  deriving DecidableEq, Repr

/-- The chip-level shared resource (10_state.md R55 to R58). -/
structure Shared where
  envPeriod : Word
  envShape : BitVec 4
  noisePeriod : BitVec 5
  mixer : Byte
  envAny : Bool
  update : Bool
  retrig : Bool
  deriving DecidableEq, Repr, Inhabited

/-- The configuration register CFG (10_state.md R61); its reserved bits hold nothing. -/
structure CfgReg where
  cutSilent : Bool
  linearPitch : Bool
  deriving DecidableEq, Repr, Inhabited

/-- The three tables (20_memory.md R70 to R73), each a list of entries by entry number in one canonical form
(`Memory.wf`); an entry that is not listed reads as the launch data of Config (log 5, log 6). -/
structure Memory where
  notes : List (Nat × Word)
  insts : List (Nat × InstEntry)
  seqs : PerKind (List (Nat × SeqData))
  deriving DecidableEq, Repr

/-- One register write pair of `out` (30_encoding.md R112). -/
abbrev RegPair := Byte × Byte

/-- The state of the CE. `inp` is the model's own: the command words on the port that the CE has not taken,
oldest first (log 1). -/
structure State where
  chans : Channels
  shr : Shared
  cfgReg : CfgReg
  out : List RegPair
  mem : Memory
  inp : List Word
  deriving DecidableEq, Repr

/-- The faults of the machine: none. 60_exceptions.md R376 makes every command total and R379 gives the CE no
trap, so no step raises one (log 25). -/
inductive Fault where
  deriving DecidableEq, Repr

/-- The refusals of the machine. -/
inductive Refusal where
  /-- Raised by `exec` for an instruction that has no meaning yet; no arm raises it now. Safe: the machine stops where
  the hardware goes on. -/
  | notModelled (mnemonic : String)
  deriving DecidableEq, Repr

/-- The channel values of RESET and power-on (70_reset_and_hazards.md R401), with the identity fields R20 keeps
and the model's own counter given. -/
def Channel.resetValues (chipId chIdx : Byte) (free : Nat) : Channel where
  chipId := chipId
  chIdx := chIdx
  note := 0
  trigger := false
  gate := false
  release := false
  inst := 0xFF
  instType := .none
  handler := none
  forceReload := false
  vol := 120
  defVol := 120
  instVol := 0
  eff := .none
  effParam := 0
  period := 0
  pitchWheel := 0
  finePitch := cfg.fineNeutral
  portaSpeed := 0
  portaTo := 0
  arpPhase := 0
  arpParam := 0
  vibSpeed := 0
  vibDepth := 0
  vibPhase := 0
  tremSpeed := 0
  tremDepth := 0
  tremPhase := 0
  volSlide := 0
  cutTimer := 0
  relTimer := 0
  voldTimer := 0
  newVol := 0
  transTimer := 0
  transAmount := 0
  transDown := false
  duty := 0
  defDuty := 0
  delayPending := false
  delayTimer := 0
  delayEvent := NoteEvent.empty
  echo := List.replicate cfg.echoLen .empty
  free := free

/-- A channel after power-on (70_reset_and_hazards.md R400): `ch_idx` is its number, `chip_id` is `cfg.CHIP_ID`. -/
def Channel.powerOn (chIdx : Byte) : Channel := Channel.resetValues cfg.chipId chIdx 0

/-- The shared resource after power-on (70_reset_and_hazards.md R402). -/
def Shared.powerOn : Shared where
  envPeriod := 0
  envShape := 0
  noisePeriod := 0
  mixer := 0x3F
  envAny := false
  update := false
  retrig := false

/-- The machine after power-on, before the first command (70_reset_and_hazards.md R400): nothing emitted, nothing
installed, no command on the port (log 13). -/
def State.reset : State where
  chans := ⟨.powerOn 0, .powerOn 1, .powerOn 2⟩
  shr := Shared.powerOn
  cfgReg := ⟨false, false⟩
  out := []
  mem := ⟨[], [], .const []⟩
  inp := []

end Sys2Proof.Machine
end

