-- ==== Sys2Proof/Machine/Operands.lean ====
section
/-! DEFINITION. Operand assembly (30_encoding.md R102, R113 to R120): how parameter bytes, items and words are read. -/

namespace Sys2Proof.Machine

/-- The high nibble, the first operand of a nibble pair (30_encoding.md R116, 00_scope.md R10). -/
def hi (b : Byte) : BitVec 4 := b.extractLsb' 4 4

/-- The low nibble, the second operand (30_encoding.md R116). -/
def lo (b : Byte) : BitVec 4 := b.extractLsb' 0 4

/-- `clamp(v, lo, hi)` (00_scope.md R12). -/
def clamp (v low high : Int) : Int := if v < low then low else if v > high then high else v

/-- A number cut to a note number, 0..255 (20_memory.md R70, 40_row_commands.md R170). -/
def noteNumber (v : Int) : Byte := BitVec.ofNat 8 (clamp v 0 255).toNat

/-- The extension word of SETPITCH (30_encoding.md R102). -/
def wheelOperand (w : Word) : Int := clamp w.toInt (-cfg.wheelMax) cfg.wheelMax

/-- A sequence item read `sext_8` (30_encoding.md R113). -/
def itemValue (item : Byte) : Int := item.toInt

/-- A scheme item's limit read `sext_6` (30_encoding.md R114). -/
def schemeLimit (limit : BitVec 6) : Int := limit.toInt

/-- A hi-pitch item, left-shifted by 4 bits (30_encoding.md R120). -/
def hipitchValue (item : Byte) : Int := itemValue item * 16

/-- A 4-bit volume in internal units (30_encoding.md R117). -/
def internalVolume (v : BitVec 4) : BitVec 7 := v.setWidth 7 <<< cfg.volShift

/-- The 4-bit volume of an internal volume (10_state.md R29). -/
def fourBitVolume (v : BitVec 7) : Nat := v.toNat >>> cfg.volShift

/-- The speed of a semitone slide, `(hi(param) << 1) + 1` (30_encoding.md R118). -/
def slideSpeed (p : Byte) : Byte := ((hi p).setWidth 8 <<< 1) + 1

/-- The tick count of FX_TRANSPOSE, bits 6:4 (30_encoding.md R110), stored as `t + 1` (R119). -/
def transposeTicks (p : Byte) : BitVec 4 := (p.extractLsb' 4 3).setWidth 4 + 1

/-- The tick count of FX_DELAYED_VOL, bits 7:4 (30_encoding.md R110), stored as `t + 1` (R119). -/
def delayedVolumeTicks (p : Byte) : BitVec 5 := (hi p).setWidth 5 + 1

/-- Bit 7 of FX_TRANSPOSE: downward (30_encoding.md R110). -/
def transposeDown (p : Byte) : Bool := p.getLsbD 7

/-- D_NOISE, bit 7 of a duty byte (30_encoding.md R115). -/
def dutyNoise (d : Byte) : Bool := d.getLsbD 7

/-- D_SQUARE, bit 6 of a duty byte (30_encoding.md R115). -/
def dutySquare (d : Byte) : Bool := d.getLsbD 6

/-- D_ENV, bit 5 of a duty byte (30_encoding.md R115). -/
def dutyEnv (d : Byte) : Bool := d.getLsbD 5

/-- The noise period, bits 4:0 of a duty byte (30_encoding.md R115). -/
def dutyNoisePeriod (d : Byte) : BitVec 5 := d.extractLsb' 0 5

/-- An item count: the number of items (20_memory.md R73; log 21). -/
def count (q : SeqData) : Nat := q.items.length

/-- Loop(k,s): the loop point, absent when it is not below the count (20_memory.md R74). -/
def loopPoint (q : SeqData) : Option Nat := if q.loop.toNat < count q then some q.loop.toNat else none

/-- Release(k,s): the release point, absent when it is not below the count (20_memory.md R74). -/
def releasePoint (q : SeqData) : Option Nat :=
  if q.release.toNat < count q then some q.release.toNat else none

end Sys2Proof.Machine
end

