-- ==== Sys2Proof/Machine/Flags.lean ====
section
/-! DEFINITION. The one-bit flags (10_state.md R52): the channel's trigger, gate and release, the mixer bits and
the tick flags of the shared resource. The CE has no arithmetic condition codes (R52). -/

namespace Sys2Proof.Machine

/-- A note head: `gate <- 1; release <- 0; trigger <- 1` (40_row_commands.md R163). -/
def Channel.headFlags (ch : Channel) : Channel := { ch with gate := true, release := false, trigger := true }

/-- A cut: `gate <- 0; release <- 0; trigger <- 0` (40_row_commands.md R161). -/
def Channel.cutFlags (ch : Channel) : Channel := { ch with gate := false, release := false, trigger := false }

/-- Emission consumes the trigger flag (45_chip_emission.md R337). -/
def Channel.consumeTrigger (ch : Channel) : Channel := { ch with trigger := false }

/-- Put one bit of a byte. -/
def putBit (m : Byte) (i : Nat) (b : Bool) : Byte :=
  if b then m ||| ((1 : Byte) <<< i) else m &&& ~~~((1 : Byte) <<< i)

/-- The two mixer bits of channel `c`: bit `c` tone-disable, bit `3 + c` noise-disable (45_chip_emission.md R339). -/
def Shared.putMixer (g : Shared) (c : Nat) (toneOff noiseOff : Bool) : Shared :=
  { g with mixer := putBit (putBit g.mixer c toneOff) (3 + c) noiseOff }

/-- What a sounding envelope channel leaves for COMMIT (45_chip_emission.md R338): `env_any`, and `retrig` when it
has just had a note head. -/
def Shared.noteEnvelope (g : Shared) (env trigger : Bool) : Shared :=
  { g with envAny := g.envAny || env, retrig := g.retrig || (env && trigger) }

/-- The trigger condition of COMMIT (45_chip_emission.md R340, R341). -/
def Shared.triggered (g : Shared) : Bool := g.envAny && (g.update || g.retrig)

/-- COMMIT clears the three tick flags (45_chip_emission.md R342). -/
def Shared.clearTick (g : Shared) : Shared := { g with envAny := false, update := false, retrig := false }

end Sys2Proof.Machine
end

