-- ==== Sys2Proof/Machine/Ops.lean ====
section
/-! DEFINITION. The named operations over tables, channels, the echo buffer, the period and the output port.

Taking an exception and returning from one have no operation here: the CE has neither (60_exceptions.md R379, R380). -/

namespace Sys2Proof.Machine

/-! ### Tables (20_memory.md R70 to R74, R79, R95) -/

/-- The entry `k` of a sparse table whose unlisted entries read as `launch`. -/
def tableGet {α : Type} (launch : Nat → α) : List (Nat × α) → Nat → α
  | [], k => launch k
  | (j, v) :: rest, k => if j = k then v else tableGet launch rest k

/-- Drop the entry `k`. -/
def tableErase {α : Type} (t : List (Nat × α)) (k : Nat) : List (Nat × α) := t.filter fun e => e.1 ≠ k

/-- Put an entry in its place by rising key, over the one that stands there. -/
def tableInsert {α : Type} : List (Nat × α) → Nat → α → List (Nat × α)
  | [], k, v => [(k, v)]
  | (j, w) :: rest, k, v =>
    if k < j then (k, v) :: (j, w) :: rest
    else if k = j then (k, v) :: rest
    else (j, w) :: tableInsert rest k v

/-- Write an entry and keep the canonical form: an entry equal to what it reads as unlisted is not listed. -/
def tablePut {α : Type} [DecidableEq α] (launch : Nat → α) (t : List (Nat × α)) (k : Nat) (v : α) : List (Nat × α) :=
  if v = launch k then tableErase t k else tableInsert t k v

/-- What an unlisted note-table entry reads as: launch data, any entry of 16 bits (20_memory.md R70,
70_reset_and_hazards.md R411, 93 U19; log 5). -/
def launchNote (n : Nat) : Word := Config.launchNote n

/-- What an unlisted instrument entry reads as (log 5). -/
def launchInst (i : Nat) : InstEntry := Config.launchInst i

/-- What an unlisted sequence reads as: launch data, any sequence whose item count lies in 0..SEQ_MAX, the width R73 gives
the count (20_memory.md R73, 70_reset_and_hazards.md R411, 93 U19; log 5, log 34). -/
def launchSeq (k : Kind) (s : Nat) : SeqData :=
  { Config.launchSeq k s with items := (Config.launchSeq k s).items.take cfg.seqMax }

/-- NoteTable(n) (20_memory.md R70). -/
def Memory.noteTable (m : Memory) (n : Byte) : Nat := (tableGet launchNote m.notes n.toNat).toNat

/-- InstRead(i) (20_memory.md R71). -/
def Memory.instRead (m : Memory) (i : Byte) : InstEntry := tableGet launchInst m.insts i.toNat

/-- SeqRead(k, s) with its items (20_memory.md R73). -/
def Memory.seqRead (m : Memory) (k : Kind) (s : BitVec 7) : SeqData := tableGet (launchSeq k) (m.seqs.get k) s.toNat

/-- SeqItem(k, s, p) of a sequence (20_memory.md R73); called with p below the count only (44_sequence_engine.md R294). -/
def seqItem (q : SeqData) (p : Nat) : Byte := q.items.getD p 0

/-- The host installs or changes a note-table entry (20_memory.md R79, R95; log 7). -/
def Memory.installNote (m : Memory) (n : Byte) (v : Word) : Memory :=
  { m with notes := tablePut launchNote m.notes n.toNat v }

/-- The host installs or changes an instrument entry (20_memory.md R79, R95; log 7). -/
def Memory.installInst (m : Memory) (i : BitVec 6) (e : InstEntry) : Memory :=
  { m with insts := tablePut launchInst m.insts i.toNat e }

/-- The host installs or changes a sequence (20_memory.md R79, R95; log 7). -/
def Memory.installSeq (m : Memory) (k : Kind) (s : BitVec 7) (q : SeqData) : Memory :=
  { m with seqs := m.seqs.set k (tablePut (launchSeq k) (m.seqs.get k) s.toNat q) }

/-- The canonical form of one table: keys strictly rising and below the bound, no entry equal to what it would
read as unlisted, every entry legal. -/
def tableWf {α : Type} [DecidableEq α] (launch : Nat → α) (bound : Nat) (legal : α → Bool) (t : List (Nat × α)) : Bool :=
  decide ((t.map Prod.fst).Pairwise (· < ·)) &&
    t.all fun e => decide (e.1 < bound) && !decide (e.2 = launch e.1) && legal e.2

/-- A legal note-table entry: a period 0..PERIOD_MAX (20_memory.md R70). -/
def legalNote (v : Word) : Bool := decide (v.toNat ≤ cfg.periodMax)

/-- A legal sequence: at most SEQ_MAX items (20_memory.md R73). -/
def legalSeq (q : SeqData) : Bool := decide (count q ≤ cfg.seqMax)

/-- The tables are in canonical form and every entry is legal (20_memory.md R70 to R73). -/
def Memory.wf (m : Memory) : Bool :=
  tableWf launchNote cfg.noteCount legalNote m.notes &&
  tableWf launchInst cfg.instCount (fun _ => true) m.insts &&
  Kind.all.all fun k => tableWf (launchSeq k) cfg.seqCount legalSeq (m.seqs.get k)

/-! ### Channels -/

/-- The channel a command addresses: none when `ch >= NCH` (30_encoding.md R100). -/
def chanOf (c : Chan) : Option (Fin 3) := if h : c.toNat < 3 then some ⟨c.toNat, h⟩ else none

/-- The channels in the order of TICK's loops (45_chip_emission.md R345). -/
def allChannels : List (Fin 3) := [0, 1, 2]

/-- Channel `i`. -/
def Channels.get (cs : Channels) (i : Fin 3) : Channel :=
  match i with
  | 0 => cs.c0
  | 1 => cs.c1
  | 2 => cs.c2

/-- Replace channel `i`. -/
def Channels.set (cs : Channels) (i : Fin 3) (ch : Channel) : Channels :=
  match i with
  | 0 => { cs with c0 := ch }
  | 1 => { cs with c1 := ch }
  | 2 => { cs with c2 := ch }

/-- What a command addressed to a channel reads and does not write: CFG and the tables (20_memory.md R91). -/
structure Env where
  cfgReg : CfgReg
  mem : Memory
  deriving DecidableEq, Repr

/-- What a command addressed to a channel may write beside `out`: that channel and the shared resource
(20_memory.md R91). -/
structure Cx where
  ch : Channel
  shr : Shared
  deriving DecidableEq, Repr

/-- The read-only side of a state. -/
def State.env (s : State) : Env := ⟨s.cfgReg, s.mem⟩

/-- Channel `i` with the shared resource. -/
def State.cx (s : State) (i : Fin 3) : Cx := ⟨s.chans.get i, s.shr⟩

/-- Put channel `i` and the shared resource back. -/
def State.putCx (s : State) (i : Fin 3) (x : Cx) : State := { s with chans := s.chans.set i x.ch, shr := x.shr }

/-- Run an operation on the channel a command addresses; with `ch >= NCH` nothing happens (30_encoding.md R100). -/
def State.onCx (s : State) (c : Chan) (f : Env → Cx → Cx) : State :=
  match chanOf c with
  | some i => s.putCx i (f s.env (s.cx i))
  | none => s

/-- The same for an operation that does not touch the shared resource. -/
def State.onCh (s : State) (c : Chan) (f : Env → Channel → Channel) : State :=
  s.onCx c fun e x => { x with ch := f e x.ch }

/-- RegWrite for a list of pairs, in order: appended to `out` (20_memory.md R76, R92). -/
def State.emit (s : State) (ws : List RegPair) : State := { s with out := s.out ++ ws }

/-! ### The echo buffer -/

/-- EchoPush(e) (10_state.md R45): the newest entry first, the oldest lost. -/
def Channel.echoPush (ch : Channel) (e : Echo) : Channel := { ch with echo := (e :: ch.echo).take cfg.echoLen }

/-! ### The period -/

/-- SetPeriod(v), the period limiter (43_period_volume.md R260). -/
def Channel.setPeriod (ch : Channel) (v : Int) : Channel := { ch with period := (clamp v 0 cfg.periodMax).toNat }

/-- TriggerNote(n) (40_row_commands.md R170): the table entry of the clamped note number. In linear pitch mode the
value is free within 0..PERIOD_MAX (43_period_volume.md R264; log 8, log 9). -/
def triggerNote (e : Env) (ch : Channel) (n : Int) : Nat :=
  if e.cfgReg.linearPitch then min (Config.linearNote ch.chIdx.toNat ch.free) cfg.periodMax
  else e.mem.noteTable (noteNumber n)

/-- The model's counter moves on when TriggerNote has given a free value (log 8). -/
def Channel.drawn (ch : Channel) (e : Env) : Channel :=
  if e.cfgReg.linearPitch then { ch with free := ch.free + 1 } else ch

/-- `SetPeriod(TriggerNote(n) + v)`; in linear pitch mode `v` is added to the free value (log 28). -/
def Channel.playPeriod (ch : Channel) (e : Env) (n : Int) (v : Int := 0) : Channel :=
  (ch.drawn e).setPeriod (triggerNote e ch n + v)

/-- `note <- clamp(n, 0, 255)` (44_sequence_engine.md R281, 10_state.md R21). -/
def Channel.setNote (ch : Channel) (n : Int) : Channel := { ch with note := noteNumber n }

/-- `porta_to <- p`, kept within 0..PERIOD_MAX as 10_state.md R36 gives the field and 60_exceptions.md R376 asks of
every command. A period in range is stored as it is; only a note-table entry nobody installed can be larger (DEDUCED,
log 31). -/
def Channel.setTarget (ch : Channel) (p : Nat) : Channel := { ch with portaTo := min p cfg.periodMax }

/-! ### The handler -/

/-- Write slot `k` of the channel's handler. -/
def Channel.setSlot (ch : Channel) (k : Kind) (sl : Slot) : Channel :=
  { ch with handler := ch.handler.map fun h => { h with slots := h.slots.set k sl } }

end Sys2Proof.Machine
end

