-- ==== Sys2Proof/Machine/Sequence.lean ====
section
/-! DEFINITION. The Sequence Engine (44_sequence_engine.md) and the meanings of the sequence-item rows (SQ). -/

namespace Sys2Proof.Machine

/-! ### ProcessSequence, one operation per item form (44_sequence_engine.md R300 to R309) -/

/-- Volume (R301): `inst_vol <- v`. -/
def seqVolume (item : Byte) (ch : Channel) : Channel := { ch with instVol := item }

/-- Arpeggio, Absolute (R302): `SetPeriod(TriggerNote(note + v))`. -/
def seqArpAbsolute (item : Byte) (e : Env) (ch : Channel) : Channel :=
  ch.playPeriod e (ch.note.toNat + itemValue item)

/-- Arpeggio, Relative (R303): the note moves, then the period follows it. -/
def seqArpRelative (item : Byte) (e : Env) (ch : Channel) : Channel :=
  let moved := ch.setNote (ch.note.toNat + itemValue item)
  moved.playPeriod e moved.note.toNat

/-- Arpeggio, Fixed (R304): `SetPeriod(TriggerNote(v))`. -/
def seqArpFixed (item : Byte) (e : Env) (ch : Channel) : Channel := ch.playPeriod e (itemValue item)

/-- Arpeggio, Scheme (R305): the limit is a note offset. -/
def seqArpOffset (lim : Int) (e : Env) (ch : Channel) : Channel := ch.playPeriod e (ch.note.toNat + lim)

/-- Scheme 0 (R305): the limit as it is. -/
def seqArpScheme0 (limit : BitVec 6) (e : Env) (ch : Channel) : Channel := seqArpOffset (schemeLimit limit) e ch

/-- Scheme 1 (R305): the high nibble of `arp_param` is added. -/
def seqArpScheme1 (limit : BitVec 6) (e : Env) (ch : Channel) : Channel :=
  seqArpOffset (schemeLimit limit + (hi ch.arpParam).toNat) e ch

/-- Scheme 2 (R305): the low nibble of `arp_param` is added. -/
def seqArpScheme2 (limit : BitVec 6) (e : Env) (ch : Channel) : Channel :=
  seqArpOffset (schemeLimit limit + (lo ch.arpParam).toNat) e ch

/-- Scheme 3 (R305): the low nibble of `arp_param` is subtracted. -/
def seqArpScheme3 (limit : BitVec 6) (e : Env) (ch : Channel) : Channel :=
  seqArpOffset (schemeLimit limit - (lo ch.arpParam).toNat) e ch

/-- Pitch, Relative (R306): `SetPeriod(period + v)`, in linear pitch mode too (log 28). -/
def seqPitchRelative (item : Byte) (ch : Channel) : Channel := ch.setPeriod (ch.period + itemValue item)

/-- Pitch, Absolute (R307): `SetPeriod(TriggerNote(note) + v)`, in linear pitch mode on the free value (log 28). -/
def seqPitchAbsolute (item : Byte) (e : Env) (ch : Channel) : Channel :=
  ch.playPeriod e ch.note.toNat (itemValue item)

/-- Hi-pitch (R308): `SetPeriod(period + v * 16)`, in linear pitch mode too (log 28). -/
def seqHipitch (item : Byte) (ch : Channel) : Channel := ch.setPeriod (ch.period + hipitchValue item)

/-- Duty (R309): `duty <- item[7:0]`. -/
def seqDuty (item : Byte) (ch : Channel) : Channel := { ch with duty := item }

/-- The arpeggio item under each setting (R302 to R305, 20_memory.md R75). -/
def processArpeggio (setting : BitVec 2) (item : Byte) (e : Env) (ch : Channel) : Channel :=
  match setting.toNat with
  | 0 => seqArpAbsolute item e ch
  | 1 => seqArpFixed item e ch
  | 2 => seqArpRelative item e ch
  | _ =>
    match (item.extractLsb' 6 2).toNat with
    | 0 => seqArpScheme0 (item.extractLsb' 0 6) e ch
    | 1 => seqArpScheme1 (item.extractLsb' 0 6) e ch
    | 2 => seqArpScheme2 (item.extractLsb' 0 6) e ch
    | _ => seqArpScheme3 (item.extractLsb' 0 6) e ch

/-- ProcessSequence(k, setting, item) (R300): the channel after the item, and `applied`. A reserved pitch setting
applies nothing (30_encoding.md R124). -/
def processSequence (k : Kind) (setting : BitVec 2) (item : Byte) (e : Env) (ch : Channel) : Channel × Bool :=
  match k with
  | .volume => (seqVolume item ch, true)
  | .arpeggio => (processArpeggio setting item e ch, true)
  | .pitch =>
    match setting.toNat with
    | 0 => (seqPitchRelative item ch, true)
    | 1 => (seqPitchAbsolute item e ch, true)
    | _ => (ch, false)
  | .hipitch => (seqHipitch item ch, true)
  | .duty => (seqDuty item ch, true)

/-! ### Load, trigger, release (44_sequence_engine.md R288 to R291) -/

/-- An operation on every slot of a handler. -/
def Handler.mapSlots (h : Handler) (f : Kind → Slot → Slot) : Handler :=
  { h with slots := ⟨f .volume h.slots.volume, f .arpeggio h.slots.arpeggio, f .pitch h.slots.pitch,
                     f .hipitch h.slots.hipitch, f .duty h.slots.duty⟩ }

/-- LoadInstrument on the slot of kind `k` (R288). -/
def loadSlot (m : Memory) (en : InstEntry) (k : Kind) (sl : Slot) : Slot :=
  let s := en.seq.get k
  if en.en.get k = false then Slot.off
  else if s.toNat ≥ cfg.seqCount ∨ count (m.seqRead k s) = 0 then Slot.off
  else if sl.bound ≠ some s ∨ sl.st = .disabled then ⟨some s, .running, 0⟩
  else sl

/-- LoadInstrument(e) (R288). -/
def loadInstrument (m : Memory) (en : InstEntry) (h : Handler) : Handler := h.mapSlots (loadSlot m en)

/-- TriggerInstrument on the slot of kind `k` (R289). -/
def triggerSlot (m : Memory) (k : Kind) (sl : Slot) : Slot :=
  match sl.bound with
  | none => sl
  | some s => if count (m.seqRead k s) = 0 then { sl with st := .disabled } else { sl with pos := 0, st := .running }

/-- TriggerInstrument() (R289). -/
def triggerInstrument (m : Memory) (ch : Channel) : Channel :=
  { ch with
    handler := ch.handler.map fun h => { h.mapSlots (triggerSlot m) with noteOff := 0, pitchOff := 0 }
    duty := ch.defDuty
    instVol := if ch.gate then cfg.instDefVol else ch.instVol }

/-- ReleaseInstrument on the slot of kind `k` (R291). -/
def releaseSlot (m : Memory) (k : Kind) (sl : Slot) : Slot :=
  match sl.bound with
  | none => sl
  | some s =>
    if sl.st = .disabled then sl
    else
      match releasePoint (m.seqRead k s) with
      | some r => { sl with pos := r, st := .running }
      | none => sl

/-- ReleaseInstrument() (R291): nothing on a channel that is already releasing. -/
def releaseInstrument (m : Memory) (ch : Channel) : Channel :=
  if ch.release then ch else { ch with handler := ch.handler.map fun h => h.mapSlots (releaseSlot m) }

/-! ### Step (44_sequence_engine.md R311) -/

/-- Branch (a) of Step: where it jumps, if it applies (R311 (a)). -/
def stepLoopBeforeRelease (q : SeqData) (releasing : Bool) : Option Nat :=
  match loopPoint q, releasePoint q with
  | some l, some r => if l < r ∧ releasing = false then some l else none
  | _, _ => none

/-- Branch (b) of Step: where the end of the sequence jumps, if it does (R311 (b)). -/
def stepLoopAtEnd (q : SeqData) : Option Nat :=
  match loopPoint q, releasePoint q with
  | some l, none => some l
  | some l, some r => if r ≤ l then some l else none
  | none, _ => none

/-- Step(k) on a slot bound to the sequence `q` (R311). A sequence that ends leaves the cursor at its item count, one
past the range of 10_state.md R49 when the count is SEQ_MAX (log 27). -/
def stepSlot (q : SeqData) (releasing : Bool) (sl : Slot) : Slot :=
  let p := sl.pos + 1
  if releasePoint q = some sl.pos ∨ count q ≤ p then
    match stepLoopBeforeRelease q releasing with
    | some l => { sl with pos := l }
    | none =>
      if count q ≤ p then
        match stepLoopAtEnd q with
        | some l => { sl with pos := l }
        | none => { sl with pos := p, st := .ended }
      else if releasing = false then { sl with pos := p - 1 }
      else { sl with pos := p }
  else { sl with pos := p }

/-! ### The per-tick update (44_sequence_engine.md R294, R295) -/

/-- Finalize(k) (R295): a Fixed arpeggio settles on the plain note. -/
def finalize (k : Kind) (setting : BitVec 2) (e : Env) (ch : Channel) : Channel :=
  if k = .arpeggio ∧ setting = 1 then ch.playPeriod e ch.note.toNat else ch

/-- One slot's turn in UpdateInstrument (R294). A running slot whose sequence has become empty is passed over and stays
running, as R294's pseudocode and 10_state.md R53 have it; 70_reset_and_hazards.md R421 says that a cursor at or past the
new item count ends the sequence (DEDUCED, log 32). -/
def updateSlot (e : Env) (ch : Channel) (k : Kind) : Channel :=
  match ch.handler with
  | none => ch
  | some h =>
    let sl := h.slots.get k
    match sl.st, sl.bound with
    | .running, some s =>
      let q := e.mem.seqRead k s
      if count q = 0 then ch
      else if count q ≤ sl.pos then ch.setSlot k { sl with st := .ended }
      else
        let after := (processSequence k q.setting (seqItem q sl.pos) e ch).1
        after.setSlot k (stepSlot q after.release sl)
    | .running, none => ch
    | .ended, some s => (finalize k (e.mem.seqRead k s).setting e ch).setSlot k { sl with st := .halted }
    | .ended, none => ch.setSlot k { sl with st := .halted }
    | .disabled, _ => ch
    | .halted, _ => ch

/-- UpdateInstrument() (R294): nothing while the channel does not sound; else the slots in their order. -/
def updateInstrument (e : Env) (ch : Channel) : Channel :=
  if ch.gate then Kind.all.foldl (updateSlot e) ch else ch

/-! ### The meanings of the SQ rows -/

/-- SQ_VOLUME (R301). -/
def execSqVolume (c : Chan) (item : Byte) (s : State) : Host.Outcome State Fault Refusal :=
  .next (s.onCh c fun _ ch => seqVolume item ch)

/-- SQ_ARP_ABSOLUTE (R302). -/
def execSqArpAbsolute (c : Chan) (item : Byte) (s : State) : Host.Outcome State Fault Refusal :=
  .next (s.onCh c (seqArpAbsolute item))

/-- SQ_ARP_FIXED (R304). -/
def execSqArpFixed (c : Chan) (item : Byte) (s : State) : Host.Outcome State Fault Refusal :=
  .next (s.onCh c (seqArpFixed item))

/-- SQ_ARP_RELATIVE (R303). -/
def execSqArpRelative (c : Chan) (item : Byte) (s : State) : Host.Outcome State Fault Refusal :=
  .next (s.onCh c (seqArpRelative item))

/-- SQ_ARP_SCHEME0 (R305). -/
def execSqArpScheme0 (c : Chan) (limit : BitVec 6) (s : State) : Host.Outcome State Fault Refusal :=
  .next (s.onCh c (seqArpScheme0 limit))

/-- SQ_ARP_SCHEME1 (R305). -/
def execSqArpScheme1 (c : Chan) (limit : BitVec 6) (s : State) : Host.Outcome State Fault Refusal :=
  .next (s.onCh c (seqArpScheme1 limit))

/-- SQ_ARP_SCHEME2 (R305). -/
def execSqArpScheme2 (c : Chan) (limit : BitVec 6) (s : State) : Host.Outcome State Fault Refusal :=
  .next (s.onCh c (seqArpScheme2 limit))

/-- SQ_ARP_SCHEME3 (R305). -/
def execSqArpScheme3 (c : Chan) (limit : BitVec 6) (s : State) : Host.Outcome State Fault Refusal :=
  .next (s.onCh c (seqArpScheme3 limit))

/-- SQ_PITCH_RELATIVE (R306). -/
def execSqPitchRelative (c : Chan) (item : Byte) (s : State) : Host.Outcome State Fault Refusal :=
  .next (s.onCh c fun _ ch => seqPitchRelative item ch)

/-- SQ_PITCH_ABSOLUTE (R307). -/
def execSqPitchAbsolute (c : Chan) (item : Byte) (s : State) : Host.Outcome State Fault Refusal :=
  .next (s.onCh c (seqPitchAbsolute item))

/-- SQ_PITCH_RESERVED (30_encoding.md R124): the item applies nothing. -/
def execSqPitchReserved (c : Chan) (_item : Byte) (s : State) : Host.Outcome State Fault Refusal :=
  .next (s.onCh c fun _ ch => ch)

/-- SQ_HIPITCH (R308). -/
def execSqHipitch (c : Chan) (item : Byte) (s : State) : Host.Outcome State Fault Refusal :=
  .next (s.onCh c fun _ ch => seqHipitch item ch)

/-- SQ_DUTY (R309). -/
def execSqDuty (c : Chan) (item : Byte) (s : State) : Host.Outcome State Fault Refusal :=
  .next (s.onCh c fun _ ch => seqDuty item ch)

end Sys2Proof.Machine
end

