-- ==== Sys2Proof/Machine/Effects.lean ====
section
/-! DEFINITION. Effect decoding (41_effects.md) and the meanings of the effect rows (FX), but for FX_DELAY, which
PlayNote decodes (Machine/Notes.lean). -/

namespace Sys2Proof.Machine

/-! ### The continuous-effect slot (41_effects.md R202 to R206) -/

/-- SetEffect(kind, p) (R203): the arpeggio phase survives only from arpeggio to arpeggio. -/
def setEffect (kind : Eff) (p : Byte) (ch : Channel) : Channel :=
  { ch with
    arpPhase := if kind ≠ .arpeggio ∨ ch.eff ≠ .arpeggio then 0 else ch.arpPhase
    eff := kind
    effParam := p }

/-- ExitEffect() (R203): leaving an arpeggio settles the period on the plain note. -/
def exitEffect (e : Env) (ch : Channel) : Channel :=
  let settled := if ch.eff = .arpeggio then ch.playPeriod e ch.note.toNat else ch
  { settled with arpPhase := 0, eff := .none, effParam := 0, portaSpeed := 0, portaTo := 0 }

/-- `porta_to <- TriggerNote(note)` (R206; log 31 for an entry above PERIOD_MAX). -/
def aimAtNote (e : Env) (ch : Channel) : Channel :=
  (ch.drawn e).setTarget (triggerNote e ch ch.note.toNat)

/-- SetupSlide() (R206). -/
def setupSlide (e : Env) (ch : Channel) : Channel :=
  match ch.eff with
  | .portamento => aimAtNote e { ch with portaSpeed := ch.effParam }
  | .slideUp =>
    aimAtNote e { ch.setNote (ch.note.toNat + (lo ch.effParam).toNat) with portaSpeed := slideSpeed ch.effParam }
  | .slideDown =>
    aimAtNote e { ch.setNote (ch.note.toNat - (lo ch.effParam).toNat) with portaSpeed := slideSpeed ch.effParam }
  | .none => ch
  | .arpeggio => ch
  | .portaUp => ch
  | .portaDown => ch

/-- A command of one of the six slot kinds (R202): parameter 0 exits, any other enters with what the kind adds. -/
def slotCommand (kind : Eff) (p : Byte) (e : Env) (enter : Channel → Channel) (ch : Channel) : Channel :=
  if p = 0 then exitEffect e ch else enter (setEffect kind p ch)

/-! ### The universal kinds (41_effects.md R193 to R212) -/

/-- FX_PORTAMENTO (R193). -/
def fxPortamento (p : Byte) (e : Env) (ch : Channel) : Channel := slotCommand .portamento p e (setupSlide e) ch

/-- FX_VIBRATO (R194). -/
def fxVibrato (p : Byte) (ch : Channel) : Channel :=
  { ch with vibSpeed := hi p, vibDepth := lo p, vibPhase := if p = 0 then 0 else ch.vibPhase }

/-- FX_TREMOLO (R195). -/
def fxTremolo (p : Byte) (ch : Channel) : Channel :=
  { ch with tremSpeed := hi p, tremDepth := lo p, tremPhase := if p = 0 then 0 else ch.tremPhase }

/-- FX_ARPEGGIO (R196): `arp_param` is written even when the parameter is 0. -/
def fxArpeggio (p : Byte) (e : Env) (ch : Channel) : Channel :=
  slotCommand .arpeggio p e id { ch with arpParam := p }

/-- FX_FINE_PITCH (R197). -/
def fxFinePitch (p : Byte) (ch : Channel) : Channel := { ch with finePitch := p }

/-- FX_PORTA_UP (R198). -/
def fxPortaUp (p : Byte) (e : Env) (ch : Channel) : Channel :=
  slotCommand .portaUp p e (fun x => { x with portaSpeed := p }) ch

/-- FX_PORTA_DOWN (R199). -/
def fxPortaDown (p : Byte) (e : Env) (ch : Channel) : Channel :=
  slotCommand .portaDown p e (fun x => { x with portaSpeed := p }) ch

/-- FX_SLIDE_UP (R200). -/
def fxSlideUp (p : Byte) (e : Env) (ch : Channel) : Channel := slotCommand .slideUp p e (setupSlide e) ch

/-- FX_SLIDE_DOWN (R201). -/
def fxSlideDown (p : Byte) (e : Env) (ch : Channel) : Channel := slotCommand .slideDown p e (setupSlide e) ch

/-- FX_VOL_SLIDE (R207): parameter 0 makes the volume reached the default. -/
def fxVolSlide (p : Byte) (ch : Channel) : Channel :=
  { ch with volSlide := p, defVol := if p = 0 then ch.vol else ch.defVol }

/-- FX_NOTE_CUT (R208) with a parameter below the limit. -/
def fxNoteCut (p : Byte) (ch : Channel) : Channel := { ch with cutTimer := p + 1 }

/-- FX_NOTE_RELEASE (R209) with a parameter below the limit. -/
def fxNoteRelease (p : Byte) (ch : Channel) : Channel := { ch with relTimer := p + 1 }

/-- The parameters R208 and R209 reject (30_encoding.md R123): 0x80 and above. -/
def timerParamRejected (p : Byte) : Bool := decide (cfg.timerParamLimit ≤ p.toNat)

/-- FX_DELAYED_VOL (R210). -/
def fxDelayedVol (p : Byte) (ch : Channel) : Channel :=
  { ch with voldTimer := delayedVolumeTicks p, newVol := internalVolume (lo p) }

/-- FX_TRANSPOSE (R211). -/
def fxTranspose (p : Byte) (ch : Channel) : Channel :=
  { ch with transTimer := transposeTicks p, transAmount := lo p, transDown := transposeDown p }

/-- FX_DUTY (R212). -/
def fxDuty (p : Byte) (ch : Channel) : Channel := { ch with duty := p, defDuty := p }

/-! ### The chip-specific kinds (41_effects.md R215 to R219) -/

/-- FX_ENV_LO (R216). -/
def fxEnvLo (p : Byte) (g : Shared) : Shared := { g with envPeriod := (g.envPeriod.extractLsb' 8 8 : Byte) ++ p }

/-- FX_ENV_HI (R217). -/
def fxEnvHi (p : Byte) (g : Shared) : Shared := { g with envPeriod := p ++ (g.envPeriod.extractLsb' 0 8 : Byte) }

/-- FX_ENV_SHAPE (R218). -/
def fxEnvShape (p : Byte) (g : Shared) : Shared := { g with envShape := p.extractLsb' 0 4, update := true }

/-- FX_NOISE (R219). -/
def fxNoise (p : Byte) (g : Shared) : Shared := { g with noisePeriod := p.extractLsb' 0 5 }

/-! ### HandleEffect (41_effects.md R190) -/

/-- ChipEffect(kind, p) (R215): none is "not handled". -/
def chipEffect (f : Fx) (g : Shared) : Option Shared :=
  match f.kind.toNat with
  | 0x80 => some (fxEnvLo f.param g)
  | 0x81 => some (fxEnvHi f.param g)
  | 0x82 => some (fxEnvShape f.param g)
  | 0x83 => some (fxNoise f.param g)
  | _ => none

/-- BaseEffect(kind, p) (R190 to R212): none is "not handled", and changes nothing (R191, R192). -/
def baseEffect (f : Fx) (e : Env) (ch : Channel) : Option Channel :=
  match f.kind.toNat with
  | 0x01 => some (fxPortamento f.param e ch)
  | 0x02 => some (fxVibrato f.param ch)
  | 0x03 => some (fxTremolo f.param ch)
  | 0x04 => some (fxArpeggio f.param e ch)
  | 0x05 => some (fxFinePitch f.param ch)
  | 0x06 => some (fxPortaUp f.param e ch)
  | 0x07 => some (fxPortaDown f.param e ch)
  | 0x08 => some (fxSlideUp f.param e ch)
  | 0x09 => some (fxSlideDown f.param e ch)
  | 0x0A => some (fxVolSlide f.param ch)
  | 0x0B => if timerParamRejected f.param then none else some (fxNoteCut f.param ch)
  | 0x0C => if timerParamRejected f.param then none else some (fxNoteRelease f.param ch)
  | 0x0D => some (fxDelayedVol f.param ch)
  | 0x0E => some (fxTranspose f.param ch)
  | 0x0F => some (fxDuty f.param ch)
  | _ => none

/-- HandleEffect(fx) (R190): the chip's table first, then the base table; the flag is "handled". -/
def handleEffect (e : Env) (x : Cx) (f : Fx) : Cx × Bool :=
  match chipEffect f x.shr with
  | some g => ({ x with shr := g }, true)
  | none =>
    match baseEffect f e x.ch with
    | some ch => ({ x with ch := ch }, true)
    | none => (x, false)

/-! ### The meanings of the FX rows -/

/-- An operation on the shared resource for a channel of the chip. -/
def State.onShr (s : State) (c : Chan) (f : Shared → Shared) : State :=
  s.onCx c fun _ x => { x with shr := f x.shr }

/-- FX_NONE (R192): the empty column changes nothing. -/
def execFxNone (c : Chan) (_p : Byte) (s : State) : Host.Outcome State Fault Refusal := .next (s.onCh c fun _ ch => ch)

/-- FX_PORTAMENTO (R193). -/
def execFxPortamento (c : Chan) (p : Byte) (s : State) : Host.Outcome State Fault Refusal :=
  .next (s.onCh c (fxPortamento p))

/-- FX_VIBRATO (R194). -/
def execFxVibrato (c : Chan) (p : Byte) (s : State) : Host.Outcome State Fault Refusal :=
  .next (s.onCh c fun _ ch => fxVibrato p ch)

/-- FX_TREMOLO (R195). -/
def execFxTremolo (c : Chan) (p : Byte) (s : State) : Host.Outcome State Fault Refusal :=
  .next (s.onCh c fun _ ch => fxTremolo p ch)

/-- FX_ARPEGGIO (R196). -/
def execFxArpeggio (c : Chan) (p : Byte) (s : State) : Host.Outcome State Fault Refusal :=
  .next (s.onCh c (fxArpeggio p))

/-- FX_FINE_PITCH (R197). -/
def execFxFinePitch (c : Chan) (p : Byte) (s : State) : Host.Outcome State Fault Refusal :=
  .next (s.onCh c fun _ ch => fxFinePitch p ch)

/-- FX_PORTA_UP (R198). -/
def execFxPortaUp (c : Chan) (p : Byte) (s : State) : Host.Outcome State Fault Refusal :=
  .next (s.onCh c (fxPortaUp p))

/-- FX_PORTA_DOWN (R199). -/
def execFxPortaDown (c : Chan) (p : Byte) (s : State) : Host.Outcome State Fault Refusal :=
  .next (s.onCh c (fxPortaDown p))

/-- FX_SLIDE_UP (R200). -/
def execFxSlideUp (c : Chan) (p : Byte) (s : State) : Host.Outcome State Fault Refusal :=
  .next (s.onCh c (fxSlideUp p))

/-- FX_SLIDE_DOWN (R201). -/
def execFxSlideDown (c : Chan) (p : Byte) (s : State) : Host.Outcome State Fault Refusal :=
  .next (s.onCh c (fxSlideDown p))

/-- FX_VOL_SLIDE (R207). -/
def execFxVolSlide (c : Chan) (p : Byte) (s : State) : Host.Outcome State Fault Refusal :=
  .next (s.onCh c fun _ ch => fxVolSlide p ch)

/-- FX_NOTE_CUT (R208): a parameter of 0x80 or above is rejected. -/
def execFxNoteCut (c : Chan) (p : Byte) (s : State) : Host.Outcome State Fault Refusal :=
  .next (s.onCh c fun _ ch => if timerParamRejected p then ch else fxNoteCut p ch)

/-- FX_NOTE_RELEASE (R209): a parameter of 0x80 or above is rejected. -/
def execFxNoteRelease (c : Chan) (p : Byte) (s : State) : Host.Outcome State Fault Refusal :=
  .next (s.onCh c fun _ ch => if timerParamRejected p then ch else fxNoteRelease p ch)

/-- FX_DELAYED_VOL (R210). -/
def execFxDelayedVol (c : Chan) (p : Byte) (s : State) : Host.Outcome State Fault Refusal :=
  .next (s.onCh c fun _ ch => fxDelayedVol p ch)

/-- FX_TRANSPOSE (R211). -/
def execFxTranspose (c : Chan) (p : Byte) (s : State) : Host.Outcome State Fault Refusal :=
  .next (s.onCh c fun _ ch => fxTranspose p ch)

/-- FX_DUTY (R212). -/
def execFxDuty (c : Chan) (p : Byte) (s : State) : Host.Outcome State Fault Refusal :=
  .next (s.onCh c fun _ ch => fxDuty p ch)

/-- FX_ENV_LO (R216). -/
def execFxEnvLo (c : Chan) (p : Byte) (s : State) : Host.Outcome State Fault Refusal := .next (s.onShr c (fxEnvLo p))

/-- FX_ENV_HI (R217). -/
def execFxEnvHi (c : Chan) (p : Byte) (s : State) : Host.Outcome State Fault Refusal := .next (s.onShr c (fxEnvHi p))

/-- FX_ENV_SHAPE (R218). -/
def execFxEnvShape (c : Chan) (p : Byte) (s : State) : Host.Outcome State Fault Refusal :=
  .next (s.onShr c (fxEnvShape p))

/-- FX_NOISE (R219). -/
def execFxNoise (c : Chan) (p : Byte) (s : State) : Host.Outcome State Fault Refusal := .next (s.onShr c (fxNoise p))

/-- FX_UNKNOWN (R191): not handled, changes nothing. -/
def execFxUnknown (c : Chan) (_kind _p : Byte) (s : State) : Host.Outcome State Fault Refusal :=
  .next (s.onCh c fun _ ch => ch)

end Sys2Proof.Machine
end

