-- ==== Sys2Proof/Machine/Notes.lean ====
section
/-! DEFINITION. Rows and note handling (40_row_commands.md R143 to R170), and the meanings of the note words (NE.W0),
the instrument word (NE.W1) and FX_DELAY. -/

namespace Sys2Proof.Machine

/-- The semantic class of a resolved note (30_encoding.md R105, R107), with the note number of a Pitch. -/
inductive NoteClass where
  | none
  | halt
  | release
  | pitch (num : Nat)
  deriving DecidableEq, Repr

/-- Whether the class is a note head (40_row_commands.md R156). -/
def NoteClass.isHead : NoteClass → Bool
  | .pitch _ => true
  | .none => false
  | .halt => false
  | .release => false

/-- EchoSubstitute (R150): the class of an event; an echo index beyond the buffer, or an empty slot, is no note. -/
def echoSubstitute (ev : NoteEvent) (ch : Channel) : NoteClass :=
  match ev.note.toNat with
  | 0 => .none
  | 13 => .halt
  | 14 => .release
  | 15 =>
    if cfg.echoLen ≤ ev.oct.toNat then .none
    else
      match ch.echo.getD ev.oct.toNat .empty with
      | .empty => .none
      | .halt => .halt
      | .note n => .pitch n.toNat
  | k => .pitch (ev.oct.toNat * 12 + (k - 1))

/-- EchoUpdate (R151): Pitch and Halt events push. -/
def echoUpdate (cls : NoteClass) (ch : Channel) : Channel :=
  match cls with
  | .pitch num => ch.echoPush (.note (noteNumber num))
  | .halt => ch.echoPush .halt
  | .none => ch
  | .release => ch

/-- ClearOneShots at a note head (R152). -/
def clearOneShots (cls : NoteClass) (ch : Channel) : Channel :=
  if cls.isHead then { ch with cutTimer := 0, relTimer := 0, transTimer := 0 } else ch

/-- Effect decoding of a row: every column in order, the results discarded (R153). -/
def handleColumns (e : Env) (x : Cx) (columns : List Fx) : Cx :=
  columns.foldl (fun x f => (handleEffect e x f).1) x

/-- ApplyVolumeColumn (R154); codes above 15 are no volume (30_encoding.md R125). -/
def applyVolumeColumn (volc : BitVec 5) (ch : Channel) : Channel :=
  if volc.toNat ≤ 15 then
    { ch with vol := internalVolume (volc.setWidth 4), defVol := internalVolume (volc.setWidth 4) }
  else ch

/-- ResolveInstrument (R155): the instrument index, and whether it must be reloaded. -/
def resolveInstrument (cls : NoteClass) (inst : Byte) (ch : Channel) : Byte × Bool :=
  let asked : Byte := if cls = .halt ∨ cls = .release then 0xFF else inst
  let i := if asked = 0xFE ∨ asked = 0xFF then ch.inst else asked
  (i, decide (i ≠ ch.inst) || ch.forceReload)

/-- CutNote (R161). -/
def cutNote (ch : Channel) : Channel := { ch.cutFlags with period := 0, portaTo := 0 }

/-- ReleaseNote (R162). -/
def releaseNote (m : Memory) (ch : Channel) : Channel :=
  let released := if ch.handler.isSome then releaseInstrument m ch else ch
  { released with release := true }

/-- The period of a note head (R163): under an armed portamento on a sounding channel the new note is the target,
else it is the period at once. 41_effects.md R193 and R164 say without a condition that the head replaces the target of a
portamento, R163's pseudocode does so with `gate` = 1 only: R163 is followed, log 29.
A target above PERIOD_MAX: log 31. -/
def headPeriod (e : Env) (ch : Channel) : Channel :=
  let p := triggerNote e ch ch.note.toNat
  let ch := ch.drawn e
  if ch.eff = .portamento ∧ ch.portaSpeed ≠ 0 ∧ ch.gate = true then
    let started := if ch.period = 0 then ch.setPeriod p else ch
    started.setTarget p
  else ch.setPeriod p

/-- Sticky volume at a note head (R167). -/
def stickyVolume (ch : Channel) : Channel := if ch.volSlide = 0 then { ch with vol := ch.defVol } else ch

/-- RunNote (R163). -/
def runNote (num : Nat) (e : Env) (ch : Channel) : Channel :=
  stickyVolume (headPeriod e (ch.setNote num)).headFlags

/-- Dispatch on the class (R157). -/
def dispatchNote (cls : NoteClass) (e : Env) (ch : Channel) : Channel :=
  match cls with
  | .none => ch
  | .halt => cutNote ch
  | .release => releaseNote e.mem ch
  | .pitch num => runNote num e ch

/-- The slide target on trigger (R164). -/
def retargetSlide (cls : NoteClass) (e : Env) (ch : Channel) : Channel :=
  if cls.isHead = true ∧ (ch.eff = .slideUp ∨ ch.eff = .slideDown) then setupSlide e ch else ch

/-- A new handler (70_reset_and_hazards.md R403). -/
def newHandler (type : InstType) : Handler := ⟨type, .const Slot.off, 0, 0⟩

/-- The handler an entry of this type is loaded into: kept when its type matches, else replaced wholesale (R166). -/
def handlerFor (type : InstType) (old : Option Handler) : Handler :=
  match old with
  | some h => if h.type = type then h else newHandler type
  | none => newHandler type

/-- LoadOrRetrigger with a loadable entry (R166). -/
def loadEntry (m : Memory) (i : Byte) (en : InstEntry) (reload head : Bool) (ch : Channel) : Channel :=
  let loaded :=
    if reload ∨ ch.handler = none then
      { ch with
        handler := some (loadInstrument m en (handlerFor en.type ch.handler))
        inst := i
        instType := en.type
        forceReload := false }
    else ch
  if head then triggerInstrument m loaded else loaded

/-- LoadOrRetrigger(I, reload, head) (R165, R166): a missing or incompatible instrument is skipped. R165 reads the entry
at every call, so a note head on an instrument whose entry the host rewrote to T_NONE or T_SAMPLE does not trigger;
70_reset_and_hazards.md R421 says that such a change is seen at the next load only (DEDUCED, log 33). -/
def loadOrRetrigger (m : Memory) (i : Byte) (reload head : Bool) (ch : Channel) : Channel :=
  if i = 0xFF then ch
  else if cfg.instCount ≤ i.toNat then ch
  else
    let en := m.instRead i
    if en.type = .none ∨ en.type = .sample then ch else loadEntry m i en reload head ch

/-- The steps of HandleNoteData after the volume column (R148): resolve, dispatch, retarget, load or retrigger. With
`force_reload` = 1 the row that carries nothing still reloads the current instrument and clears the flag, as R155, R166,
R182 and vector N9 say; 30_encoding.md R108 says without a condition that the empty event changes nothing (DEDUCED,
log 30). -/
def finishRow (cls : NoteClass) (inst : Byte) (e : Env) (ch : Channel) : Channel :=
  let r := resolveInstrument cls inst ch
  let played := retargetSlide cls e (dispatchNote cls e ch)
  if cls.isHead || r.2 then loadOrRetrigger e.mem r.1 r.2 cls.isHead played else played

/-- HandleNoteData(ev) (R148). -/
def handleNoteData (e : Env) (ev : NoteEvent) (x : Cx) : Cx :=
  let cls := echoSubstitute ev x.ch
  let opened := clearOneShots cls (echoUpdate cls x.ch)
  let decoded := handleColumns e { x with ch := opened } ev.fx
  { decoded with ch := finishRow cls ev.inst e (applyVolumeColumn ev.volc decoded.ch) }

/-! ### PlayNote and the note delay (R143, R144) -/

/-- An FX_DELAY column (30_encoding.md R110). -/
def delayColumn (f : Fx) : Bool := decide (f.kind = 0x10)

/-- An FX_DELAY column with a non-zero parameter: the one that delays (R144). -/
def delaysRow (f : Fx) : Bool := delayColumn f && decide (f.param ≠ 0)

/-- The buffered copy of a row: every FX_DELAY column replaced by 0x0000 (R143). -/
def stripDelays (ev : NoteEvent) : NoteEvent := { ev with fx := ev.fx.map fun f => if delayColumn f then ⟨0, 0⟩ else f }

/-- The flush of a row still buffered (R143, R146). -/
def flushDelayed (e : Env) (x : Cx) : Cx :=
  if x.ch.delayPending then handleNoteData e x.ch.delayEvent { x with ch := { x.ch with delayPending := false } } else x

/-- Buffer a row for `n` ticks (R143). -/
def bufferRow (ev : NoteEvent) (n : Byte) (x : Cx) : Cx :=
  { x with ch := { x.ch with delayPending := true, delayTimer := n, delayEvent := stripDelays ev } }

/-- PlayNote(ev) (R143). -/
def playNote (e : Env) (ev : NoteEvent) (x : Cx) : Cx :=
  let flushed := flushDelayed e x
  match ev.fx.find? delaysRow with
  | some f => bufferRow ev f.param flushed
  | none => handleNoteData e ev flushed

/-! ### The meanings of the NE rows and of FX_DELAY (log 3) -/

/-- The row that carries one note word and nothing else (30_encoding.md R104, R108). -/
def noteRow (note : BitVec 4) (oct : BitVec 3) (volc : BitVec 5) : NoteEvent :=
  { NoteEvent.empty with note := note, oct := oct, volc := volc }

/-- The row that carries one instrument word and nothing else. -/
def instRow (inst : Byte) : NoteEvent := { NoteEvent.empty with inst := inst }

/-- The row that carries one effect word, in the first column, and nothing else. -/
def effectRow (f : Fx) : NoteEvent := { NoteEvent.empty with fx := f :: List.replicate (cfg.fxCols - 1) ⟨0, 0⟩ }

/-- HandleNoteData of a row with one note word. -/
def playNoteWord (note : BitVec 4) (c : Chan) (oct : BitVec 3) (volc : BitVec 5) (s : State) :
    Host.Outcome State Fault Refusal :=
  .next (s.onCx c fun e x => handleNoteData e (noteRow note oct volc) x)

/-- N_NONE (R158). -/
def execNNone (c : Chan) (oct : BitVec 3) (volc : BitVec 5) (s : State) : Host.Outcome State Fault Refusal :=
  playNoteWord 0 c oct volc s

/-- N_C (R163). -/
def execNC (c : Chan) (oct : BitVec 3) (volc : BitVec 5) (s : State) : Host.Outcome State Fault Refusal :=
  playNoteWord 1 c oct volc s

/-- N_Cs (R163). -/
def execNCs (c : Chan) (oct : BitVec 3) (volc : BitVec 5) (s : State) : Host.Outcome State Fault Refusal :=
  playNoteWord 2 c oct volc s

/-- N_D (R163). -/
def execND (c : Chan) (oct : BitVec 3) (volc : BitVec 5) (s : State) : Host.Outcome State Fault Refusal :=
  playNoteWord 3 c oct volc s

/-- N_Ds (R163). -/
def execNDs (c : Chan) (oct : BitVec 3) (volc : BitVec 5) (s : State) : Host.Outcome State Fault Refusal :=
  playNoteWord 4 c oct volc s

/-- N_E (R163). -/
def execNE (c : Chan) (oct : BitVec 3) (volc : BitVec 5) (s : State) : Host.Outcome State Fault Refusal :=
  playNoteWord 5 c oct volc s

/-- N_F (R163). -/
def execNF (c : Chan) (oct : BitVec 3) (volc : BitVec 5) (s : State) : Host.Outcome State Fault Refusal :=
  playNoteWord 6 c oct volc s

/-- N_Fs (R163). -/
def execNFs (c : Chan) (oct : BitVec 3) (volc : BitVec 5) (s : State) : Host.Outcome State Fault Refusal :=
  playNoteWord 7 c oct volc s

/-- N_G (R163). -/
def execNG (c : Chan) (oct : BitVec 3) (volc : BitVec 5) (s : State) : Host.Outcome State Fault Refusal :=
  playNoteWord 8 c oct volc s

/-- N_Gs (R163). -/
def execNGs (c : Chan) (oct : BitVec 3) (volc : BitVec 5) (s : State) : Host.Outcome State Fault Refusal :=
  playNoteWord 9 c oct volc s

/-- N_A (R163). -/
def execNA (c : Chan) (oct : BitVec 3) (volc : BitVec 5) (s : State) : Host.Outcome State Fault Refusal :=
  playNoteWord 10 c oct volc s

/-- N_As (R163). -/
def execNAs (c : Chan) (oct : BitVec 3) (volc : BitVec 5) (s : State) : Host.Outcome State Fault Refusal :=
  playNoteWord 11 c oct volc s

/-- N_B (R163). -/
def execNB (c : Chan) (oct : BitVec 3) (volc : BitVec 5) (s : State) : Host.Outcome State Fault Refusal :=
  playNoteWord 12 c oct volc s

/-- N_HALT (R161). -/
def execNHalt (c : Chan) (oct : BitVec 3) (volc : BitVec 5) (s : State) : Host.Outcome State Fault Refusal :=
  playNoteWord 13 c oct volc s

/-- N_RELEASE (R162). -/
def execNRelease (c : Chan) (oct : BitVec 3) (volc : BitVec 5) (s : State) : Host.Outcome State Fault Refusal :=
  playNoteWord 14 c oct volc s

/-- N_ECHO (R150). -/
def execNEcho (c : Chan) (oct : BitVec 3) (volc : BitVec 5) (s : State) : Host.Outcome State Fault Refusal :=
  playNoteWord 15 c oct volc s

/-- NE.W1 (R155, R165, R166): the instrument reference of a row. -/
def execNeW1 (c : Chan) (inst : Byte) (s : State) : Host.Outcome State Fault Refusal :=
  .next (s.onCx c fun e x => handleNoteData e (instRow inst) x)

/-- FX_DELAY (R144): decoded by PlayNote; a parameter of 0 is no delay. -/
def execFxDelay (c : Chan) (p : Byte) (s : State) : Host.Outcome State Fault Refusal :=
  .next (s.onCx c fun e x => playNote e (effectRow ⟨0x10, p⟩) x)

end Sys2Proof.Machine
end

