-- ==== Sys2Proof/Machine/Tick.lean ====
section
/-! DEFINITION. The per-tick update ProcessChannel (42_tick_update.md). -/

namespace Sys2Proof.Machine

/-- Step 1, UpdateDelay (R231): the timer is tested, then decremented. -/
def updateDelay (e : Env) (x : Cx) : Cx :=
  if x.ch.delayPending then
    if x.ch.delayTimer = 0 then flushDelayed e x
    else { x with ch := { x.ch with delayTimer := x.ch.delayTimer - 1 } }
  else x

/-- Step 2, UpdateNoteCut (R232). -/
def updateNoteCut (ch : Channel) : Channel :=
  if ch.cutTimer = 0 then ch
  else
    let counted := { ch with cutTimer := ch.cutTimer - 1 }
    if counted.cutTimer = 0 then cutNote counted else counted

/-- Step 3, UpdateNoteRelease (R233). -/
def updateNoteRelease (e : Env) (ch : Channel) : Channel :=
  if ch.relTimer = 0 then ch
  else
    let counted := { ch with relTimer := ch.relTimer - 1 }
    if counted.relTimer = 0 then releaseNote e.mem counted else counted

/-- Step 4, UpdateDelayedVolume (R234). -/
def updateDelayedVolume (ch : Channel) : Channel :=
  if ch.voldTimer = 0 then ch
  else
    let counted := { ch with voldTimer := ch.voldTimer - 1 }
    if counted.voldTimer = 0 then
      { counted with vol := ch.newVol, defVol := if cfg.voldSetsDefault then ch.newVol else ch.defVol }
    else counted

/-- The note of a transpose that fires (R237). -/
def transposedNote (ch : Channel) : Int :=
  if ch.transDown then ch.note.toNat - ch.transAmount.toNat else ch.note.toNat + ch.transAmount.toNat

/-- Step 5, UpdateTranspose (R237): the note moves and the period follows it. -/
def updateTranspose (e : Env) (ch : Channel) : Channel :=
  if ch.transTimer = 0 then ch
  else
    let counted := { ch with transTimer := ch.transTimer - 1 }
    if counted.transTimer = 0 then
      let moved := counted.setNote (transposedNote ch)
      moved.playPeriod e moved.note.toNat
    else counted

/-- Step 6, UpdateVolumeSlide (R238): down and clamped at 0, then up and clamped at VOL_INT_MAX. -/
def updateVolumeSlide (ch : Channel) : Channel :=
  let down : Int := max (ch.vol.toNat - (lo ch.volSlide).toNat) 0
  let up : Int := min (down + (hi ch.volSlide).toNat) cfg.volIntMax
  { ch with vol := BitVec.ofNat 7 up.toNat }

/-- Step 7, UpdateVibratoTremolo (R239): both phases modulo 64, whatever the depths and the gate. -/
def updateVibratoTremolo (ch : Channel) : Channel :=
  { ch with
    vibPhase := ch.vibPhase + ch.vibSpeed.setWidth 6
    tremPhase := ch.tremPhase + ch.tremSpeed.setWidth 6 }

/-- The note an arpeggio phase plays (R241). -/
def arpeggioNote (ch : Channel) : Int :=
  match ch.arpPhase with
  | 0 => ch.note.toNat
  | 1 => ch.note.toNat + (hi ch.effParam).toNat
  | 2 => ch.note.toNat + (lo ch.effParam).toNat

/-- The arpeggio's tick (R241). -/
def updateArpeggio (e : Env) (ch : Channel) : Channel :=
  { ch.playPeriod e (arpeggioNote ch) with arpPhase := ch.arpPhase + 1 }

/-- The step toward the target, clamped at it (R242). In linear pitch mode the source is silent on the slides
(43_period_volume.md R264, 91 N8), and the model steps as R242 says in that mode too: DESIGN CHOICE, log 28. -/
def stepToTarget (ch : Channel) : Channel :=
  if ch.portaSpeed ≠ 0 ∧ 0 < ch.portaTo then
    if ch.portaTo < ch.period then ch.setPeriod (max (ch.period - ch.portaSpeed.toNat : Int) ch.portaTo)
    else if ch.period < ch.portaTo then ch.setPeriod (min (ch.period + ch.portaSpeed.toNat : Int) ch.portaTo)
    else ch
  else ch

/-- Auto-clear of the semitone slides at the target (R243). -/
def autoClear (ch : Channel) : Channel :=
  if ch.period = ch.portaTo then { ch with eff := .none, effParam := 0, portaSpeed := 0, portaTo := 0 } else ch

/-- UpSign (41_effects.md R204): -1 on a period-based chip. -/
def upSign : Int := if cfg.invertDir then 1 else -1

/-- Step 8, UpdateEffects (R240 to R244); the slides in linear pitch mode step as in table mode (log 28). -/
def updateEffects (e : Env) (ch : Channel) : Channel :=
  match ch.eff with
  | .none => ch
  | .arpeggio => updateArpeggio e ch
  | .portamento => stepToTarget ch
  | .slideUp => autoClear (stepToTarget ch)
  | .slideDown => autoClear (stepToTarget ch)
  | .portaUp => ch.setPeriod (ch.period + upSign * ch.portaSpeed.toNat)
  | .portaDown => ch.setPeriod (ch.period - upSign * ch.portaSpeed.toNat)

/-- Step 9 (R245): the instrument handler, if there is one. -/
def updateHandler (e : Env) (ch : Channel) : Channel := if ch.handler.isSome then updateInstrument e ch else ch

/-- Steps 2 to 9 in their order (R230). -/
def processSteps (e : Env) (ch : Channel) : Channel :=
  updateHandler e <| updateEffects e <| updateVibratoTremolo <| updateVolumeSlide <| updateTranspose e <|
    updateDelayedVolume <| updateNoteRelease e <| updateNoteCut ch

/-- ProcessChannel() (R230). -/
def processChannel (e : Env) (x : Cx) : Cx :=
  let flushed := updateDelay e x
  { flushed with ch := processSteps e flushed.ch }

end Sys2Proof.Machine
end

