-- ==== Sys2Proof/Machine/Emission.lean ====
section
/-! DEFINITION. The period and volume datapath (43_period_volume.md), the register emission sequencer
(45_chip_emission.md) and the meanings of the register-write rows (RW). -/

namespace Sys2Proof.Machine

/-! ### CalculatePeriod and CalculateVolume -/

/-- VibOffset(d, p) (43_period_volume.md R270; log 10). -/
def vibOffset (d : BitVec 4) (p : BitVec 6) : Int := if d = 0 then 0 else Config.vibWave d.toNat p.toNat

/-- TremAtten(d, p) (43_period_volume.md R270; log 10). -/
def tremAtten (d : BitVec 4) (p : BitVec 6) : Int := if d = 0 then 0 else Config.tremWave d.toNat p.toNat

/-- FineOffset() (R262). -/
def fineOffset (ch : Channel) : Int := cfg.fineNeutral.toNat - ch.finePitch.toNat

/-- WheelOffset() (R263): the division truncates toward zero. -/
def wheelOffset (m : Memory) (ch : Channel) : Int :=
  if ch.pitchWheel = 0 then 0
  else
    let f : Int := m.noteTable ch.note
    let low : Int := m.noteTable (noteNumber (ch.note.toNat - cfg.wheelRange))
    let high : Int := m.noteTable (noteNumber (ch.note.toNat + cfg.wheelRange))
    let span := if ch.pitchWheel < 0 then f - low else high - f
    (span * ch.pitchWheel).tdiv cfg.wheelMax

/-- What CalculatePeriod reads of a channel (R261), and the model's counter (log 8). -/
def periodOperands (ch : Channel) : List Int :=
  [ch.chIdx.toNat, ch.free, ch.period, ch.vibDepth.toNat, ch.vibPhase.toNat, ch.finePitch.toNat, ch.pitchWheel,
   ch.note.toNat]

/-- CalculatePeriod() (R261). In linear pitch mode the value is free within 0..PERIOD_MAX (R264; log 8, log 9). -/
def calculatePeriod (e : Env) (ch : Channel) : Nat :=
  if e.cfgReg.linearPitch then min (Config.linearPeriod (periodOperands ch) e.mem.notes) cfg.periodMax
  else
    (clamp (ch.period - vibOffset ch.vibDepth ch.vibPhase + fineOffset ch + wheelOffset e.mem ch) 0
      cfg.periodMax).toNat

/-- The clamped product of CalculateVolume, before the never-silent policy (R266). -/
def scaledVolume (ch : Channel) : Int :=
  clamp ((ch.instVol.toInt * fourBitVolume ch.vol).tdiv cfg.volDiv - tremAtten ch.tremDepth ch.tremPhase) 0 cfg.volMax

/-- The never-silent policy floors the volume at 1 (R267). -/
def neverSilent (e : Env) (ch : Channel) : Bool :=
  !e.cfgReg.cutSilent && ch.handler.isSome && decide (0 < fourBitVolume ch.vol)

/-- CalculateVolume() (R266, R267). -/
def calculateVolume (e : Env) (ch : Channel) : Nat :=
  if ch.gate = false then 0
  else if scaledVolume ch = 0 ∧ neverSilent e ch = true then 1
  else (scaledVolume ch).toNat

/-! ### The register map (20_memory.md R77) -/

/-- PERIOD_LO(c). -/
def periodLoReg (c : Nat) : Byte := BitVec.ofNat 8 (2 * c)

/-- PERIOD_HI(c). -/
def periodHiReg (c : Nat) : Byte := BitVec.ofNat 8 (2 * c + 1)

/-- LEVEL(c). -/
def levelReg (c : Nat) : Byte := BitVec.ofNat 8 (8 + c)

/-- NOISE. -/
def noiseReg : Byte := 0x06

/-- MIXER. -/
def mixerReg : Byte := 0x07

/-- ENV_LO. -/
def envLoReg : Byte := 0x0B

/-- ENV_HI. -/
def envHiReg : Byte := 0x0C

/-- ENV_SHAPE. -/
def envShapeReg : Byte := 0x0D

/-! ### REFRESH (45_chip_emission.md R331 to R339) -/

/-- ConvertDuty(d) (R331): a foreign instrument forces D_SQUARE alone. -/
def convertDuty (ch : Channel) (d : Byte) : Byte := if ch.instType = .foreign then 0x40 else d

/-- PERIOD_LO gets bits 7:0 of the period (20_memory.md R81). -/
def periodLow (p : Nat) : Byte := BitVec.ofNat 8 p

/-- PERIOD_HI gets bits 11:8 of the period, bits 7:4 zero (R333). -/
def periodHigh (p : Nat) : Byte := BitVec.ofNat 8 ((p / 256) % 16)

/-- The level byte (R335): envelope mode in bit 4, the volume in bits 3:0. -/
def levelByte (env : Bool) (v : Nat) : Byte := (if env then 0x10 else 0x00) ||| BitVec.ofNat 8 (v % 16)

/-- The three pairs of a REFRESH (R333), at the addresses `ch_idx` selects (R334). -/
def refreshPairs (e : Env) (ch : Channel) : List RegPair :=
  let p := calculatePeriod e ch
  let env := dutyEnv (convertDuty ch ch.duty) && ch.gate
  [(periodLoReg ch.chIdx.toNat, periodLow p),
   (periodHiReg ch.chIdx.toNat, periodHigh p),
   (levelReg ch.chIdx.toNat, levelByte env (calculateVolume e ch))]

/-- What a REFRESH of channel `c` leaves in the shared resource (R333, R336, R338, R339). -/
def refreshShared (c : Nat) (ch : Channel) (g : Shared) : Shared :=
  let d := convertDuty ch ch.duty
  let sq := dutySquare d && ch.gate
  let ns := dutyNoise d && ch.gate
  let env := dutyEnv d && ch.gate
  let mixed := g.putMixer c (!sq) (!ns)
  let noised := if ns then { mixed with noisePeriod := dutyNoisePeriod d } else mixed
  noised.noteEnvelope env ch.trigger

/-- Refresh(c) (R333). -/
def refreshChannel (i : Fin 3) (s : State) : State :=
  let ch := s.chans.get i
  (s.putCx i ⟨ch.consumeTrigger, refreshShared i ch s.shr⟩).emit (refreshPairs s.env ch)

/-! ### COMMIT and TICK (45_chip_emission.md R340 to R347) -/

/-- The pairs of a COMMIT (R340): four always, the shape when triggered (R341). -/
def commitPairs (g : Shared) : List RegPair :=
  [(noiseReg, g.noisePeriod.setWidth 8), (mixerReg, g.mixer),
   (envLoReg, g.envPeriod.extractLsb' 0 8), (envHiReg, g.envPeriod.extractLsb' 8 8)] ++
    if g.triggered then [(envShapeReg, g.envShape.setWidth 8)] else []

/-- Commit() (R340). -/
def commitShared (s : State) : State := ({ s with shr := s.shr.clearTick } : State).emit (commitPairs s.shr)

/-- Process(c) for a channel of the chip (42_tick_update.md R230). -/
def processAt (s : State) (i : Fin 3) : State := s.putCx i (processChannel s.env (s.cx i))

/-- Refresh(c) in TICK's loop. -/
def refreshAt (s : State) (i : Fin 3) : State := refreshChannel i s

/-- Tick() (R345): all PROCESS ascending, all REFRESH ascending, COMMIT. -/
def tickAll (s : State) : State := commitShared (allChannels.foldl refreshAt (allChannels.foldl processAt s))

/-! ### The meanings of the RW rows (20_memory.md R76) -/

/-- PERIOD_LO0 (45_chip_emission.md R334). -/
def execPeriodLo0 (v : Byte) (s : State) : Host.Outcome State Fault Refusal := .next (s.emit [(0x00, v)])

/-- PERIOD_HI0 (R334). -/
def execPeriodHi0 (v : Byte) (s : State) : Host.Outcome State Fault Refusal := .next (s.emit [(0x01, v)])

/-- PERIOD_LO1 (R334). -/
def execPeriodLo1 (v : Byte) (s : State) : Host.Outcome State Fault Refusal := .next (s.emit [(0x02, v)])

/-- PERIOD_HI1 (R334). -/
def execPeriodHi1 (v : Byte) (s : State) : Host.Outcome State Fault Refusal := .next (s.emit [(0x03, v)])

/-- PERIOD_LO2 (R334). -/
def execPeriodLo2 (v : Byte) (s : State) : Host.Outcome State Fault Refusal := .next (s.emit [(0x04, v)])

/-- PERIOD_HI2 (R334). -/
def execPeriodHi2 (v : Byte) (s : State) : Host.Outcome State Fault Refusal := .next (s.emit [(0x05, v)])

/-- NOISE (R340). -/
def execNoise (v : Byte) (s : State) : Host.Outcome State Fault Refusal := .next (s.emit [(0x06, v)])

/-- MIXER (R339). -/
def execMixer (v : Byte) (s : State) : Host.Outcome State Fault Refusal := .next (s.emit [(0x07, v)])

/-- LEVEL0 (R335). -/
def execLevel0 (v : Byte) (s : State) : Host.Outcome State Fault Refusal := .next (s.emit [(0x08, v)])

/-- LEVEL1 (R335). -/
def execLevel1 (v : Byte) (s : State) : Host.Outcome State Fault Refusal := .next (s.emit [(0x09, v)])

/-- LEVEL2 (R335). -/
def execLevel2 (v : Byte) (s : State) : Host.Outcome State Fault Refusal := .next (s.emit [(0x0A, v)])

/-- ENV_LO (R340). -/
def execEnvLo (v : Byte) (s : State) : Host.Outcome State Fault Refusal := .next (s.emit [(0x0B, v)])

/-- ENV_HI (R340). -/
def execEnvHi (v : Byte) (s : State) : Host.Outcome State Fault Refusal := .next (s.emit [(0x0C, v)])

/-- ENV_SHAPE (R341). -/
def execEnvShape (v : Byte) (s : State) : Host.Outcome State Fault Refusal := .next (s.emit [(0x0D, v)])

end Sys2Proof.Machine
end

