-- ==== Sys2Proof/Machine/Commands.lean ====
section
/-! DEFINITION. The meanings of the host commands (HC; 30_encoding.md R101). Each is one step, start to finish
(20_memory.md R90). -/

namespace Sys2Proof.Machine

/-- ResetChannel() on the channel's record (40_row_commands.md R140): the identity fields stay (10_state.md R20), and
so does the model's own counter (log 8). -/
def resetChannel (ch : Channel) : Channel := Channel.resetValues ch.chipId ch.chIdx ch.free

/-- The register writes of RESET c (40_row_commands.md R141). -/
def resetPairs (c : Nat) : List RegPair := [(periodLoReg c, 0), (periodHiReg c, 0), (levelReg c, 0)]

/-- RESET of a channel of the chip (40_row_commands.md R140 to R142). -/
def resetAt (i : Fin 3) (s : State) : State :=
  (s.putCx i ⟨resetChannel (s.chans.get i), s.shr.putMixer i true true⟩).emit (resetPairs i)

/-- A command on a channel of the chip; with `ch >= NCH` it changes nothing (30_encoding.md R100). -/
def State.onChannel (s : State) (c : Chan) (f : Fin 3 → State → State) : State :=
  match chanOf c with
  | some i => f i s
  | none => s

/-- NOP (40_row_commands.md R180). -/
def execNop (s : State) : Host.Outcome State Fault Refusal := .next s

/-- RESET c (40_row_commands.md R140 to R142). -/
def execReset (c : Chan) (s : State) : Host.Outcome State Fault Refusal := .next (s.onChannel c resetAt)

/-- PLAY c, ev (40_row_commands.md R143). -/
def execPlay (c : Chan) (ev : NoteEvent) (s : State) : Host.Outcome State Fault Refusal :=
  .next (s.onCx c fun e x => playNote e ev x)

/-- PROCESS c (42_tick_update.md R230). -/
def execProcess (c : Chan) (s : State) : Host.Outcome State Fault Refusal := .next (s.onCx c processChannel)

/-- REFRESH c (45_chip_emission.md R333). -/
def execRefresh (c : Chan) (s : State) : Host.Outcome State Fault Refusal := .next (s.onChannel c refreshChannel)

/-- COMMIT (45_chip_emission.md R340). -/
def execCommit (s : State) : Host.Outcome State Fault Refusal := .next (commitShared s)

/-- TICK (45_chip_emission.md R345). -/
def execTick (s : State) : Host.Outcome State Fault Refusal := .next (tickAll s)

/-- FORCERELOAD c (40_row_commands.md R182). -/
def execForcereload (c : Chan) (s : State) : Host.Outcome State Fault Refusal :=
  .next (s.onCh c fun _ ch => { ch with forceReload := true })

/-- SETPITCH c, w (40_row_commands.md R183). -/
def execSetpitch (c : Chan) (w : Word) (s : State) : Host.Outcome State Fault Refusal :=
  .next (s.onCh c fun _ ch => { ch with pitchWheel := wheelOperand w })

/-- SETCFG arg (40_row_commands.md R181). -/
def execSetcfg (arg : Byte) (s : State) : Host.Outcome State Fault Refusal :=
  .next { s with cfgReg := { cutSilent := arg.getLsbD 0, linearPitch := arg.getLsbD 1 } }

/-- What a reserved opcode does: no state change, no output (30_encoding.md R121). -/
def reservedOpcode (s : State) : Host.Outcome State Fault Refusal := .next s

/-- RESERVED_A (30_encoding.md R121). -/
def execReservedA (s : State) : Host.Outcome State Fault Refusal := reservedOpcode s

/-- RESERVED_B (30_encoding.md R121). -/
def execReservedB (s : State) : Host.Outcome State Fault Refusal := reservedOpcode s

/-- RESERVED_C (30_encoding.md R121). -/
def execReservedC (s : State) : Host.Outcome State Fault Refusal := reservedOpcode s

/-- RESERVED_D (30_encoding.md R121). -/
def execReservedD (s : State) : Host.Outcome State Fault Refusal := reservedOpcode s

/-- RESERVED_E (30_encoding.md R121). -/
def execReservedE (s : State) : Host.Outcome State Fault Refusal := reservedOpcode s

/-- RESERVED_F (30_encoding.md R121). -/
def execReservedF (s : State) : Host.Outcome State Fault Refusal := reservedOpcode s

end Sys2Proof.Machine
end

