-- ==== Sys2Proof/Machine/Dispatch.lean ====
section
/-! DEFINITION. exec: one arm per constructor of Instr, each one direct call of its meaning. -/

namespace Sys2Proof.Machine

/-- The effect of an instruction on a state. -/
def exec (i : Instr) (s : State) : Host.Outcome State Fault Refusal :=
  match i with
  -- HC
  | .nop => Sys2Proof.Machine.execNop s
  | .reset c => Sys2Proof.Machine.execReset c s
  | .play c ev => Sys2Proof.Machine.execPlay c ev s
  | .process c => Sys2Proof.Machine.execProcess c s
  | .refresh c => Sys2Proof.Machine.execRefresh c s
  | .commit => Sys2Proof.Machine.execCommit s
  | .tick => Sys2Proof.Machine.execTick s
  | .forcereload c => Sys2Proof.Machine.execForcereload c s
  | .setpitch c w => Sys2Proof.Machine.execSetpitch c w s
  | .setcfg arg => Sys2Proof.Machine.execSetcfg arg s
  | .reservedA => Sys2Proof.Machine.execReservedA s
  | .reservedB => Sys2Proof.Machine.execReservedB s
  | .reservedC => Sys2Proof.Machine.execReservedC s
  | .reservedD => Sys2Proof.Machine.execReservedD s
  | .reservedE => Sys2Proof.Machine.execReservedE s
  | .reservedF => Sys2Proof.Machine.execReservedF s
  -- NE.W0
  | .nNone c oct volc => Sys2Proof.Machine.execNNone c oct volc s
  | .nC c oct volc => Sys2Proof.Machine.execNC c oct volc s
  | .nCs c oct volc => Sys2Proof.Machine.execNCs c oct volc s
  | .nD c oct volc => Sys2Proof.Machine.execND c oct volc s
  | .nDs c oct volc => Sys2Proof.Machine.execNDs c oct volc s
  | .nE c oct volc => Sys2Proof.Machine.execNE c oct volc s
  | .nF c oct volc => Sys2Proof.Machine.execNF c oct volc s
  | .nFs c oct volc => Sys2Proof.Machine.execNFs c oct volc s
  | .nG c oct volc => Sys2Proof.Machine.execNG c oct volc s
  | .nGs c oct volc => Sys2Proof.Machine.execNGs c oct volc s
  | .nA c oct volc => Sys2Proof.Machine.execNA c oct volc s
  | .nAs c oct volc => Sys2Proof.Machine.execNAs c oct volc s
  | .nB c oct volc => Sys2Proof.Machine.execNB c oct volc s
  | .nHalt c oct volc => Sys2Proof.Machine.execNHalt c oct volc s
  | .nRelease c oct volc => Sys2Proof.Machine.execNRelease c oct volc s
  | .nEcho c oct volc => Sys2Proof.Machine.execNEcho c oct volc s
  -- NE.W1
  | .neW1 c inst => Sys2Proof.Machine.execNeW1 c inst s
  -- FX
  | .fxNone c p => Sys2Proof.Machine.execFxNone c p s
  | .fxPortamento c p => Sys2Proof.Machine.execFxPortamento c p s
  | .fxVibrato c p => Sys2Proof.Machine.execFxVibrato c p s
  | .fxTremolo c p => Sys2Proof.Machine.execFxTremolo c p s
  | .fxArpeggio c p => Sys2Proof.Machine.execFxArpeggio c p s
  | .fxFinePitch c p => Sys2Proof.Machine.execFxFinePitch c p s
  | .fxPortaUp c p => Sys2Proof.Machine.execFxPortaUp c p s
  | .fxPortaDown c p => Sys2Proof.Machine.execFxPortaDown c p s
  | .fxSlideUp c p => Sys2Proof.Machine.execFxSlideUp c p s
  | .fxSlideDown c p => Sys2Proof.Machine.execFxSlideDown c p s
  | .fxVolSlide c p => Sys2Proof.Machine.execFxVolSlide c p s
  | .fxNoteCut c p => Sys2Proof.Machine.execFxNoteCut c p s
  | .fxNoteRelease c p => Sys2Proof.Machine.execFxNoteRelease c p s
  | .fxDelayedVol c p => Sys2Proof.Machine.execFxDelayedVol c p s
  | .fxTranspose c p => Sys2Proof.Machine.execFxTranspose c p s
  | .fxDuty c p => Sys2Proof.Machine.execFxDuty c p s
  | .fxDelay c p => Sys2Proof.Machine.execFxDelay c p s
  | .fxEnvLo c p => Sys2Proof.Machine.execFxEnvLo c p s
  | .fxEnvHi c p => Sys2Proof.Machine.execFxEnvHi c p s
  | .fxEnvShape c p => Sys2Proof.Machine.execFxEnvShape c p s
  | .fxNoise c p => Sys2Proof.Machine.execFxNoise c p s
  | .fxUnknown c kind p => Sys2Proof.Machine.execFxUnknown c kind p s
  -- SQ
  | .sqVolume c item => Sys2Proof.Machine.execSqVolume c item s
  | .sqArpAbsolute c item => Sys2Proof.Machine.execSqArpAbsolute c item s
  | .sqArpFixed c item => Sys2Proof.Machine.execSqArpFixed c item s
  | .sqArpRelative c item => Sys2Proof.Machine.execSqArpRelative c item s
  | .sqArpScheme0 c limit => Sys2Proof.Machine.execSqArpScheme0 c limit s
  | .sqArpScheme1 c limit => Sys2Proof.Machine.execSqArpScheme1 c limit s
  | .sqArpScheme2 c limit => Sys2Proof.Machine.execSqArpScheme2 c limit s
  | .sqArpScheme3 c limit => Sys2Proof.Machine.execSqArpScheme3 c limit s
  | .sqPitchRelative c item => Sys2Proof.Machine.execSqPitchRelative c item s
  | .sqPitchAbsolute c item => Sys2Proof.Machine.execSqPitchAbsolute c item s
  | .sqPitchReserved c item => Sys2Proof.Machine.execSqPitchReserved c item s
  | .sqHipitch c item => Sys2Proof.Machine.execSqHipitch c item s
  | .sqDuty c item => Sys2Proof.Machine.execSqDuty c item s
  -- RW
  | .periodLo0 v => Sys2Proof.Machine.execPeriodLo0 v s
  | .periodHi0 v => Sys2Proof.Machine.execPeriodHi0 v s
  | .periodLo1 v => Sys2Proof.Machine.execPeriodLo1 v s
  | .periodHi1 v => Sys2Proof.Machine.execPeriodHi1 v s
  | .periodLo2 v => Sys2Proof.Machine.execPeriodLo2 v s
  | .periodHi2 v => Sys2Proof.Machine.execPeriodHi2 v s
  | .noise v => Sys2Proof.Machine.execNoise v s
  | .mixer v => Sys2Proof.Machine.execMixer v s
  | .level0 v => Sys2Proof.Machine.execLevel0 v s
  | .level1 v => Sys2Proof.Machine.execLevel1 v s
  | .level2 v => Sys2Proof.Machine.execLevel2 v s
  | .envLo v => Sys2Proof.Machine.execEnvLo v s
  | .envHi v => Sys2Proof.Machine.execEnvHi v s
  | .envShape v => Sys2Proof.Machine.execEnvShape v s

end Sys2Proof.Machine
end

