-- ==== Sys2Proof/Machine/Step.lean ====
section
/-! DEFINITION. One step of the machine: the command at the head of the port, start to finish (20_memory.md R90). -/

namespace Sys2Proof.Machine

/-- One step. The CE starts nothing by itself (70_reset_and_hazards.md R413): with no complete command on the port it
waits, and the step changes nothing (log 1). -/
def step (s : State) : Host.Outcome State Fault Refusal :=
  match decode .host s.inp with
  | .ok (i, rest) => exec i { s with inp := rest }
  | .error _ => .next s

/-- The words of the command at the head of `ws`, without what follows it. -/
def headCommand (ws : List Word) : List Word :=
  match ws with
  | w :: _ => ws.take (commandLength w)
  | [] => []

/-- A channel on which PROCESS runs one arpeggio scheme item: it sounds, and its handler has one running slot bound
to sequence 0 (log 4). -/
def Channel.withSchemeSlot (ch : Channel) : Channel :=
  { ch with
    gate := true
    inst := 0
    instType := .native
    handler := some ⟨.native, { PerKind.const Slot.off with arpeggio := ⟨some 0, .running, 0⟩ }, 0, 0⟩ }

/-- Put an instruction where the step fetches its next one (log 4). A row of 16 bits or more is a host command:
its words go to the head of the port. A row of 8 bits is a sequence item: it becomes the one item of arpeggio
sequence 0, bound to the running slot of channel 0, and the port gets the PROCESS 0 that runs it. -/
def State.withFetchWord (s : State) (nbits w : Nat) : State :=
  if nbits ≤ 8 then
    { s with
      chans := s.chans.set 0 (s.chans.get 0).withSchemeSlot
      mem := { s.mem with
        seqs := s.mem.seqs.set .arpeggio
          (tableInsert s.mem.seqs.arpeggio 0 ⟨0xFF, 0xFF, 3, [BitVec.ofNat 8 (w % 2 ^ nbits)]⟩) }
      inp := hcWord 0x3 0 0 :: s.inp }
  else { s with inp := headCommand (tableWords nbits w) ++ s.inp }

end Sys2Proof.Machine
end

