-- ==== Sys2Proof/Safety.lean ====
section
/-! DEFINITION. What the claims are stated in: completing, running several instructions, and the invariant of the
state (10_state.md; 60_exceptions.md R376 "leaves every field within the range given in `10_state.md`, and it keeps
the invariants of FT §3"). -/

namespace Sys2Proof.Machine

/-- The outcome is a next state. -/
def Completes (o : Host.Outcome State Fault Refusal) : Prop := ∃ t, o = .next t

/-- Instructions one after another, stopping at the first that does not complete. -/
def execAll : List Instr → State → Host.Outcome State Fault Refusal
  | [], s => .next s
  | i :: rest, s =>
    match exec i s with
    | .next t => execAll rest t
    | .fault r => .fault r
    | .refused r => .refused r

/-- A slot's invariant (10_state.md R49, R51, R53): a slot bound to nothing is disabled; a running slot is bound, its
cursor is in the range 0..SEQ_MAX-1 and an index into its sequence. On any slot the cursor is at most SEQ_MAX:
44_sequence_engine.md R311 leaves the cursor of a sequence that ended at its item count, so it can stand one past the
range R49 gives the field when that count is SEQ_MAX (DEDUCED, log 27). -/
structure SlotInv (m : Memory) (k : Kind) (sl : Slot) : Prop where
  bounded : sl.pos ≤ cfg.seqMax
  range : sl.st = .running → sl.pos < cfg.seqMax
  unbound : sl.bound = none → sl.st = .disabled
  running : ∀ s, sl.bound = some s → sl.st = .running → sl.pos < count (m.seqRead k s)

/-- The handler's invariant (10_state.md R25 to R27, R40): with no handler nothing is loaded; a handler has the type
of the loaded instrument, a sequence-driven one, and its slots meet theirs. -/
structure HandlerInv (m : Memory) (handler : Option Handler) (inst : Byte) (type : InstType) : Prop where
  absent : handler = none → inst = 0xFF ∧ type = .none
  typed : ∀ h, handler = some h → h.type = type ∧ (type = .native ∨ type = .foreign)
  index : ∀ h, handler = some h → inst.toNat < cfg.instCount
  slots : ∀ h, handler = some h → ∀ k, SlotInv m k (h.slots.get k)

/-- A channel's invariant: the ranges of 10_state.md and the buffered row's form (42_tick_update.md R231). -/
structure ChannelInv (m : Memory) (i : Nat) (ch : Channel) : Prop where
  identity : ch.chIdx.toNat = i
  period : ch.period ≤ cfg.periodMax
  portaTo : ch.portaTo ≤ cfg.periodMax
  wheel : -511 ≤ ch.pitchWheel ∧ ch.pitchWheel ≤ 511
  cutTimer : ch.cutTimer.toNat ≤ 0x80
  relTimer : ch.relTimer.toNat ≤ 0x80
  voldTimer : ch.voldTimer.toNat ≤ 16
  transTimer : ch.transTimer.toNat ≤ 8
  echo : ch.echo.length = cfg.echoLen
  delayColumns : ch.delayEvent.fx.length = cfg.fxCols
  delayStripped : ∀ f ∈ ch.delayEvent.fx, delayColumn f = false
  handler : HandlerInv m ch.handler ch.inst ch.instType

/-- The invariant of the state: legal tables, every channel's invariant, and mixer bits 7:6 zero (10_state.md R56). -/
structure StateInv (s : State) : Prop where
  tables : s.mem.wf = true
  channels : ∀ i : Fin 3, ChannelInv s.mem i (s.chans.get i)
  mixer : s.shr.mixer.toNat < 64

/-! ### The forms the claims name -/

/-- The channel an instruction addresses, if it addresses one (30_encoding.md R100, R101; the element rows by their
context, log 2). -/
def channelOf : Instr → Option Chan
  | .nop => none
  | .reset c => some c
  | .play c _ => some c
  | .process c => some c
  | .refresh c => some c
  | .commit => none
  | .tick => none
  | .forcereload c => some c
  | .setpitch c _ => some c
  | .setcfg _ => none
  | .reservedA => none
  | .reservedB => none
  | .reservedC => none
  | .reservedD => none
  | .reservedE => none
  | .reservedF => none
  | .nNone c _ _ => some c
  | .nC c _ _ => some c
  | .nCs c _ _ => some c
  | .nD c _ _ => some c
  | .nDs c _ _ => some c
  | .nE c _ _ => some c
  | .nF c _ _ => some c
  | .nFs c _ _ => some c
  | .nG c _ _ => some c
  | .nGs c _ _ => some c
  | .nA c _ _ => some c
  | .nAs c _ _ => some c
  | .nB c _ _ => some c
  | .nHalt c _ _ => some c
  | .nRelease c _ _ => some c
  | .nEcho c _ _ => some c
  | .neW1 c _ => some c
  | .fxNone c _ => some c
  | .fxPortamento c _ => some c
  | .fxVibrato c _ => some c
  | .fxTremolo c _ => some c
  | .fxArpeggio c _ => some c
  | .fxFinePitch c _ => some c
  | .fxPortaUp c _ => some c
  | .fxPortaDown c _ => some c
  | .fxSlideUp c _ => some c
  | .fxSlideDown c _ => some c
  | .fxVolSlide c _ => some c
  | .fxNoteCut c _ => some c
  | .fxNoteRelease c _ => some c
  | .fxDelayedVol c _ => some c
  | .fxTranspose c _ => some c
  | .fxDuty c _ => some c
  | .fxDelay c _ => some c
  | .fxEnvLo c _ => some c
  | .fxEnvHi c _ => some c
  | .fxEnvShape c _ => some c
  | .fxNoise c _ => some c
  | .fxUnknown c _ _ => some c
  | .sqVolume c _ => some c
  | .sqArpAbsolute c _ => some c
  | .sqArpFixed c _ => some c
  | .sqArpRelative c _ => some c
  | .sqArpScheme0 c _ => some c
  | .sqArpScheme1 c _ => some c
  | .sqArpScheme2 c _ => some c
  | .sqArpScheme3 c _ => some c
  | .sqPitchRelative c _ => some c
  | .sqPitchAbsolute c _ => some c
  | .sqPitchReserved c _ => some c
  | .sqHipitch c _ => some c
  | .sqDuty c _ => some c
  | .periodLo0 _ => none
  | .periodHi0 _ => none
  | .periodLo1 _ => none
  | .periodHi1 _ => none
  | .periodLo2 _ => none
  | .periodHi2 _ => none
  | .noise _ => none
  | .mixer _ => none
  | .level0 _ => none
  | .level1 _ => none
  | .level2 _ => none
  | .envLo _ => none
  | .envHi _ => none
  | .envShape _ => none

/-- The word of the pitch note `k` semitones above C (30_encoding.md R105). -/
def pitchWord (k : Fin 12) (c : Chan) (oct : BitVec 3) (volc : BitVec 5) : Instr :=
  match k with
  | 0 => .nC c oct volc
  | 1 => .nCs c oct volc
  | 2 => .nD c oct volc
  | 3 => .nDs c oct volc
  | 4 => .nE c oct volc
  | 5 => .nF c oct volc
  | 6 => .nFs c oct volc
  | 7 => .nG c oct volc
  | 8 => .nGs c oct volc
  | 9 => .nA c oct volc
  | 10 => .nAs c oct volc
  | 11 => .nB c oct volc

/-- The state with channel `i` replaced and everything else kept. -/
def State.withChan (s : State) (i : Fin 3) (ch : Channel) : State := { s with chans := s.chans.set i ch }

/-! ### What a row leaves, written out from 40_row_commands.md -/

/-- The volume column's effect (40_row_commands.md R154): a code 0..15 sets both volumes to 8 times it. -/
def columnVolume (volc : BitVec 5) (ch : Channel) : Channel :=
  if volc.toNat < 16 then
    { ch with vol := BitVec.ofNat 7 (volc.toNat * 8), defVol := BitVec.ofNat 7 (volc.toNat * 8) }
  else ch

/-- A row's opening on a note head of number `n` (R151, R152). -/
def headOpened (n : Nat) (ch : Channel) : Channel :=
  { ch with echo := (.note (BitVec.ofNat 8 n) :: ch.echo).take 4, cutTimer := 0, relTimer := 0, transTimer := 0 }

/-- RunNote for the note number `n` (R163, R167), with the model's counter at `k` after it. On a channel that does not
sound the target of a portamento stays (log 29). -/
def headPlayed (e : Env) (n : Nat) (k : Nat) (ch : Channel) : Channel :=
  let glides : Bool := decide (ch.eff = .portamento) && decide (0 < ch.portaSpeed.toNat) && ch.gate
  { ch with
    note := BitVec.ofNat 8 n
    period := if glides = true ∧ ch.period ≠ 0 then ch.period else min (triggerNote e ch n) 4095
    portaTo := if glides = true then min (triggerNote e ch n) 4095 else ch.portaTo
    gate := true
    release := false
    trigger := true
    vol := if ch.volSlide = 0 then ch.defVol else ch.vol
    free := k }

/-- The end of a row with a note head (R154, R155, R163 to R166), from the channel its columns leave: the volume
column, the note, the slide target, the instrument. -/
def headFinished (e : Env) (n : Nat) (volc : BitVec 5) (inst : Byte) (k : Nat) (ch : Channel) : Channel :=
  let asked : Byte := if inst = 0xFE ∨ inst = 0xFF then ch.inst else inst
  let played := headPlayed e n k (columnVolume volc ch)
  let aimed := if ch.eff = .slideUp ∨ ch.eff = .slideDown then setupSlide e played else played
  loadOrRetrigger e.mem asked (decide (asked ≠ ch.inst) || ch.forceReload) true aimed

/-- The end of a row with no note head: the instrument named is loaded if it differs or is forced (R155, R156). -/
def reloadIf (m : Memory) (asked : Byte) (ch : Channel) : Channel :=
  if asked ≠ ch.inst ∨ ch.forceReload = true then loadOrRetrigger m asked true false ch else ch

/-- A channel on which PROCESS has nothing to do but what `eff` says: the premise of 42_tick_update.md R246 without
its clause on `eff`. -/
structure Idle (ch : Channel) : Prop where
  delay : ch.delayPending = false
  cut : ch.cutTimer = 0
  rel : ch.relTimer = 0
  vold : ch.voldTimer = 0
  trans : ch.transTimer = 0
  slide : ch.volSlide = 0
  vib : ch.vibSpeed = 0
  trem : ch.tremSpeed = 0
  handler : ch.handler = none

end Sys2Proof.Machine
end

