-- ==== Sys2Proof/Certificates/Slice0/Obligations.lean ====
section
/-! DEFINITION. The statements for the provers, one `def Obligations.<Name> : Prop` each; OBLIGATIONS.json lists them.

An equality `exec i s = .next { s with … }` gives an instruction's result and its frame at once: every field that is not
written out is as it was. A channel of the chip is `i : Fin 3`, addressed as `BitVec.ofNat 4 i`; the channel numbers the
chip does not have are `AbsentChannelDoesNothing`. `∃ k` binds the model's own counter of free values (log 8). -/

open Sys2Proof Sys2Proof.Machine

/-! ### Encoding and decoding -/

/-- Decoding the words of a well-formed instruction, in the context it is read in, gives it back with every operand and
leaves what follows (30_encoding.md R100 to R115, 20_memory.md R77). Contexts: log 2. -/
def Obligations.DecodeOfEncodeIsTheInstruction : Prop :=
  ∀ (i : Instr) (rest : List Word), WellFormed i → decode i.ctx (encode i ++ rest) = .ok (i, rest)

/-- The command port reads bits 15:12 as the opcode, bits 11:8 as the channel, bits 7:0 as the argument, and takes the
words the opcode fixes (30_encoding.md R100 to R104, R126); reserved bits are not looked at (R125). -/
def Obligations.HostCommandsDecodeByOpcode : Prop :=
  ∀ (w : Word) (ws : List Word),
    let c : Chan := BitVec.ofNat 4 (w.toNat / 256 % 16)
    decode .host (w :: ws) =
      match w.toNat / 4096 with
      | 0 => .ok (.nop, ws)
      | 1 => .ok (.reset c, ws)
      | 2 =>
        match ws with
        | w0 :: w1 :: f0 :: f1 :: f2 :: f3 :: rest =>
          .ok (.play c
            { note := BitVec.ofNat 4 (w0.toNat % 16)
              oct := BitVec.ofNat 3 (w0.toNat / 16 % 8)
              volc := BitVec.ofNat 5 (w0.toNat / 256 % 32)
              inst := BitVec.ofNat 8 (w1.toNat % 256)
              fx := [f0, f1, f2, f3].map fun f => ⟨BitVec.ofNat 8 (f.toNat / 256), BitVec.ofNat 8 (f.toNat % 256)⟩ },
            rest)
        | _ => .error .truncated
      | 3 => .ok (.process c, ws)
      | 4 => .ok (.refresh c, ws)
      | 5 => .ok (.commit, ws)
      | 6 => .ok (.tick, ws)
      | 7 => .ok (.forcereload c, ws)
      | 8 =>
        match ws with
        | x :: rest => .ok (.setpitch c x, rest)
        | [] => .error .truncated
      | 9 => .ok (.setcfg (BitVec.ofNat 8 (w.toNat % 256)), ws)
      | 10 => .ok (.reservedA, ws)
      | 11 => .ok (.reservedB, ws)
      | 12 => .ok (.reservedC, ws)
      | 13 => .ok (.reservedD, ws)
      | 14 => .ok (.reservedE, ws)
      | _ => .ok (.reservedF, ws)

/-- An effect word is read by its kind, bits 15:8, with its parameter, bits 7:0; every kind of neither table is
FX_UNKNOWN (30_encoding.md R109 to R111, R122). -/
def Obligations.EffectWordsDecodeByKind : Prop :=
  ∀ (c : Chan) (w : Word) (ws : List Word),
    let p : Byte := BitVec.ofNat 8 (w.toNat % 256)
    decode (.effect c) (w :: ws) =
      .ok (match w.toNat / 256 with
        | 0x00 => .fxNone c p
        | 0x01 => .fxPortamento c p
        | 0x02 => .fxVibrato c p
        | 0x03 => .fxTremolo c p
        | 0x04 => .fxArpeggio c p
        | 0x05 => .fxFinePitch c p
        | 0x06 => .fxPortaUp c p
        | 0x07 => .fxPortaDown c p
        | 0x08 => .fxSlideUp c p
        | 0x09 => .fxSlideDown c p
        | 0x0A => .fxVolSlide c p
        | 0x0B => .fxNoteCut c p
        | 0x0C => .fxNoteRelease c p
        | 0x0D => .fxDelayedVol c p
        | 0x0E => .fxTranspose c p
        | 0x0F => .fxDuty c p
        | 0x10 => .fxDelay c p
        | 0x80 => .fxEnvLo c p
        | 0x81 => .fxEnvHi c p
        | 0x82 => .fxEnvShape c p
        | 0x83 => .fxNoise c p
        | k => .fxUnknown c (BitVec.ofNat 8 k) p, ws)

/-- A note word is read by its code, bits 3:0, with its octave, bits 6:4, and its volume column, bits 12:8; bits 7 and
15:13 are not looked at (30_encoding.md R104, R105). -/
def Obligations.NoteWordsDecodeByCode : Prop :=
  ∀ (c : Chan) (w : Word) (ws : List Word),
    let oct : BitVec 3 := BitVec.ofNat 3 (w.toNat / 16 % 8)
    let volc : BitVec 5 := BitVec.ofNat 5 (w.toNat / 256 % 32)
    decode (.noteWord c) (w :: ws) =
      .ok (match w.toNat % 16 with
        | 0 => .nNone c oct volc
        | 13 => .nHalt c oct volc
        | 14 => .nRelease c oct volc
        | 15 => .nEcho c oct volc
        | k => pitchWord (Fin.ofNat 12 (k - 1)) c oct volc, ws)

/-- A sequence item is read by its kind and its sequence's setting (20_memory.md R75, 30_encoding.md R113, R114): only
arpeggio and pitch look at the setting, and a scheme item splits into bits 7:6 and 5:0. -/
def Obligations.SequenceItemsDecodeByKindAndSetting : Prop :=
  ∀ (c : Chan) (k : Kind) (setting : BitVec 2) (item : Byte),
    let limit : BitVec 6 := BitVec.ofNat 6 (item.toNat % 64)
    decode (.seqItem c k setting) [item.setWidth 16] =
      .ok (match k, setting.toNat, item.toNat / 64 with
        | .volume, _, _ => .sqVolume c item
        | .arpeggio, 0, _ => .sqArpAbsolute c item
        | .arpeggio, 1, _ => .sqArpFixed c item
        | .arpeggio, 2, _ => .sqArpRelative c item
        | .arpeggio, _, 0 => .sqArpScheme0 c limit
        | .arpeggio, _, 1 => .sqArpScheme1 c limit
        | .arpeggio, _, 2 => .sqArpScheme2 c limit
        | .arpeggio, _, _ => .sqArpScheme3 c limit
        | .pitch, 0, _ => .sqPitchRelative c item
        | .pitch, 1, _ => .sqPitchAbsolute c item
        | .pitch, _, _ => .sqPitchReserved c item
        | .hipitch, _, _ => .sqHipitch c item
        | .duty, _, _ => .sqDuty c item, [])

/-- The register port takes a pair exactly when its address is one of the fourteen of the map and its value leaves the
unused bits of that register zero (20_memory.md R77). -/
def Obligations.RegisterPortTakesTheMapOnly : Prop :=
  ∀ (w : Word) (ws : List Word),
    (∃ i, decode .port (w :: ws) = .ok (i, ws)) ↔
      (w.toNat / 256 ≤ 0x0D ∧
        w.toNat % 256 <
          match w.toNat / 256 with
          | 0x1 => 16
          | 0x3 => 16
          | 0x5 => 16
          | 0x6 => 32
          | 0x7 => 64
          | 0x8 => 32
          | 0x9 => 32
          | 0xA => 32
          | 0xD => 16
          | _ => 256)

/-- Words written out by hand from 30_encoding.md, one or more of each format, decode to the instruction they stand
for. -/
def Obligations.WordsWrittenOutDecode : Prop :=
  decode .host [0x1200] = .ok (.reset 2, []) ∧
  decode .host [0x2100, 0x0A41, 0x0007, 0x0437, 0x1003, 0x0000, 0x8205] =
    .ok (.play 1 ⟨1, 4, 10, 7, [⟨0x04, 0x37⟩, ⟨0x10, 0x03⟩, ⟨0x00, 0x00⟩, ⟨0x82, 0x05⟩]⟩, []) ∧
  decode .host [0x8000, 0xFE01, 0x6000] = .ok (.setpitch 0 0xFE01, [0x6000]) ∧
  decode .host [0x9003] = .ok (.setcfg 3, []) ∧
  decode (.noteWord 0) [0x105C] = .ok (.nB 0 5 16, []) ∧
  decode (.noteWord 0) [0x103F] = .ok (.nEcho 0 3 16, []) ∧
  decode (.instWord 2) [0x00FE] = .ok (.neW1 2 0xFE, []) ∧
  decode (.effect 1) [0x0823] = .ok (.fxSlideUp 1 0x23, []) ∧
  decode (.effect 1) [0x1101] = .ok (.fxUnknown 1 0x11 0x01, []) ∧
  decode (.seqItem 0 .arpeggio 3) [0x0045] = .ok (.sqArpScheme1 0 5, []) ∧
  decode (.seqItem 0 .pitch 1) [0x00FE] = .ok (.sqPitchAbsolute 0 0xFE, []) ∧
  decode .port [0x090F] = .ok (.level1 0x0F, [])

/-! ### The step -/

/-- A step runs the command the port decodes to, on the state without that command's words (20_memory.md R90; log 1). -/
def Obligations.StepRunsTheDecodedCommand : Prop :=
  ∀ (s : State) (i : Instr) (rest : List Word),
    decode .host s.inp = .ok (i, rest) → step s = exec i { s with inp := rest }

/-- With no complete command on the port a step changes nothing (the model's choice, log 1; the CE starts nothing by
itself, 70_reset_and_hazards.md R413). -/
def Obligations.StepWaitsForACommand : Prop :=
  ∀ (s : State) (e : DecodeError), decode .host s.inp = .error e → step s = .next s

/-! ### Power-on and RESET -/

/-- The shared resource, CFG, the output and the channels after power-on (70_reset_and_hazards.md R400 to R402). -/
def Obligations.PowerOnState : Prop :=
  State.reset.out = [] ∧
  State.reset.cfgReg = { cutSilent := false, linearPitch := false } ∧
  State.reset.shr =
    { envPeriod := 0, envShape := 0, noisePeriod := 0, mixer := 0x3F, envAny := false, update := false,
      retrig := false } ∧
  ∀ i : Fin 3,
    State.reset.chans.get i =
      { chipId := 0, chIdx := BitVec.ofNat 8 i, note := 0, trigger := false, gate := false, release := false,
        inst := 0xFF, instType := .none, handler := none, forceReload := false, vol := 120, defVol := 120, instVol := 0,
        eff := .none, effParam := 0, period := 0, pitchWheel := 0, finePitch := 0x80, portaSpeed := 0, portaTo := 0,
        arpPhase := 0, arpParam := 0, vibSpeed := 0, vibDepth := 0, vibPhase := 0, tremSpeed := 0, tremDepth := 0,
        tremPhase := 0, volSlide := 0, cutTimer := 0, relTimer := 0, voldTimer := 0, newVol := 0, transTimer := 0,
        transAmount := 0, transDown := false, duty := 0, defDuty := 0, delayPending := false, delayTimer := 0,
        delayEvent := ⟨0, 0, 16, 0xFF, [⟨0, 0⟩, ⟨0, 0⟩, ⟨0, 0⟩, ⟨0, 0⟩]⟩, echo := [.empty, .empty, .empty, .empty],
        free := (State.reset.chans.get i).free }

/-- RESET gives every channel field its reset value but the identity, sets the channel's two mixer bits and writes three
zeros, low period byte first (40_row_commands.md R140 to R142). -/
def Obligations.ResetCommandClearsTheChannel : Prop :=
  ∀ (s : State) (i : Fin 3),
    ∃ k, exec (.reset (BitVec.ofNat 4 i)) s =
      .next { s with
        chans := s.chans.set i
          { chipId := (s.chans.get i).chipId, chIdx := (s.chans.get i).chIdx, note := 0, trigger := false,
            gate := false, release := false, inst := 0xFF, instType := .none, handler := none, forceReload := false,
            vol := 120, defVol := 120, instVol := 0, eff := .none, effParam := 0, period := 0, pitchWheel := 0,
            finePitch := 0x80, portaSpeed := 0, portaTo := 0, arpPhase := 0, arpParam := 0, vibSpeed := 0,
            vibDepth := 0, vibPhase := 0, tremSpeed := 0, tremDepth := 0, tremPhase := 0, volSlide := 0, cutTimer := 0,
            relTimer := 0, voldTimer := 0, newVol := 0, transTimer := 0, transAmount := 0, transDown := false, duty := 0,
            defDuty := 0, delayPending := false, delayTimer := 0,
            delayEvent := ⟨0, 0, 16, 0xFF, [⟨0, 0⟩, ⟨0, 0⟩, ⟨0, 0⟩, ⟨0, 0⟩]⟩,
            echo := [.empty, .empty, .empty, .empty], free := k }
        shr := { s.shr with mixer := s.shr.mixer ||| BitVec.ofNat 8 (2 ^ i.val + 2 ^ (3 + i.val)) }
        out := s.out ++
          [(BitVec.ofNat 8 (2 * i), 0), (BitVec.ofNat 8 (2 * i + 1), 0), (BitVec.ofNat 8 (8 + i), 0)] }

/-! ### The other host commands -/

/-- NOP and the six reserved opcodes change no state and emit nothing; a reserved opcode takes its one word
(40_row_commands.md R180, 30_encoding.md R121). -/
def Obligations.NopAndReservedChangeNothing : Prop :=
  (∀ s : State, exec .nop s = .next s) ∧
  (∀ s : State, exec .reservedA s = .next s ∧ exec .reservedB s = .next s ∧ exec .reservedC s = .next s ∧
    exec .reservedD s = .next s ∧ exec .reservedE s = .next s ∧ exec .reservedF s = .next s) ∧
  ∀ (s : State) (w : Word) (ws : List Word),
    s.inp = w :: ws → 0xA000 ≤ w.toNat → step s = .next { s with inp := ws }

/-- SETCFG takes bit 0 and bit 1 of its argument, and its channel field is not looked at; SETPITCH clamps its signed
word to -511..511 (40_row_commands.md R181, R183, 30_encoding.md R102). -/
def Obligations.SetcfgAndSetpitchWrite : Prop :=
  (∀ (s : State) (arg : Byte),
    exec (.setcfg arg) s =
      .next { s with
        cfgReg := { cutSilent := decide (arg.toNat % 2 = 1), linearPitch := decide (arg.toNat / 2 % 2 = 1) } }) ∧
  (∀ (w : Word) (ws : List Word), w.toNat / 4096 = 9 →
    decode .host (w :: ws) = .ok (.setcfg (BitVec.ofNat 8 (w.toNat % 256)), ws)) ∧
  ∀ (s : State) (i : Fin 3) (w : Word),
    exec (.setpitch (BitVec.ofNat 4 i) w) s =
      .next (s.withChan i { s.chans.get i with pitchWheel := max (-511) (min w.toInt 511) })

/-- FORCERELOAD sets the flag, and the next row with no note and no instrument then loads the current instrument again
(40_row_commands.md R155, R182, vector N9). That this holds of the empty event too, of which 30_encoding.md R108 says
without a condition that it changes nothing, is the model's inference (log 30). -/
def Obligations.ForcereloadReloadsAtTheNextRow : Prop :=
  ∀ (s : State) (i : Fin 3) (oct : BitVec 3),
    exec (.forcereload (BitVec.ofNat 4 i)) s = .next (s.withChan i { s.chans.get i with forceReload := true }) ∧
    execAll [.forcereload (BitVec.ofNat 4 i), .nNone (BitVec.ofNat 4 i) oct 16] s =
      .next (s.withChan i
        (loadOrRetrigger s.mem (s.chans.get i).inst true false { s.chans.get i with forceReload := true }))

/-! ### Rules over all instructions -/

/-- A command addressed to a channel the chip does not have changes no state and emits nothing, and its words are taken
(30_encoding.md R100); the element rows do the same (log 2). -/
def Obligations.AbsentChannelDoesNothing : Prop :=
  ∀ (i : Instr) (c : Chan) (s : State), channelOf i = some c → 3 ≤ c.toNat →
    exec i s = .next s ∧
    ∀ rest, decode .host s.inp = .ok (i, rest) → step s = .next { s with inp := rest }

/-- Every instruction completes, reads but never writes the tables and the port, and only appends to the output
(60_exceptions.md R376, 20_memory.md R79, 10_state.md R59). -/
def Obligations.EveryInstructionCompletes : Prop :=
  ∀ (i : Instr) (s : State),
    ∃ t, exec i s = .next t ∧ t.mem = s.mem ∧ t.inp = s.inp ∧ ∃ ws, t.out = s.out ++ ws

/-- Every instruction completes and leaves every field in its range and the invariants of the channels as they are
required: from any state that meets them (60_exceptions.md R376; 10_state.md R26, R32, R49; 43_period_volume.md R266).
The range of `porta_to` rests on the model's inference of log 31 (in linear pitch mode on log 9), that of a
cursor on item counts of at most SEQ_MAX (20_memory.md R73; log 34), and an ended cursor may stand at SEQ_MAX (log 27). -/
def Obligations.EveryInstructionKeepsTheInvariant : Prop :=
  ∀ (i : Instr) (s : State), WellFormed i → StateInv s →
    ∃ t, exec i s = .next t ∧ StateInv t ∧
      ∀ j, (t.chans.get j).gate = false → calculateVolume t.env (t.chans.get j) = 0

/-- Every step completes and keeps the invariant, from any state that meets it (60_exceptions.md R376). -/
def Obligations.EveryStepKeepsTheInvariant : Prop :=
  ∀ s : State, StateInv s → ∃ t, step s = .next t ∧ StateInv t

/-- The invariant holds after power-on. -/
def Obligations.InvariantHoldsAtPowerOn : Prop := StateInv State.reset

/-- An instruction addressed to channel `i` changes no other channel, CFG or table, and what it does depends on that
channel, the shared resource, CFG and the tables only (20_memory.md R91). -/
def Obligations.ChannelsAreIsolated : Prop :=
  ∀ (x : Instr) (i : Fin 3) (s s' : State), channelOf x = some (BitVec.ofNat 4 i) →
    s.chans.get i = s'.chans.get i → s.shr = s'.shr → s.cfgReg = s'.cfgReg → s.mem = s'.mem →
    ∃ ch shr ws,
      exec x s = .next { s with chans := s.chans.set i ch, shr := shr, out := s.out ++ ws } ∧
      exec x s' = .next { s' with chans := s'.chans.set i ch, shr := shr, out := s'.out ++ ws }

/-- Only SETCFG writes CFG (10_state.md R60), nothing writes a channel's identity (R20), and of the host commands only
RESET, REFRESH, COMMIT and TICK write the register port (20_memory.md R79): the rows, the effects and the sequence items
emit nothing (41_effects.md R190, 44_sequence_engine.md R280). -/
def Obligations.WritersOfCfgIdentityAndPort : Prop :=
  ∀ (x : Instr) (s : State), ∃ t, exec x s = .next t ∧
    ((∀ arg, x ≠ .setcfg arg) → t.cfgReg = s.cfgReg) ∧
    (∀ i, (t.chans.get i).chipId = (s.chans.get i).chipId ∧ (t.chans.get i).chIdx = (s.chans.get i).chIdx) ∧
    (x.ctx ≠ .port → x ≠ .commit → x ≠ .tick → (∀ c, x ≠ .reset c) → (∀ c, x ≠ .refresh c) → t.out = s.out)

/-! ### Effects -/

/-- FX_VIBRATO and FX_TREMOLO: speed from the high nibble, depth from the low; parameter 0 clears the phase; both kinds
are handled (41_effects.md R194, R195). -/
def Obligations.ModulatorEffectsWrite : Prop :=
  ∀ (s : State) (i : Fin 3) (p : Byte),
    let ch := s.chans.get i
    exec (.fxVibrato (BitVec.ofNat 4 i) p) s =
      .next (s.withChan i
        { ch with
          vibSpeed := BitVec.ofNat 4 (p.toNat / 16)
          vibDepth := BitVec.ofNat 4 (p.toNat % 16)
          vibPhase := if p = 0 then 0 else ch.vibPhase }) ∧
    exec (.fxTremolo (BitVec.ofNat 4 i) p) s =
      .next (s.withChan i
        { ch with
          tremSpeed := BitVec.ofNat 4 (p.toNat / 16)
          tremDepth := BitVec.ofNat 4 (p.toNat % 16)
          tremPhase := if p = 0 then 0 else ch.tremPhase }) ∧
    ∀ (e : Env) (x : Cx), (handleEffect e x ⟨0x02, p⟩).2 = true ∧ (handleEffect e x ⟨0x03, p⟩).2 = true

/-- The effects that only store operands: FX_FINE_PITCH, FX_VOL_SLIDE, FX_DELAYED_VOL, FX_TRANSPOSE, FX_DUTY;
all are handled (41_effects.md R197, R207, R210, R211, R212). That FX_VOL_SLIDE:00 sets `def_vol` is a choice of the spec
which the source leaves open (93_implementation_defined.md U3; log 20). -/
def Obligations.StoringEffectsWrite : Prop :=
  ∀ (s : State) (i : Fin 3) (p : Byte),
    let c : Chan := BitVec.ofNat 4 i
    let ch := s.chans.get i
    exec (.fxFinePitch c p) s = .next (s.withChan i { ch with finePitch := p }) ∧
    exec (.fxVolSlide c p) s =
      .next (s.withChan i { ch with volSlide := p, defVol := if p = 0 then ch.vol else ch.defVol }) ∧
    exec (.fxDelayedVol c p) s =
      .next (s.withChan i
        { ch with voldTimer := BitVec.ofNat 5 (p.toNat / 16 + 1), newVol := BitVec.ofNat 7 (p.toNat % 16 * 8) }) ∧
    exec (.fxTranspose c p) s =
      .next (s.withChan i
        { ch with
          transTimer := BitVec.ofNat 4 (p.toNat / 16 % 8 + 1)
          transAmount := BitVec.ofNat 4 (p.toNat % 16)
          transDown := decide (128 ≤ p.toNat) }) ∧
    exec (.fxDuty c p) s = .next (s.withChan i { ch with duty := p, defDuty := p }) ∧
    ∀ (e : Env) (x : Cx) (kind : Byte), kind ∈ ([0x05, 0x0A, 0x0D, 0x0E, 0x0F] : List Byte) →
      (handleEffect e x ⟨kind, p⟩).2 = true

/-- FX_NOTE_CUT and FX_NOTE_RELEASE load their timer with the parameter plus one; a parameter of 0x80 or above is
rejected, is not handled and changes nothing (41_effects.md R208, R209). -/
def Obligations.TimerEffectsLoadOrReject : Prop :=
  ∀ (s : State) (i : Fin 3) (p : Byte),
    let c : Chan := BitVec.ofNat 4 i
    let ch := s.chans.get i
    exec (.fxNoteCut c p) s =
      (if p.toNat < 128 then .next (s.withChan i { ch with cutTimer := BitVec.ofNat 8 (p.toNat + 1) }) else .next s) ∧
    exec (.fxNoteRelease c p) s =
      (if p.toNat < 128 then .next (s.withChan i { ch with relTimer := BitVec.ofNat 8 (p.toNat + 1) }) else .next s) ∧
    ∀ (e : Env) (x : Cx),
      (handleEffect e x ⟨0x0B, p⟩).2 = decide (p.toNat < 128) ∧ (handleEffect e x ⟨0x0C, p⟩).2 = decide (p.toNat < 128)

/-- The four chip effects write the shared resource only and are handled before the universal table, which the chip's
table leaves alone (41_effects.md R215 to R219). -/
def Obligations.ChipEffectsWriteTheSharedResource : Prop :=
  ∀ (s : State) (i : Fin 3) (p : Byte),
    let c : Chan := BitVec.ofNat 4 i
    exec (.fxEnvLo c p) s =
      .next { s with shr := { s.shr with envPeriod := BitVec.ofNat 16 (s.shr.envPeriod.toNat / 256 * 256 + p.toNat) } } ∧
    exec (.fxEnvHi c p) s =
      .next { s with shr := { s.shr with envPeriod := BitVec.ofNat 16 (p.toNat * 256 + s.shr.envPeriod.toNat % 256) } } ∧
    exec (.fxEnvShape c p) s =
      .next { s with shr := { s.shr with envShape := BitVec.ofNat 4 (p.toNat % 16), update := true } } ∧
    exec (.fxNoise c p) s = .next { s with shr := { s.shr with noisePeriod := BitVec.ofNat 5 (p.toNat % 32) } } ∧
    ∀ (kind : Byte) (g : Shared), (∃ g', chipEffect ⟨kind, p⟩ g = some g') ↔ 0x80 ≤ kind.toNat ∧ kind.toNat ≤ 0x83

/-- FX_NONE and every kind of neither table are not handled and change nothing, whatever the parameter; so is FX_DELAY
for HandleEffect (41_effects.md R191, R192). -/
def Obligations.EmptyAndUnknownEffectsChangeNothing : Prop :=
  (∀ (s : State) (c : Chan) (p : Byte), exec (.fxNone c p) s = .next s) ∧
  (∀ (s : State) (c : Chan) (kind p : Byte), exec (.fxUnknown c kind p) s = .next s) ∧
  ∀ (e : Env) (x : Cx) (f : Fx), f.kind = 0 ∨ (0x10 ≤ f.kind.toNat ∧ f.kind.toNat ≤ 0x7F) ∨ 0x84 ≤ f.kind.toNat →
    handleEffect e x f = (x, false)

/-- A command of a slot kind with parameter 0 exits whatever kind is active; leaving an arpeggio settles the period on
the plain note. With another parameter FX_PORTA_UP, FX_PORTA_DOWN and FX_ARPEGGIO take the slot; the arpeggio phase
survives from arpeggio to arpeggio only; all three kinds are handled (41_effects.md R196, R198, R199, R203). -/
def Obligations.UnaimedSlotEffectsEnterAndExit : Prop :=
  ∀ (s : State) (i : Fin 3) (p : Byte),
    let c : Chan := BitVec.ofNat 4 i
    let ch := s.chans.get i
    let exited (k : Nat) : Channel :=
      { ch with
        period := if ch.eff = .arpeggio then min (triggerNote s.env ch ch.note.toNat) 4095 else ch.period
        arpPhase := 0, eff := .none, effParam := 0, portaSpeed := 0, portaTo := 0, free := k }
    (∃ k, exec (.fxPortaUp c p) s =
      .next (s.withChan i
        (if p = 0 then exited k else { ch with arpPhase := 0, eff := .portaUp, effParam := p, portaSpeed := p }))) ∧
    (∃ k, exec (.fxPortaDown c p) s =
      .next (s.withChan i
        (if p = 0 then exited k else { ch with arpPhase := 0, eff := .portaDown, effParam := p, portaSpeed := p }))) ∧
    (∃ k, exec (.fxArpeggio c p) s =
      .next (s.withChan i
        (if p = 0 then { exited k with arpParam := 0 }
         else
          { ch with
            arpParam := p, arpPhase := if ch.eff = .arpeggio then ch.arpPhase else 0, eff := .arpeggio, effParam := p }))) ∧
    ∀ (e : Env) (x : Cx) (kind : Byte), kind ∈ ([0x04, 0x06, 0x07] : List Byte) → (handleEffect e x ⟨kind, p⟩).2 = true

/-- FX_PORTAMENTO, FX_SLIDE_UP and FX_SLIDE_DOWN with a parameter other than 0 take the slot and compute the target at
once; the slides move the note itself, clamped to 0..255, and their speed is twice the high nibble plus one. With
parameter 0 they exit; all three kinds are handled (41_effects.md R193, R200, R201, R203, R206). That a target above
PERIOD_MAX, which only a note-table entry nobody installed gives, is cut to PERIOD_MAX is the model's inference from
10_state.md R36 and 60_exceptions.md R376 (log 31). -/
def Obligations.AimedSlotEffectsSetTheirTarget : Prop :=
  ∀ (s : State) (i : Fin 3) (p : Byte),
    let c : Chan := BitVec.ofNat 4 i
    let ch := s.chans.get i
    let target (n : Nat) : Nat := triggerNote s.env ch n
    let exited (k : Nat) : Channel :=
      { ch with
        period := if ch.eff = .arpeggio then min (target ch.note.toNat) 4095 else ch.period
        arpPhase := 0, eff := .none, effParam := 0, portaSpeed := 0, portaTo := 0, free := k }
    let up := min (ch.note.toNat + p.toNat % 16) 255
    let down := ch.note.toNat - p.toNat % 16
    let speed : Byte := BitVec.ofNat 8 (p.toNat / 16 * 2 + 1)
    (∃ k, exec (.fxPortamento c p) s =
      .next (s.withChan i
        (if p = 0 then exited k
         else
          { ch with
            arpPhase := 0, eff := .portamento, effParam := p, portaSpeed := p, portaTo := min (target ch.note.toNat) 4095,
            free := k }))) ∧
    (∃ k, exec (.fxSlideUp c p) s =
      .next (s.withChan i
        (if p = 0 then exited k
         else
          { ch with
            arpPhase := 0, eff := .slideUp, effParam := p, note := BitVec.ofNat 8 up, portaSpeed := speed,
            portaTo := min (target up) 4095, free := k }))) ∧
    (∃ k, exec (.fxSlideDown c p) s =
      .next (s.withChan i
        (if p = 0 then exited k
         else
          { ch with
            arpPhase := 0, eff := .slideDown, effParam := p, note := BitVec.ofNat 8 down, portaSpeed := speed,
            portaTo := min (target down) 4095, free := k }))) ∧
    ∀ (e : Env) (x : Cx) (kind : Byte), kind ∈ ([0x01, 0x08, 0x09] : List Byte) → (handleEffect e x ⟨kind, p⟩).2 = true

/-! ### Notes and rows -/

/-- The word of a pitch note plays note number `oct * 12 + k` (30_encoding.md R105): echo push, cleared timers, volume
column, period or glide target, flags, slide target and instrument trigger as 40_row_commands.md R151 to R167 say. Under
a portamento on a silent channel the target stays, as R163 has it (log 29); a target above PERIOD_MAX is cut to it
(log 31). -/
def Obligations.PitchWordsPlayTheNote : Prop :=
  ∀ (s : State) (i : Fin 3) (k : Fin 12) (oct : BitVec 3) (volc : BitVec 5),
    ∃ m, exec (pitchWord k (BitVec.ofNat 4 i) oct volc) s =
      .next (s.withChan i
        (headFinished s.env (oct.toNat * 12 + k) volc 0xFF m (headOpened (oct.toNat * 12 + k) (s.chans.get i))))

/-- The words with no note head: N_NONE applies its volume column; N_HALT pushes a halt marker and cuts; N_RELEASE
releases the handler once and sets the flag. A forced reload then loads the current instrument without a trigger
(40_row_commands.md R151, R154, R156, R158, R161, R162). That it does so on N_NONE with no volume column too, which is
the empty event, is the model's inference against 30_encoding.md R108 (log 30). -/
def Obligations.NoteWordsWithoutHead : Prop :=
  ∀ (s : State) (i : Fin 3) (oct : BitVec 3) (volc : BitVec 5),
    let c : Chan := BitVec.ofNat 4 i
    let ch := s.chans.get i
    let voiced := columnVolume volc ch
    exec (.nNone c oct volc) s = .next (s.withChan i (reloadIf s.mem ch.inst voiced)) ∧
    exec (.nHalt c oct volc) s =
      .next (s.withChan i (reloadIf s.mem ch.inst
        { voiced with
          echo := (.halt :: ch.echo).take 4, gate := false, release := false, trigger := false, period := 0,
          portaTo := 0 })) ∧
    exec (.nRelease c oct volc) s =
      .next (s.withChan i (reloadIf s.mem ch.inst
        { voiced with
          release := true
          handler :=
            if ch.release = true then ch.handler else ch.handler.map fun h => h.mapSlots (releaseSlot s.mem) }))

/-- N_ECHO plays the slot of the echo buffer its octave field names: an index of 4 or more or an empty slot is no note,
a halt marker a halt, a note that note, pushed again as the newest (40_row_commands.md R150, R151). -/
def Obligations.EchoWordRecalls : Prop :=
  ∀ (s : State) (i : Fin 3) (oct : BitVec 3) (volc : BitVec 5),
    let c : Chan := BitVec.ofNat 4 i
    let ch := s.chans.get i
    (4 ≤ oct.toNat → exec (.nEcho c oct volc) s = exec (.nNone c 0 volc) s) ∧
    (oct.toNat < 4 → ch.echo[oct.toNat]? = some .empty → exec (.nEcho c oct volc) s = exec (.nNone c 0 volc) s) ∧
    (oct.toNat < 4 → ch.echo[oct.toNat]? = some .halt → exec (.nEcho c oct volc) s = exec (.nHalt c 0 volc) s) ∧
    ∀ n : Byte, oct.toNat < 4 → ch.echo[oct.toNat]? = some (.note n) →
      ∃ m, exec (.nEcho c oct volc) s =
        .next (s.withChan i (headFinished s.env n.toNat volc 0xFF m (headOpened n.toNat ch)))

/-- The instrument word: hold and none keep the current instrument; another index, or a forced reload, loads without a
trigger (40_row_commands.md R155, R156). FX_DELAY alone: a parameter other than 0 buffers a row with nothing in it;
parameter 0 is no delay and the row is handled at once (R144); with a row still buffered that row is handled first
(R143, R146). The row such a word stands for: log 3. That a forced reload acts where that row is the empty event (the
instrument word of INST_NONE, FX_DELAY with parameter 0) is the model's inference against 30_encoding.md R108 (log 30). -/
def Obligations.InstrumentAndDelayWords : Prop :=
  ∀ (s : State) (i : Fin 3) (b : Byte),
    let ch := s.chans.get i
    exec (.neW1 (BitVec.ofNat 4 i) b) s =
      .next (s.withChan i (reloadIf s.mem (if b = 0xFE ∨ b = 0xFF then ch.inst else b) ch)) ∧
    (ch.delayPending = false →
      exec (.fxDelay (BitVec.ofNat 4 i) b) s =
        .next (s.withChan i
          (if b = 0 then reloadIf s.mem ch.inst ch
           else
            { ch with
              delayPending := true
              delayTimer := b
              delayEvent := ⟨0, 0, 16, 0xFF, [⟨0, 0⟩, ⟨0, 0⟩, ⟨0, 0⟩, ⟨0, 0⟩]⟩ }))) ∧
    (ch.delayPending = true →
      let flushed := s.putCx i (handleNoteData s.env ch.delayEvent ⟨{ ch with delayPending := false }, s.shr⟩)
      (flushed.chans.get i).delayPending = false ∧
      exec (.fxDelay (BitVec.ofNat 4 i) b) s = exec (.fxDelay (BitVec.ofNat 4 i) b) flushed)

/-- A missing or incompatible instrument is skipped: nothing of the channel changes and there is no trigger
(40_row_commands.md R165, 60_exceptions.md R373). That it is skipped at a note head too when the entry became one after it
was loaded is the model's inference against 70_reset_and_hazards.md R421 (log 33). -/
def Obligations.UnloadableInstrumentIsSkipped : Prop :=
  ∀ (m : Memory) (i : Byte) (reload head : Bool) (ch : Channel),
    i = 0xFF ∨ 64 ≤ i.toNat ∨ (m.instRead i).type = .none ∨ (m.instRead i).type = .sample →
    loadOrRetrigger m i reload head ch = ch

/-- A loadable entry: the handler is replaced only when its type differs, its slots are loaded, the channel records the
instrument, and a note head then triggers it. With no reload and a handler there, the load is left out
(40_row_commands.md R166, 70_reset_and_hazards.md R403). -/
def Obligations.LoadableInstrumentIsLoaded : Prop :=
  ∀ (m : Memory) (i : Byte) (reload head : Bool) (ch : Channel),
    let en := m.instRead i
    let fresh : Handler :=
      { type := en.type
        slots := ⟨⟨none, .disabled, 0⟩, ⟨none, .disabled, 0⟩, ⟨none, .disabled, 0⟩, ⟨none, .disabled, 0⟩,
                  ⟨none, .disabled, 0⟩⟩
        noteOff := 0, pitchOff := 0 }
    let kept : Handler := match ch.handler with
      | some h => if h.type = en.type then h else fresh
      | none => fresh
    let loaded : Channel :=
      if reload = true ∨ ch.handler = none then
        { ch with handler := some (loadInstrument m en kept), inst := i, instType := en.type, forceReload := false }
      else ch
    i.toNat < 64 → en.type = .native ∨ en.type = .foreign →
    loadOrRetrigger m i reload head ch = if head = true then triggerInstrument m loaded else loaded

/-- LoadInstrument, TriggerInstrument and ReleaseInstrument on the slot of each kind (44_sequence_engine.md R288, R289,
R291), with what TriggerInstrument does beside the slots. -/
def Obligations.InstrumentOperationsOnSlots : Prop :=
  (∀ (m : Memory) (en : InstEntry) (h : Handler) (k : Kind),
    let s := en.seq.get k
    let sl := h.slots.get k
    (loadInstrument m en h).slots.get k =
      (if en.en.get k = false ∨ (m.seqRead k s).items = [] then ⟨none, .disabled, 0⟩
       else if sl.bound = some s ∧ sl.st ≠ .disabled then sl
       else ⟨some s, .running, 0⟩) ∧
    (loadInstrument m en h).type = h.type ∧ (loadInstrument m en h).noteOff = h.noteOff ∧
    (loadInstrument m en h).pitchOff = h.pitchOff) ∧
  (∀ (m : Memory) (ch : Channel) (h : Handler), ch.handler = some h →
    ∃ h', triggerInstrument m ch =
      { ch with handler := some h', duty := ch.defDuty, instVol := if ch.gate = true then 15 else ch.instVol } ∧
    h'.type = h.type ∧ h'.noteOff = 0 ∧ h'.pitchOff = 0 ∧
    ∀ k, h'.slots.get k =
      match (h.slots.get k).bound with
      | none => h.slots.get k
      | some s =>
        if (m.seqRead k s).items = [] then ⟨some s, .disabled, (h.slots.get k).pos⟩ else ⟨some s, .running, 0⟩) ∧
  ∀ (m : Memory) (ch : Channel) (h : Handler), ch.handler = some h →
    ∃ h', releaseInstrument m ch = { ch with handler := some h' } ∧
    h'.type = h.type ∧ h'.noteOff = h.noteOff ∧ h'.pitchOff = h.pitchOff ∧
    ∀ k, h'.slots.get k =
      match (h.slots.get k).bound with
      | none => h.slots.get k
      | some s =>
        if ch.release = false ∧ (h.slots.get k).st ≠ .disabled ∧
            (m.seqRead k s).release.toNat < (m.seqRead k s).items.length then
          ⟨some s, .running, (m.seqRead k s).release.toNat⟩
        else h.slots.get k

/-- PLAY with a delay column buffers the row with every delay column emptied, for as many ticks as its first delay
column with a parameter other than 0 says; the row itself does nothing yet (40_row_commands.md R143, R144). -/
def Obligations.PlayBuffersADelayedRow : Prop :=
  ∀ (s : State) (i : Fin 3) (ev : NoteEvent) (before after : List Fx) (n : Byte),
    (s.chans.get i).delayPending = false → ev.fx = before ++ ⟨0x10, n⟩ :: after → n ≠ 0 →
    (∀ f ∈ before, f.kind = 0x10 → f.param = 0) →
    exec (.play (BitVec.ofNat 4 i) ev) s =
      .next (s.withChan i
        { s.chans.get i with
          delayPending := true
          delayTimer := n
          delayEvent := { ev with fx := ev.fx.map fun f => if f.kind = 0x10 then ⟨0, 0⟩ else f } })

/-- PLAY on a channel with a row still buffered first handles that row, then treats the new one as if it had come alone
(40_row_commands.md R143, R146). -/
def Obligations.PlayFlushesTheBufferedRow : Prop :=
  ∀ (s : State) (i : Fin 3) (ev : NoteEvent), (s.chans.get i).delayPending = true →
    let flushed := s.putCx i
      (handleNoteData s.env (s.chans.get i).delayEvent ⟨{ s.chans.get i with delayPending := false }, s.shr⟩)
    (flushed.chans.get i).delayPending = false ∧
    exec (.play (BitVec.ofNat 4 i) ev) s = exec (.play (BitVec.ofNat 4 i) ev) flushed

/-- A row with no note is its effect columns, in order, each as the effect word alone, then its volume column and its
instrument, which is loaded without a trigger if it differs or is forced. With no volume, no instrument and no forced
reload it is its columns and nothing else. An FX_DELAY column with parameter 0 is no delay and does nothing
(40_row_commands.md R144, R148, R153 to R156, R158, 41_effects.md R190, R191). That a forced reload acts on the empty
event too is the model's inference against 30_encoding.md R108 (log 30). -/
def Obligations.EffectRowIsItsColumnsInOrder : Prop :=
  ∀ (s : State) (i : Fin 3) (ev : NoteEvent),
    let c : Chan := BitVec.ofNat 4 i
    let words := (ev.fx.filter fun f => f.kind ≠ 0x10).map (decodeFx c)
    (s.chans.get i).delayPending = false → ev.note = 0 → (∀ f ∈ ev.fx, f.kind = 0x10 → f.param = 0) →
    (∃ t, execAll words s = .next t ∧
      exec (.play c ev) s =
        .next (t.withChan i
          (reloadIf s.mem (if ev.inst = 0xFE ∨ ev.inst = 0xFF then (t.chans.get i).inst else ev.inst)
            (columnVolume ev.volc (t.chans.get i))))) ∧
    ((s.chans.get i).forceReload = false → 16 ≤ ev.volc.toNat → ev.inst = 0xFE ∨ ev.inst = 0xFF →
      exec (.play c ev) s = execAll words s)

/-- A row with a note head, a pitch note or an echo of one, opens with the echo push and the cleared timers, then runs
its effect columns in order, then the volume column, the note, the slide target and the instrument (40_row_commands.md
R148, R150). Under a portamento on a silent channel the target stays, as R163 has it (log 29). -/
def Obligations.NoteRowRunsItsStepsInOrder : Prop :=
  ∀ (s : State) (i : Fin 3) (ev : NoteEvent) (n : Nat),
    let c : Chan := BitVec.ofNat 4 i
    let ch := s.chans.get i
    let words := (ev.fx.filter fun f => f.kind ≠ 0x10).map (decodeFx c)
    ch.delayPending = false → (∀ f ∈ ev.fx, f.kind = 0x10 → f.param = 0) →
    (1 ≤ ev.note.toNat ∧ ev.note.toNat ≤ 12 ∧ n = ev.oct.toNat * 12 + (ev.note.toNat - 1)) ∨
      (ev.note = 15 ∧ ev.oct.toNat < 4 ∧ ∃ b : Byte, ch.echo[ev.oct.toNat]? = some (.note b) ∧ n = b.toNat) →
    ∃ t m, execAll words (s.withChan i (headOpened n ch)) = .next t ∧
      exec (.play c ev) s = .next (t.withChan i (headFinished s.env n ev.volc ev.inst m (t.chans.get i)))

/-- The rows of a halt (or an echo of one) and of a release run their effect columns in order, then the volume column,
then the cut or the release; whatever instrument the row names, only a forced reload of the current one loads, without a
trigger. A halt pushes its marker first. An echo past the buffer, or of an empty slot, is the row with no note
(40_row_commands.md R148, R150, R151, R153 to R156, R161, R162). -/
def Obligations.HaltReleaseAndMissedEchoRows : Prop :=
  ∀ (s : State) (i : Fin 3) (ev : NoteEvent),
    let c : Chan := BitVec.ofNat 4 i
    let ch := s.chans.get i
    let words := (ev.fx.filter fun f => f.kind ≠ 0x10).map (decodeFx c)
    ch.delayPending = false → (∀ f ∈ ev.fx, f.kind = 0x10 → f.param = 0) →
    (ev.note = 13 ∨ (ev.note = 15 ∧ ev.oct.toNat < 4 ∧ ch.echo[ev.oct.toNat]? = some .halt) →
      ∃ t, execAll words (s.withChan i { ch with echo := (.halt :: ch.echo).take 4 }) = .next t ∧
        let voiced := columnVolume ev.volc (t.chans.get i)
        exec (.play c ev) s =
          .next (t.withChan i (reloadIf s.mem voiced.inst
            { voiced with gate := false, release := false, trigger := false, period := 0, portaTo := 0 }))) ∧
    (ev.note = 14 →
      ∃ t, execAll words s = .next t ∧
        let voiced := columnVolume ev.volc (t.chans.get i)
        exec (.play c ev) s =
          .next (t.withChan i (reloadIf s.mem voiced.inst
            { voiced with
              release := true
              handler :=
                if voiced.release = true then voiced.handler
                else voiced.handler.map fun h => h.mapSlots (releaseSlot s.mem) }))) ∧
    (ev.note = 15 → 4 ≤ ev.oct.toNat ∨ ch.echo[ev.oct.toNat]? = some .empty →
      exec (.play c ev) s = exec (.play c { ev with note := 0 }) s)

/-! ### PROCESS -/

/-- PROCESS is the nine steps in their order, on the channel and the shared resource, and emits nothing
(42_tick_update.md R230, R245). -/
def Obligations.ProcessRunsItsNineStepsInOrder : Prop :=
  ∀ (s : State) (i : Fin 3),
    let e := s.env
    let x1 := updateDelay e ⟨s.chans.get i, s.shr⟩
    let c2 := updateNoteCut x1.ch
    let c3 := updateNoteRelease e c2
    let c4 := updateDelayedVolume c3
    let c5 := updateTranspose e c4
    let c6 := updateVolumeSlide c5
    let c7 := updateVibratoTremolo c6
    let c8 := updateEffects e c7
    exec (.process (BitVec.ofNat 4 i)) s =
      .next { s with
        chans := s.chans.set i (if c8.handler = none then c8 else updateInstrument e c8)
        shr := x1.shr }

/-- Steps 1 to 7 of PROCESS: the five countdowns, which count down and then act at 0, the volume slide and the modulator
phases (42_tick_update.md R231 to R234, R237 to R239). That a delayed volume leaves `def_vol` alone is a choice of the
spec which the source leaves open (93_implementation_defined.md U3; log 20). -/
def Obligations.CountdownSlideAndPhaseSteps : Prop :=
  ∀ (e : Env) (x : Cx) (ch : Channel),
    updateDelay e x =
      (if x.ch.delayPending = false then x
       else if x.ch.delayTimer = 0 then
        handleNoteData e x.ch.delayEvent ⟨{ x.ch with delayPending := false }, x.shr⟩
       else ⟨{ x.ch with delayTimer := BitVec.ofNat 8 (x.ch.delayTimer.toNat - 1) }, x.shr⟩) ∧
    updateNoteCut ch =
      (if ch.cutTimer = 0 then ch
       else if ch.cutTimer = 1 then
        { ch with cutTimer := 0, gate := false, release := false, trigger := false, period := 0, portaTo := 0 }
       else { ch with cutTimer := BitVec.ofNat 8 (ch.cutTimer.toNat - 1) }) ∧
    updateNoteRelease e ch =
      (if ch.relTimer = 0 then ch
       else if ch.relTimer = 1 then
        { ch with
          relTimer := 0
          release := true
          handler :=
            if ch.release = true then ch.handler else ch.handler.map fun h => h.mapSlots (releaseSlot e.mem) }
       else { ch with relTimer := BitVec.ofNat 8 (ch.relTimer.toNat - 1) }) ∧
    updateDelayedVolume ch =
      (if ch.voldTimer = 0 then ch
       else if ch.voldTimer = 1 then { ch with voldTimer := 0, vol := ch.newVol }
       else { ch with voldTimer := BitVec.ofNat 5 (ch.voldTimer.toNat - 1) }) ∧
    (let moved : Nat :=
      if ch.transDown = true then ch.note.toNat - ch.transAmount.toNat else min (ch.note.toNat + ch.transAmount.toNat) 255
     ∃ k, updateTranspose e ch =
      if ch.transTimer = 0 then ch
      else if ch.transTimer = 1 then
        { ch with
          transTimer := 0, note := BitVec.ofNat 8 moved, period := min (triggerNote e ch moved) 4095, free := k }
      else { ch with transTimer := BitVec.ofNat 4 (ch.transTimer.toNat - 1) }) ∧
    updateVolumeSlide ch =
      { ch with
        vol := BitVec.ofNat 7 (min (ch.vol.toNat - ch.volSlide.toNat % 16 + ch.volSlide.toNat / 16) 127) } ∧
    updateVibratoTremolo ch =
      { ch with
        vibPhase := BitVec.ofNat 6 ((ch.vibPhase.toNat + ch.vibSpeed.toNat) % 64)
        tremPhase := BitVec.ofNat 6 ((ch.tremPhase.toNat + ch.tremSpeed.toNat) % 64) }

/-- Step 8 of PROCESS by the kind in the slot: the arpeggio's three notes in turn, the porta kinds one step of the period
saturating at its bounds, the aimed kinds one step to the target and never past it, the semitone slides cleared there
(42_tick_update.md R240 to R244). That the slides step so in linear pitch mode too is the model's choice (log 28). -/
def Obligations.ContinuousEffectStep : Prop :=
  ∀ (e : Env) (ch : Channel),
    let speed := ch.portaSpeed.toNat
    let stepped : Nat :=
      if speed = 0 ∨ ch.portaTo = 0 then ch.period
      else if ch.portaTo < ch.period then min (max (ch.period - speed) ch.portaTo) 4095
      else if ch.period < ch.portaTo then min (min (ch.period + speed) ch.portaTo) 4095
      else ch.period
    let slid : Channel :=
      if stepped = ch.portaTo then
        { ch with period := stepped, eff := .none, effParam := 0, portaSpeed := 0, portaTo := 0 }
      else { ch with period := stepped }
    let chord : Nat :=
      match ch.arpPhase with
      | 0 => ch.note.toNat
      | 1 => ch.note.toNat + ch.effParam.toNat / 16
      | 2 => ch.note.toNat + ch.effParam.toNat % 16
    ∃ k, updateEffects e ch =
      match ch.eff with
      | .none => ch
      | .arpeggio => { ch with period := min (triggerNote e ch chord) 4095, arpPhase := ch.arpPhase + 1, free := k }
      | .portamento => { ch with period := stepped }
      | .slideUp => slid
      | .slideDown => slid
      | .portaUp => { ch with period := min (ch.period - speed) 4095 }
      | .portaDown => { ch with period := min (ch.period + speed) 4095 }

/-- With no pending row, no timer, no slide, no modulator speed, no effect and no handler, PROCESS is the identity on the
whole state (42_tick_update.md R246). -/
def Obligations.IdleProcessIsTheIdentity : Prop :=
  ∀ (s : State) (i : Fin 3), Idle (s.chans.get i) → (s.chans.get i).eff = .none →
    exec (.process (BitVec.ofNat 4 i)) s = .next s

/-- A portamento on an otherwise idle channel: after any number of PROCESS commands the period has moved that many steps
toward the target and never past it, nothing else has changed, and the period is the target exactly from the
⌈|P−T|/S⌉-th PROCESS on (42_tick_update.md R242). In linear pitch mode this is the model's choice (log 28). -/
def Obligations.PortamentoConvergesWithoutOvershoot : Prop :=
  ∀ (s : State) (i : Fin 3) (n : Nat),
    let ch := s.chans.get i
    let speed := ch.portaSpeed.toNat
    let goal := ch.portaTo
    let reached := if ch.period ≤ goal then min (ch.period + n * speed) goal else max (ch.period - n * speed) goal
    let distance := if ch.period ≤ goal then goal - ch.period else ch.period - goal
    Idle ch → ch.eff = .portamento → 0 < speed → 0 < goal → goal ≤ 4095 → ch.period ≤ 4095 →
    execAll (List.replicate n (.process (BitVec.ofNat 4 i))) s = .next (s.withChan i { ch with period := reached }) ∧
    (reached = goal ↔ (distance + speed - 1) / speed ≤ n)

/-- A row buffered with delay N is silent for N PROCESS commands, which do what they would do with no row buffered, and
the next PROCESS does what a PLAY of the row followed by a PROCESS would do then (40_row_commands.md R145,
42_tick_update.md R231). -/
def Obligations.DelayedRowPlaysAfterItsTicks : Prop :=
  ∀ (s : State) (i : Fin 3),
    let c : Chan := BitVec.ofNat 4 i
    let ch := s.chans.get i
    let plain := s.withChan i { ch with delayPending := false, delayTimer := 0 }
    ch.delayPending = true → (∀ f ∈ ch.delayEvent.fx, f.kind ≠ 0x10) →
    ∃ a b t,
      execAll (List.replicate ch.delayTimer.toNat (.process c)) s = .next a ∧
      execAll (List.replicate ch.delayTimer.toNat (.process c)) plain = .next b ∧
      a = b.withChan i { b.chans.get i with delayPending := true } ∧
      exec (.process c) a = .next t ∧
      execAll [.play c ch.delayEvent, .process c] b = .next t

/-! ### The Sequence Engine -/

/-- What each item form does to the channel, in any pitch mode (44_sequence_engine.md R301 to R309, 30_encoding.md R114,
R120, R124); nothing else of the state changes. What the pitch and hi-pitch items compute in linear pitch mode is the
model's choice (log 28). -/
def Obligations.SequenceItemsAct : Prop :=
  ∀ (s : State) (i : Fin 3) (item : Byte) (limit : BitVec 6),
    let c : Chan := BitVec.ofNat 4 i
    let ch := s.chans.get i
    let v := item.toInt
    let held (p : Int) : Nat := (max 0 (min p 4095)).toNat
    let plays (x : Instr) (n : Int) (add : Int) : Prop :=
      ∃ k, exec x s = .next (s.withChan i { ch with period := held (triggerNote s.env ch n + add), free := k })
    let moved : Nat := (max 0 (min (ch.note.toNat + v) 255)).toNat
    exec (.sqVolume c item) s = .next (s.withChan i { ch with instVol := item }) ∧
    plays (.sqArpAbsolute c item) (ch.note.toNat + v) 0 ∧
    plays (.sqArpFixed c item) v 0 ∧
    (∃ k, exec (.sqArpRelative c item) s =
      .next (s.withChan i
        { ch with note := BitVec.ofNat 8 moved, period := held (triggerNote s.env ch moved), free := k })) ∧
    plays (.sqArpScheme0 c limit) (ch.note.toNat + limit.toInt) 0 ∧
    plays (.sqArpScheme1 c limit) (ch.note.toNat + (limit.toInt + ch.arpParam.toNat / 16)) 0 ∧
    plays (.sqArpScheme2 c limit) (ch.note.toNat + (limit.toInt + ch.arpParam.toNat % 16)) 0 ∧
    plays (.sqArpScheme3 c limit) (ch.note.toNat + (limit.toInt - ch.arpParam.toNat % 16)) 0 ∧
    exec (.sqPitchRelative c item) s = .next (s.withChan i { ch with period := held (ch.period + v) }) ∧
    plays (.sqPitchAbsolute c item) ch.note.toNat v ∧
    exec (.sqPitchReserved c item) s = .next s ∧
    exec (.sqHipitch c item) s = .next (s.withChan i { ch with period := held (ch.period + v * 16) }) ∧
    exec (.sqDuty c item) s = .next (s.withChan i { ch with duty := item })

/-- While a channel does not sound no slot moves; while it sounds the slots go in the order volume, arpeggio, pitch,
hi-pitch, duty. A slot that ended makes its one last action and halts; a running slot past its items ends; the others
rest (10_state.md R53, 44_sequence_engine.md R294, R295). That a running slot whose sequence became empty rests is the
model's inference against 70_reset_and_hazards.md R421 (log 32). -/
def Obligations.SlotsUpdateByTheirState : Prop :=
  (∀ (e : Env) (ch : Channel),
    updateInstrument e ch =
      if ch.gate = true then
        updateSlot e (updateSlot e (updateSlot e (updateSlot e (updateSlot e ch .volume) .arpeggio) .pitch) .hipitch) .duty
      else ch) ∧
  ∀ (e : Env) (ch : Channel) (h : Handler) (k : Kind) (b : BitVec 7), ch.handler = some h →
    let sl := h.slots.get k
    let q := e.mem.seqRead k b
    (sl.st = .disabled ∨ sl.st = .halted → updateSlot e ch k = ch) ∧
    (sl.bound = some b → sl.st = .running → q.items = [] → updateSlot e ch k = ch) ∧
    (sl.bound = some b → sl.st = .running → q.items ≠ [] → q.items.length ≤ sl.pos →
      updateSlot e ch k =
        { ch with handler := some { h with slots := h.slots.set k { sl with st := .ended } } }) ∧
    (sl.bound = some b → sl.st = .ended →
      ∃ m, updateSlot e ch k =
        { ch with
          handler := some { h with slots := h.slots.set k { sl with st := .halted } }
          period :=
            if k = .arpeggio ∧ q.setting = 1 then min (triggerNote e ch ch.note.toNat) 4095 else ch.period
          free := m })

/-- A running slot runs the item at its cursor, as that item's own instruction does, and then its cursor steps
(44_sequence_engine.md R294, R300). -/
def Obligations.RunningSlotRunsItsItem : Prop :=
  ∀ (s : State) (i : Fin 3) (h : Handler) (k : Kind) (b : BitVec 7) (item : Byte),
    let ch := s.chans.get i
    let sl := h.slots.get k
    let q := s.mem.seqRead k b
    ch.handler = some h → sl.st = .running → sl.bound = some b → q.items[sl.pos]? = some item →
    ∃ t, exec (decodeSeqItem (BitVec.ofNat 4 i) k q.setting item) s = .next t ∧
      updateSlot s.env ch k =
        { t.chans.get i with handler := some { h with slots := h.slots.set k (stepSlot q ch.release sl) } }

/-- Step: the three branches in their priority order, loop and release points at or beyond the item count absent
(44_sequence_engine.md R311, 20_memory.md R74); a slot that stays running has its cursor on an item (R314, R315). -/
def Obligations.StepBranchesInPriorityOrder : Prop :=
  ∀ (q : SeqData) (releasing : Bool) (sl : Slot),
    let n := q.items.length
    let l := q.loop.toNat
    let r := q.release.toNat
    let p := sl.pos + 1
    let next := stepSlot q releasing sl
    next =
      (if (r < n ∧ p = r + 1) ∨ n ≤ p then
        if l < n ∧ r < n ∧ l < r ∧ releasing = false then { sl with pos := l }
        else if n ≤ p then
          if l < n ∧ (n ≤ r ∨ r ≤ l) then { sl with pos := l } else { sl with pos := p, st := .ended }
        else if releasing = false then { sl with pos := sl.pos }
        else { sl with pos := p }
       else { sl with pos := p }) ∧
    (next.st = .running → sl.pos < n → next.pos < n)

/-- Where `m` steps from the start, or from the release point, take a running slot, by the shape of its sequence
(44_sequence_engine.md R312): to the end, round the loop, or to a hold on the release point. -/
def Obligations.CursorPathsByShape : Prop :=
  ∀ (q : SeqData) (b : BitVec 7) (m : Nat),
    let n := q.items.length
    let l := q.loop.toNat
    let r := q.release.toNat
    let at_ (p : Nat) : Slot := ⟨some b, .running, p⟩
    let round (from_ length : Nat) (p : Nat) : Nat := if p < length then p else from_ + (p - from_) % (length - from_)
    let path (releasing : Bool) (p : Nat) : Slot := (stepSlot q releasing)^[m] (at_ p)
    (n ≤ l → n ≤ r ∨ r + 1 = n → ∀ releasing,
      (m < n → path releasing 0 = at_ m) ∧ (0 < n → m = n → path releasing 0 = ⟨some b, .ended, n⟩)) ∧
    (l < n → n ≤ r → ∀ releasing, path releasing 0 = at_ (round l n m)) ∧
    (n ≤ l ∨ r ≤ l → r + 1 < n → path false 0 = at_ (min m r)) ∧
    (l < r → r < n → path false 0 = at_ (round l (r + 1) m)) ∧
    (n ≤ l ∨ l < r → r < n →
      (m < n - r → path true r = at_ (r + m)) ∧ (m = n - r → path true r = ⟨some b, .ended, n⟩)) ∧
    (l < n → r ≤ l → r + 1 < n → path true r = at_ (round l n (r + m)))

/-! ### Tables and the datapath -/

/-- TriggerNote clamps the note number and reads the note table in table mode; in linear mode its result is free within
0..PERIOD_MAX (40_row_commands.md R170; 43_period_volume.md R264; the bound is log 9). -/
def Obligations.TriggerNoteReadsTheClampedEntry : Prop :=
  ∀ (e : Env) (ch : Channel) (n : Int),
    (e.cfgReg.linearPitch = false →
      triggerNote e ch n = e.mem.noteTable (BitVec.ofNat 8 (max 0 (min n 255)).toNat)) ∧
    (e.cfgReg.linearPitch = true → triggerNote e ch n ≤ 4095)

/-- What the host installs is what the next read gives, every other entry reads as before, and the tables keep their
canonical form (20_memory.md R95; log 6, log 7). -/
def Obligations.InstalledEntriesRead : Prop :=
  (∀ (m : Memory) (n : Byte) (v : Word), v.toNat ≤ 4095 → m.wf = true →
    (m.installNote n v).wf = true ∧
    (∀ j, (m.installNote n v).noteTable j = if j = n then v.toNat else m.noteTable j) ∧
    (∀ j, (m.installNote n v).instRead j = m.instRead j) ∧
    ∀ k j, (m.installNote n v).seqRead k j = m.seqRead k j) ∧
  (∀ (m : Memory) (i : BitVec 6) (en : InstEntry), m.wf = true →
    (m.installInst i en).wf = true ∧
    (∀ j : Byte, (m.installInst i en).instRead j = if j.toNat = i.toNat then en else m.instRead j) ∧
    (∀ j, (m.installInst i en).noteTable j = m.noteTable j) ∧
    ∀ k j, (m.installInst i en).seqRead k j = m.seqRead k j) ∧
  ∀ (m : Memory) (k : Kind) (b : BitVec 7) (q : SeqData), q.items.length ≤ 252 → m.wf = true →
    (m.installSeq k b q).wf = true ∧
    (∀ k' j, (m.installSeq k b q).seqRead k' j = if k' = k ∧ j = b then q else m.seqRead k' j) ∧
    (∀ j, (m.installSeq k b q).noteTable j = m.noteTable j) ∧
    ∀ j, (m.installSeq k b q).instRead j = m.instRead j

/-- CalculatePeriod in table mode: the base period less the vibrato offset, plus the fine-pitch and pitch-wheel offsets,
clamped; depth 0 is no vibrato (43_period_volume.md R261 to R263, R270). -/
def Obligations.CalculatedPeriodInTableMode : Prop :=
  ∀ (e : Env) (ch : Channel),
    let entry (n : Nat) : Int := e.mem.noteTable (BitVec.ofNat 8 n)
    let span : Int :=
      if ch.pitchWheel < 0 then entry ch.note.toNat - entry (ch.note.toNat - 6)
      else entry (min (ch.note.toNat + 6) 255) - entry ch.note.toNat
    let vibrato : Int := if ch.vibDepth = 0 then 0 else Config.vibWave ch.vibDepth.toNat ch.vibPhase.toNat
    e.cfgReg.linearPitch = false →
    (calculatePeriod e ch : Int) =
      max 0 (min (ch.period - vibrato + (128 - ch.finePitch.toNat) + (span * ch.pitchWheel).tdiv 511) 4095)

/-- CalculateVolume: silent without the gate; else the product over 15 less the tremolo, within 0..15, and 1 instead of 0
under the never-silent policy (43_period_volume.md R266, R267). -/
def Obligations.CalculatedVolume : Prop :=
  ∀ (e : Env) (ch : Channel),
    let noteVolume : Nat := ch.vol.toNat / 8
    let tremolo : Int := if ch.tremDepth = 0 then 0 else Config.tremWave ch.tremDepth.toNat ch.tremPhase.toNat
    let v : Int := max 0 (min ((ch.instVol.toInt * noteVolume).tdiv 15 - tremolo) 15)
    (calculateVolume e ch : Int) =
      if ch.gate = false then 0
      else if v = 0 ∧ e.cfgReg.cutSilent = false ∧ ch.handler ≠ none ∧ 0 < noteVolume then 1
      else v

/-! ### Emission -/

/-- REFRESH writes the period low then high and the level at the channel's own addresses, rewrites its two mixer bits,
takes the noise period and the envelope flags when the channel sounds with them, and consumes the trigger
(45_chip_emission.md R331, R333 to R339). -/
def Obligations.RefreshEmitsTheChannel : Prop :=
  ∀ (s : State) (i : Fin 3),
    let ch := s.chans.get i
    let p := calculatePeriod s.env ch
    let v := calculateVolume s.env ch
    let d : Nat := if ch.instType = .foreign then 0x40 else ch.duty.toNat
    let square : Bool := decide (d / 64 % 2 = 1) && ch.gate
    let noise : Bool := decide (d / 128 % 2 = 1) && ch.gate
    let env : Bool := decide (d / 32 % 2 = 1) && ch.gate
    exec (.refresh (BitVec.ofNat 4 i)) s =
      .next { s with
        chans := s.chans.set i { ch with trigger := false }
        shr :=
          { s.shr with
            mixer := (s.shr.mixer &&& ~~~BitVec.ofNat 8 (2 ^ i.val + 2 ^ (3 + i.val))) |||
              BitVec.ofNat 8 ((if square then 0 else 2 ^ i.val) + (if noise then 0 else 2 ^ (3 + i.val)))
            noisePeriod := if noise then BitVec.ofNat 5 (d % 32) else s.shr.noisePeriod
            envAny := s.shr.envAny || env
            retrig := s.shr.retrig || (env && ch.trigger) }
        out := s.out ++
          [(BitVec.ofNat 8 (2 * ch.chIdx.toNat), BitVec.ofNat 8 (p % 256)),
           (BitVec.ofNat 8 (2 * ch.chIdx.toNat + 1), BitVec.ofNat 8 (p / 256)),
           (BitVec.ofNat 8 (8 + ch.chIdx.toNat), BitVec.ofNat 8 ((if env then 16 else 0) + v))] }

/-- COMMIT writes the four shared registers always and the shape last when the trigger condition holds, and clears the
three flags (45_chip_emission.md R340 to R342). -/
def Obligations.CommitEmitsTheSharedResource : Prop :=
  ∀ s : State,
    exec .commit s =
      .next { s with
        shr := { s.shr with envAny := false, update := false, retrig := false }
        out := s.out ++
          [(0x06, BitVec.ofNat 8 s.shr.noisePeriod.toNat), (0x07, s.shr.mixer),
           (0x0B, BitVec.ofNat 8 (s.shr.envPeriod.toNat % 256)), (0x0C, BitVec.ofNat 8 (s.shr.envPeriod.toNat / 256))] ++
          if s.shr.envAny = true ∧ (s.shr.update = true ∨ s.shr.retrig = true) then
            [(0x0D, BitVec.ofNat 8 s.shr.envShape.toNat)]
          else [] }

/-- TICK is the seven commands in their order; its writes are thirteen, at the addresses in order, and the shape as the
fourteenth when triggered (45_chip_emission.md R345, R347). -/
def Obligations.TickIsItsSevenCommands : Prop :=
  ∀ s : State,
    exec .tick s = execAll [.process 0, .process 1, .process 2, .refresh 0, .refresh 1, .refresh 2, .commit] s ∧
    (StateInv s →
      ∃ u t ws,
        execAll [.process 0, .process 1, .process 2, .refresh 0, .refresh 1, .refresh 2] s = .next u ∧
        exec .tick s = .next t ∧ t.out = s.out ++ ws ∧
        ws.map Prod.fst =
          [0x00, 0x01, 0x08, 0x02, 0x03, 0x09, 0x04, 0x05, 0x0A, 0x06, 0x07, 0x0B, 0x0C] ++
            if u.shr.envAny = true ∧ (u.shr.update = true ∨ u.shr.retrig = true) then [0x0D] else [])

/-- Every pair any well-formed instruction puts on the port names a register of the map and leaves its unused bits zero
(20_memory.md R77; 45_chip_emission.md R333, R335, R340). -/
def Obligations.EveryWriteIsOnTheRegisterMap : Prop :=
  ∀ (x : Instr) (s : State), WellFormed x → StateInv s →
    ∃ t ws, exec x s = .next t ∧ t.out = s.out ++ ws ∧
      ∀ p ∈ ws, ∃ j, decode .port [p.1 ++ p.2] = .ok (j, [])

/-- A register-write row appends its own pair, the one its word encodes, and changes nothing else (20_memory.md R76,
30_encoding.md R112). -/
def Obligations.RegisterWriteRowsAppendTheirPair : Prop :=
  ∀ (x : Instr) (s : State), x.ctx = .port →
    ∃ a v : Byte, encode x = [a ++ v] ∧ exec x s = .next { s with out := s.out ++ [(a, v)] }
end

