-- ==== Sys2Proof/Laws/State.lean ====
section
/-! SUPPORT. One lemma per field per named update of a record, true by computation: the simp set that keeps later
proofs from unfolding the updates. -/

namespace Sys2Proof.Machine

/-! ### setPeriod -/

@[simp] theorem Channel.setPeriod_chipId (ch : Channel) (v : Int) : (ch.setPeriod v).chipId = ch.chipId := rfl
@[simp] theorem Channel.setPeriod_chIdx (ch : Channel) (v : Int) : (ch.setPeriod v).chIdx = ch.chIdx := rfl
@[simp] theorem Channel.setPeriod_note (ch : Channel) (v : Int) : (ch.setPeriod v).note = ch.note := rfl
@[simp] theorem Channel.setPeriod_trigger (ch : Channel) (v : Int) : (ch.setPeriod v).trigger = ch.trigger := rfl
@[simp] theorem Channel.setPeriod_gate (ch : Channel) (v : Int) : (ch.setPeriod v).gate = ch.gate := rfl
@[simp] theorem Channel.setPeriod_release (ch : Channel) (v : Int) : (ch.setPeriod v).release = ch.release := rfl
@[simp] theorem Channel.setPeriod_inst (ch : Channel) (v : Int) : (ch.setPeriod v).inst = ch.inst := rfl
@[simp] theorem Channel.setPeriod_instType (ch : Channel) (v : Int) : (ch.setPeriod v).instType = ch.instType := rfl
@[simp] theorem Channel.setPeriod_handler (ch : Channel) (v : Int) : (ch.setPeriod v).handler = ch.handler := rfl
@[simp] theorem Channel.setPeriod_forceReload (ch : Channel) (v : Int) : (ch.setPeriod v).forceReload = ch.forceReload := rfl
@[simp] theorem Channel.setPeriod_vol (ch : Channel) (v : Int) : (ch.setPeriod v).vol = ch.vol := rfl
@[simp] theorem Channel.setPeriod_defVol (ch : Channel) (v : Int) : (ch.setPeriod v).defVol = ch.defVol := rfl
@[simp] theorem Channel.setPeriod_instVol (ch : Channel) (v : Int) : (ch.setPeriod v).instVol = ch.instVol := rfl
@[simp] theorem Channel.setPeriod_eff (ch : Channel) (v : Int) : (ch.setPeriod v).eff = ch.eff := rfl
@[simp] theorem Channel.setPeriod_effParam (ch : Channel) (v : Int) : (ch.setPeriod v).effParam = ch.effParam := rfl
@[simp] theorem Channel.setPeriod_pitchWheel (ch : Channel) (v : Int) : (ch.setPeriod v).pitchWheel = ch.pitchWheel := rfl
@[simp] theorem Channel.setPeriod_finePitch (ch : Channel) (v : Int) : (ch.setPeriod v).finePitch = ch.finePitch := rfl
@[simp] theorem Channel.setPeriod_portaSpeed (ch : Channel) (v : Int) : (ch.setPeriod v).portaSpeed = ch.portaSpeed := rfl
@[simp] theorem Channel.setPeriod_portaTo (ch : Channel) (v : Int) : (ch.setPeriod v).portaTo = ch.portaTo := rfl
@[simp] theorem Channel.setPeriod_arpPhase (ch : Channel) (v : Int) : (ch.setPeriod v).arpPhase = ch.arpPhase := rfl
@[simp] theorem Channel.setPeriod_arpParam (ch : Channel) (v : Int) : (ch.setPeriod v).arpParam = ch.arpParam := rfl
@[simp] theorem Channel.setPeriod_vibSpeed (ch : Channel) (v : Int) : (ch.setPeriod v).vibSpeed = ch.vibSpeed := rfl
@[simp] theorem Channel.setPeriod_vibDepth (ch : Channel) (v : Int) : (ch.setPeriod v).vibDepth = ch.vibDepth := rfl
@[simp] theorem Channel.setPeriod_vibPhase (ch : Channel) (v : Int) : (ch.setPeriod v).vibPhase = ch.vibPhase := rfl
@[simp] theorem Channel.setPeriod_tremSpeed (ch : Channel) (v : Int) : (ch.setPeriod v).tremSpeed = ch.tremSpeed := rfl
@[simp] theorem Channel.setPeriod_tremDepth (ch : Channel) (v : Int) : (ch.setPeriod v).tremDepth = ch.tremDepth := rfl
@[simp] theorem Channel.setPeriod_tremPhase (ch : Channel) (v : Int) : (ch.setPeriod v).tremPhase = ch.tremPhase := rfl
@[simp] theorem Channel.setPeriod_volSlide (ch : Channel) (v : Int) : (ch.setPeriod v).volSlide = ch.volSlide := rfl
@[simp] theorem Channel.setPeriod_cutTimer (ch : Channel) (v : Int) : (ch.setPeriod v).cutTimer = ch.cutTimer := rfl
@[simp] theorem Channel.setPeriod_relTimer (ch : Channel) (v : Int) : (ch.setPeriod v).relTimer = ch.relTimer := rfl
@[simp] theorem Channel.setPeriod_voldTimer (ch : Channel) (v : Int) : (ch.setPeriod v).voldTimer = ch.voldTimer := rfl
@[simp] theorem Channel.setPeriod_newVol (ch : Channel) (v : Int) : (ch.setPeriod v).newVol = ch.newVol := rfl
@[simp] theorem Channel.setPeriod_transTimer (ch : Channel) (v : Int) : (ch.setPeriod v).transTimer = ch.transTimer := rfl
@[simp] theorem Channel.setPeriod_transAmount (ch : Channel) (v : Int) : (ch.setPeriod v).transAmount = ch.transAmount := rfl
@[simp] theorem Channel.setPeriod_transDown (ch : Channel) (v : Int) : (ch.setPeriod v).transDown = ch.transDown := rfl
@[simp] theorem Channel.setPeriod_duty (ch : Channel) (v : Int) : (ch.setPeriod v).duty = ch.duty := rfl
@[simp] theorem Channel.setPeriod_defDuty (ch : Channel) (v : Int) : (ch.setPeriod v).defDuty = ch.defDuty := rfl
@[simp] theorem Channel.setPeriod_delayPending (ch : Channel) (v : Int) : (ch.setPeriod v).delayPending = ch.delayPending := rfl
@[simp] theorem Channel.setPeriod_delayTimer (ch : Channel) (v : Int) : (ch.setPeriod v).delayTimer = ch.delayTimer := rfl
@[simp] theorem Channel.setPeriod_delayEvent (ch : Channel) (v : Int) : (ch.setPeriod v).delayEvent = ch.delayEvent := rfl
@[simp] theorem Channel.setPeriod_echo (ch : Channel) (v : Int) : (ch.setPeriod v).echo = ch.echo := rfl
@[simp] theorem Channel.setPeriod_free (ch : Channel) (v : Int) : (ch.setPeriod v).free = ch.free := rfl

/-! ### setTarget -/

@[simp] theorem Channel.setTarget_chipId (ch : Channel) (p : Nat) : (ch.setTarget p).chipId = ch.chipId := rfl
@[simp] theorem Channel.setTarget_chIdx (ch : Channel) (p : Nat) : (ch.setTarget p).chIdx = ch.chIdx := rfl
@[simp] theorem Channel.setTarget_note (ch : Channel) (p : Nat) : (ch.setTarget p).note = ch.note := rfl
@[simp] theorem Channel.setTarget_trigger (ch : Channel) (p : Nat) : (ch.setTarget p).trigger = ch.trigger := rfl
@[simp] theorem Channel.setTarget_gate (ch : Channel) (p : Nat) : (ch.setTarget p).gate = ch.gate := rfl
@[simp] theorem Channel.setTarget_release (ch : Channel) (p : Nat) : (ch.setTarget p).release = ch.release := rfl
@[simp] theorem Channel.setTarget_inst (ch : Channel) (p : Nat) : (ch.setTarget p).inst = ch.inst := rfl
@[simp] theorem Channel.setTarget_instType (ch : Channel) (p : Nat) : (ch.setTarget p).instType = ch.instType := rfl
@[simp] theorem Channel.setTarget_handler (ch : Channel) (p : Nat) : (ch.setTarget p).handler = ch.handler := rfl
@[simp] theorem Channel.setTarget_forceReload (ch : Channel) (p : Nat) : (ch.setTarget p).forceReload = ch.forceReload := rfl
@[simp] theorem Channel.setTarget_vol (ch : Channel) (p : Nat) : (ch.setTarget p).vol = ch.vol := rfl
@[simp] theorem Channel.setTarget_defVol (ch : Channel) (p : Nat) : (ch.setTarget p).defVol = ch.defVol := rfl
@[simp] theorem Channel.setTarget_instVol (ch : Channel) (p : Nat) : (ch.setTarget p).instVol = ch.instVol := rfl
@[simp] theorem Channel.setTarget_eff (ch : Channel) (p : Nat) : (ch.setTarget p).eff = ch.eff := rfl
@[simp] theorem Channel.setTarget_effParam (ch : Channel) (p : Nat) : (ch.setTarget p).effParam = ch.effParam := rfl
@[simp] theorem Channel.setTarget_pitchWheel (ch : Channel) (p : Nat) : (ch.setTarget p).pitchWheel = ch.pitchWheel := rfl
@[simp] theorem Channel.setTarget_finePitch (ch : Channel) (p : Nat) : (ch.setTarget p).finePitch = ch.finePitch := rfl
@[simp] theorem Channel.setTarget_portaSpeed (ch : Channel) (p : Nat) : (ch.setTarget p).portaSpeed = ch.portaSpeed := rfl
@[simp] theorem Channel.setTarget_period (ch : Channel) (p : Nat) : (ch.setTarget p).period = ch.period := rfl
@[simp] theorem Channel.setTarget_portaTo (ch : Channel) (p : Nat) : (ch.setTarget p).portaTo = min p cfg.periodMax := rfl
@[simp] theorem Channel.setTarget_arpPhase (ch : Channel) (p : Nat) : (ch.setTarget p).arpPhase = ch.arpPhase := rfl
@[simp] theorem Channel.setTarget_arpParam (ch : Channel) (p : Nat) : (ch.setTarget p).arpParam = ch.arpParam := rfl
@[simp] theorem Channel.setTarget_vibSpeed (ch : Channel) (p : Nat) : (ch.setTarget p).vibSpeed = ch.vibSpeed := rfl
@[simp] theorem Channel.setTarget_vibDepth (ch : Channel) (p : Nat) : (ch.setTarget p).vibDepth = ch.vibDepth := rfl
@[simp] theorem Channel.setTarget_vibPhase (ch : Channel) (p : Nat) : (ch.setTarget p).vibPhase = ch.vibPhase := rfl
@[simp] theorem Channel.setTarget_tremSpeed (ch : Channel) (p : Nat) : (ch.setTarget p).tremSpeed = ch.tremSpeed := rfl
@[simp] theorem Channel.setTarget_tremDepth (ch : Channel) (p : Nat) : (ch.setTarget p).tremDepth = ch.tremDepth := rfl
@[simp] theorem Channel.setTarget_tremPhase (ch : Channel) (p : Nat) : (ch.setTarget p).tremPhase = ch.tremPhase := rfl
@[simp] theorem Channel.setTarget_volSlide (ch : Channel) (p : Nat) : (ch.setTarget p).volSlide = ch.volSlide := rfl
@[simp] theorem Channel.setTarget_cutTimer (ch : Channel) (p : Nat) : (ch.setTarget p).cutTimer = ch.cutTimer := rfl
@[simp] theorem Channel.setTarget_relTimer (ch : Channel) (p : Nat) : (ch.setTarget p).relTimer = ch.relTimer := rfl
@[simp] theorem Channel.setTarget_voldTimer (ch : Channel) (p : Nat) : (ch.setTarget p).voldTimer = ch.voldTimer := rfl
@[simp] theorem Channel.setTarget_newVol (ch : Channel) (p : Nat) : (ch.setTarget p).newVol = ch.newVol := rfl
@[simp] theorem Channel.setTarget_transTimer (ch : Channel) (p : Nat) : (ch.setTarget p).transTimer = ch.transTimer := rfl
@[simp] theorem Channel.setTarget_transAmount (ch : Channel) (p : Nat) : (ch.setTarget p).transAmount = ch.transAmount := rfl
@[simp] theorem Channel.setTarget_transDown (ch : Channel) (p : Nat) : (ch.setTarget p).transDown = ch.transDown := rfl
@[simp] theorem Channel.setTarget_duty (ch : Channel) (p : Nat) : (ch.setTarget p).duty = ch.duty := rfl
@[simp] theorem Channel.setTarget_defDuty (ch : Channel) (p : Nat) : (ch.setTarget p).defDuty = ch.defDuty := rfl
@[simp] theorem Channel.setTarget_delayPending (ch : Channel) (p : Nat) : (ch.setTarget p).delayPending = ch.delayPending := rfl
@[simp] theorem Channel.setTarget_delayTimer (ch : Channel) (p : Nat) : (ch.setTarget p).delayTimer = ch.delayTimer := rfl
@[simp] theorem Channel.setTarget_delayEvent (ch : Channel) (p : Nat) : (ch.setTarget p).delayEvent = ch.delayEvent := rfl
@[simp] theorem Channel.setTarget_echo (ch : Channel) (p : Nat) : (ch.setTarget p).echo = ch.echo := rfl
@[simp] theorem Channel.setTarget_free (ch : Channel) (p : Nat) : (ch.setTarget p).free = ch.free := rfl

/-! ### setNote -/

@[simp] theorem Channel.setNote_chipId (ch : Channel) (n : Int) : (ch.setNote n).chipId = ch.chipId := rfl
@[simp] theorem Channel.setNote_chIdx (ch : Channel) (n : Int) : (ch.setNote n).chIdx = ch.chIdx := rfl
@[simp] theorem Channel.setNote_trigger (ch : Channel) (n : Int) : (ch.setNote n).trigger = ch.trigger := rfl
@[simp] theorem Channel.setNote_gate (ch : Channel) (n : Int) : (ch.setNote n).gate = ch.gate := rfl
@[simp] theorem Channel.setNote_release (ch : Channel) (n : Int) : (ch.setNote n).release = ch.release := rfl
@[simp] theorem Channel.setNote_inst (ch : Channel) (n : Int) : (ch.setNote n).inst = ch.inst := rfl
@[simp] theorem Channel.setNote_instType (ch : Channel) (n : Int) : (ch.setNote n).instType = ch.instType := rfl
@[simp] theorem Channel.setNote_handler (ch : Channel) (n : Int) : (ch.setNote n).handler = ch.handler := rfl
@[simp] theorem Channel.setNote_forceReload (ch : Channel) (n : Int) : (ch.setNote n).forceReload = ch.forceReload := rfl
@[simp] theorem Channel.setNote_vol (ch : Channel) (n : Int) : (ch.setNote n).vol = ch.vol := rfl
@[simp] theorem Channel.setNote_defVol (ch : Channel) (n : Int) : (ch.setNote n).defVol = ch.defVol := rfl
@[simp] theorem Channel.setNote_instVol (ch : Channel) (n : Int) : (ch.setNote n).instVol = ch.instVol := rfl
@[simp] theorem Channel.setNote_eff (ch : Channel) (n : Int) : (ch.setNote n).eff = ch.eff := rfl
@[simp] theorem Channel.setNote_effParam (ch : Channel) (n : Int) : (ch.setNote n).effParam = ch.effParam := rfl
@[simp] theorem Channel.setNote_period (ch : Channel) (n : Int) : (ch.setNote n).period = ch.period := rfl
@[simp] theorem Channel.setNote_pitchWheel (ch : Channel) (n : Int) : (ch.setNote n).pitchWheel = ch.pitchWheel := rfl
@[simp] theorem Channel.setNote_finePitch (ch : Channel) (n : Int) : (ch.setNote n).finePitch = ch.finePitch := rfl
@[simp] theorem Channel.setNote_portaSpeed (ch : Channel) (n : Int) : (ch.setNote n).portaSpeed = ch.portaSpeed := rfl
@[simp] theorem Channel.setNote_portaTo (ch : Channel) (n : Int) : (ch.setNote n).portaTo = ch.portaTo := rfl
@[simp] theorem Channel.setNote_arpPhase (ch : Channel) (n : Int) : (ch.setNote n).arpPhase = ch.arpPhase := rfl
@[simp] theorem Channel.setNote_arpParam (ch : Channel) (n : Int) : (ch.setNote n).arpParam = ch.arpParam := rfl
@[simp] theorem Channel.setNote_vibSpeed (ch : Channel) (n : Int) : (ch.setNote n).vibSpeed = ch.vibSpeed := rfl
@[simp] theorem Channel.setNote_vibDepth (ch : Channel) (n : Int) : (ch.setNote n).vibDepth = ch.vibDepth := rfl
@[simp] theorem Channel.setNote_vibPhase (ch : Channel) (n : Int) : (ch.setNote n).vibPhase = ch.vibPhase := rfl
@[simp] theorem Channel.setNote_tremSpeed (ch : Channel) (n : Int) : (ch.setNote n).tremSpeed = ch.tremSpeed := rfl
@[simp] theorem Channel.setNote_tremDepth (ch : Channel) (n : Int) : (ch.setNote n).tremDepth = ch.tremDepth := rfl
@[simp] theorem Channel.setNote_tremPhase (ch : Channel) (n : Int) : (ch.setNote n).tremPhase = ch.tremPhase := rfl
@[simp] theorem Channel.setNote_volSlide (ch : Channel) (n : Int) : (ch.setNote n).volSlide = ch.volSlide := rfl
@[simp] theorem Channel.setNote_cutTimer (ch : Channel) (n : Int) : (ch.setNote n).cutTimer = ch.cutTimer := rfl
@[simp] theorem Channel.setNote_relTimer (ch : Channel) (n : Int) : (ch.setNote n).relTimer = ch.relTimer := rfl
@[simp] theorem Channel.setNote_voldTimer (ch : Channel) (n : Int) : (ch.setNote n).voldTimer = ch.voldTimer := rfl
@[simp] theorem Channel.setNote_newVol (ch : Channel) (n : Int) : (ch.setNote n).newVol = ch.newVol := rfl
@[simp] theorem Channel.setNote_transTimer (ch : Channel) (n : Int) : (ch.setNote n).transTimer = ch.transTimer := rfl
@[simp] theorem Channel.setNote_transAmount (ch : Channel) (n : Int) : (ch.setNote n).transAmount = ch.transAmount := rfl
@[simp] theorem Channel.setNote_transDown (ch : Channel) (n : Int) : (ch.setNote n).transDown = ch.transDown := rfl
@[simp] theorem Channel.setNote_duty (ch : Channel) (n : Int) : (ch.setNote n).duty = ch.duty := rfl
@[simp] theorem Channel.setNote_defDuty (ch : Channel) (n : Int) : (ch.setNote n).defDuty = ch.defDuty := rfl
@[simp] theorem Channel.setNote_delayPending (ch : Channel) (n : Int) : (ch.setNote n).delayPending = ch.delayPending := rfl
@[simp] theorem Channel.setNote_delayTimer (ch : Channel) (n : Int) : (ch.setNote n).delayTimer = ch.delayTimer := rfl
@[simp] theorem Channel.setNote_delayEvent (ch : Channel) (n : Int) : (ch.setNote n).delayEvent = ch.delayEvent := rfl
@[simp] theorem Channel.setNote_echo (ch : Channel) (n : Int) : (ch.setNote n).echo = ch.echo := rfl
@[simp] theorem Channel.setNote_free (ch : Channel) (n : Int) : (ch.setNote n).free = ch.free := rfl

/-! ### echoPush -/

@[simp] theorem Channel.echoPush_chipId (ch : Channel) (x : Echo) : (ch.echoPush x).chipId = ch.chipId := rfl
@[simp] theorem Channel.echoPush_chIdx (ch : Channel) (x : Echo) : (ch.echoPush x).chIdx = ch.chIdx := rfl
@[simp] theorem Channel.echoPush_note (ch : Channel) (x : Echo) : (ch.echoPush x).note = ch.note := rfl
@[simp] theorem Channel.echoPush_trigger (ch : Channel) (x : Echo) : (ch.echoPush x).trigger = ch.trigger := rfl
@[simp] theorem Channel.echoPush_gate (ch : Channel) (x : Echo) : (ch.echoPush x).gate = ch.gate := rfl
@[simp] theorem Channel.echoPush_release (ch : Channel) (x : Echo) : (ch.echoPush x).release = ch.release := rfl
@[simp] theorem Channel.echoPush_inst (ch : Channel) (x : Echo) : (ch.echoPush x).inst = ch.inst := rfl
@[simp] theorem Channel.echoPush_instType (ch : Channel) (x : Echo) : (ch.echoPush x).instType = ch.instType := rfl
@[simp] theorem Channel.echoPush_handler (ch : Channel) (x : Echo) : (ch.echoPush x).handler = ch.handler := rfl
@[simp] theorem Channel.echoPush_forceReload (ch : Channel) (x : Echo) : (ch.echoPush x).forceReload = ch.forceReload := rfl
@[simp] theorem Channel.echoPush_vol (ch : Channel) (x : Echo) : (ch.echoPush x).vol = ch.vol := rfl
@[simp] theorem Channel.echoPush_defVol (ch : Channel) (x : Echo) : (ch.echoPush x).defVol = ch.defVol := rfl
@[simp] theorem Channel.echoPush_instVol (ch : Channel) (x : Echo) : (ch.echoPush x).instVol = ch.instVol := rfl
@[simp] theorem Channel.echoPush_eff (ch : Channel) (x : Echo) : (ch.echoPush x).eff = ch.eff := rfl
@[simp] theorem Channel.echoPush_effParam (ch : Channel) (x : Echo) : (ch.echoPush x).effParam = ch.effParam := rfl
@[simp] theorem Channel.echoPush_period (ch : Channel) (x : Echo) : (ch.echoPush x).period = ch.period := rfl
@[simp] theorem Channel.echoPush_pitchWheel (ch : Channel) (x : Echo) : (ch.echoPush x).pitchWheel = ch.pitchWheel := rfl
@[simp] theorem Channel.echoPush_finePitch (ch : Channel) (x : Echo) : (ch.echoPush x).finePitch = ch.finePitch := rfl
@[simp] theorem Channel.echoPush_portaSpeed (ch : Channel) (x : Echo) : (ch.echoPush x).portaSpeed = ch.portaSpeed := rfl
@[simp] theorem Channel.echoPush_portaTo (ch : Channel) (x : Echo) : (ch.echoPush x).portaTo = ch.portaTo := rfl
@[simp] theorem Channel.echoPush_arpPhase (ch : Channel) (x : Echo) : (ch.echoPush x).arpPhase = ch.arpPhase := rfl
@[simp] theorem Channel.echoPush_arpParam (ch : Channel) (x : Echo) : (ch.echoPush x).arpParam = ch.arpParam := rfl
@[simp] theorem Channel.echoPush_vibSpeed (ch : Channel) (x : Echo) : (ch.echoPush x).vibSpeed = ch.vibSpeed := rfl
@[simp] theorem Channel.echoPush_vibDepth (ch : Channel) (x : Echo) : (ch.echoPush x).vibDepth = ch.vibDepth := rfl
@[simp] theorem Channel.echoPush_vibPhase (ch : Channel) (x : Echo) : (ch.echoPush x).vibPhase = ch.vibPhase := rfl
@[simp] theorem Channel.echoPush_tremSpeed (ch : Channel) (x : Echo) : (ch.echoPush x).tremSpeed = ch.tremSpeed := rfl
@[simp] theorem Channel.echoPush_tremDepth (ch : Channel) (x : Echo) : (ch.echoPush x).tremDepth = ch.tremDepth := rfl
@[simp] theorem Channel.echoPush_tremPhase (ch : Channel) (x : Echo) : (ch.echoPush x).tremPhase = ch.tremPhase := rfl
@[simp] theorem Channel.echoPush_volSlide (ch : Channel) (x : Echo) : (ch.echoPush x).volSlide = ch.volSlide := rfl
@[simp] theorem Channel.echoPush_cutTimer (ch : Channel) (x : Echo) : (ch.echoPush x).cutTimer = ch.cutTimer := rfl
@[simp] theorem Channel.echoPush_relTimer (ch : Channel) (x : Echo) : (ch.echoPush x).relTimer = ch.relTimer := rfl
@[simp] theorem Channel.echoPush_voldTimer (ch : Channel) (x : Echo) : (ch.echoPush x).voldTimer = ch.voldTimer := rfl
@[simp] theorem Channel.echoPush_newVol (ch : Channel) (x : Echo) : (ch.echoPush x).newVol = ch.newVol := rfl
@[simp] theorem Channel.echoPush_transTimer (ch : Channel) (x : Echo) : (ch.echoPush x).transTimer = ch.transTimer := rfl
@[simp] theorem Channel.echoPush_transAmount (ch : Channel) (x : Echo) : (ch.echoPush x).transAmount = ch.transAmount := rfl
@[simp] theorem Channel.echoPush_transDown (ch : Channel) (x : Echo) : (ch.echoPush x).transDown = ch.transDown := rfl
@[simp] theorem Channel.echoPush_duty (ch : Channel) (x : Echo) : (ch.echoPush x).duty = ch.duty := rfl
@[simp] theorem Channel.echoPush_defDuty (ch : Channel) (x : Echo) : (ch.echoPush x).defDuty = ch.defDuty := rfl
@[simp] theorem Channel.echoPush_delayPending (ch : Channel) (x : Echo) : (ch.echoPush x).delayPending = ch.delayPending := rfl
@[simp] theorem Channel.echoPush_delayTimer (ch : Channel) (x : Echo) : (ch.echoPush x).delayTimer = ch.delayTimer := rfl
@[simp] theorem Channel.echoPush_delayEvent (ch : Channel) (x : Echo) : (ch.echoPush x).delayEvent = ch.delayEvent := rfl
@[simp] theorem Channel.echoPush_free (ch : Channel) (x : Echo) : (ch.echoPush x).free = ch.free := rfl

/-! ### drawn -/

@[simp] theorem Channel.drawn_chipId (ch : Channel) (e : Env) : (ch.drawn e).chipId = ch.chipId := by unfold Channel.drawn; split <;> rfl
@[simp] theorem Channel.drawn_chIdx (ch : Channel) (e : Env) : (ch.drawn e).chIdx = ch.chIdx := by unfold Channel.drawn; split <;> rfl
@[simp] theorem Channel.drawn_note (ch : Channel) (e : Env) : (ch.drawn e).note = ch.note := by unfold Channel.drawn; split <;> rfl
@[simp] theorem Channel.drawn_trigger (ch : Channel) (e : Env) : (ch.drawn e).trigger = ch.trigger := by unfold Channel.drawn; split <;> rfl
@[simp] theorem Channel.drawn_gate (ch : Channel) (e : Env) : (ch.drawn e).gate = ch.gate := by unfold Channel.drawn; split <;> rfl
@[simp] theorem Channel.drawn_release (ch : Channel) (e : Env) : (ch.drawn e).release = ch.release := by unfold Channel.drawn; split <;> rfl
@[simp] theorem Channel.drawn_inst (ch : Channel) (e : Env) : (ch.drawn e).inst = ch.inst := by unfold Channel.drawn; split <;> rfl
@[simp] theorem Channel.drawn_instType (ch : Channel) (e : Env) : (ch.drawn e).instType = ch.instType := by unfold Channel.drawn; split <;> rfl
@[simp] theorem Channel.drawn_handler (ch : Channel) (e : Env) : (ch.drawn e).handler = ch.handler := by unfold Channel.drawn; split <;> rfl
@[simp] theorem Channel.drawn_forceReload (ch : Channel) (e : Env) : (ch.drawn e).forceReload = ch.forceReload := by unfold Channel.drawn; split <;> rfl
@[simp] theorem Channel.drawn_vol (ch : Channel) (e : Env) : (ch.drawn e).vol = ch.vol := by unfold Channel.drawn; split <;> rfl
@[simp] theorem Channel.drawn_defVol (ch : Channel) (e : Env) : (ch.drawn e).defVol = ch.defVol := by unfold Channel.drawn; split <;> rfl
@[simp] theorem Channel.drawn_instVol (ch : Channel) (e : Env) : (ch.drawn e).instVol = ch.instVol := by unfold Channel.drawn; split <;> rfl
@[simp] theorem Channel.drawn_eff (ch : Channel) (e : Env) : (ch.drawn e).eff = ch.eff := by unfold Channel.drawn; split <;> rfl
@[simp] theorem Channel.drawn_effParam (ch : Channel) (e : Env) : (ch.drawn e).effParam = ch.effParam := by unfold Channel.drawn; split <;> rfl
@[simp] theorem Channel.drawn_period (ch : Channel) (e : Env) : (ch.drawn e).period = ch.period := by unfold Channel.drawn; split <;> rfl
@[simp] theorem Channel.drawn_pitchWheel (ch : Channel) (e : Env) : (ch.drawn e).pitchWheel = ch.pitchWheel := by unfold Channel.drawn; split <;> rfl
@[simp] theorem Channel.drawn_finePitch (ch : Channel) (e : Env) : (ch.drawn e).finePitch = ch.finePitch := by unfold Channel.drawn; split <;> rfl
@[simp] theorem Channel.drawn_portaSpeed (ch : Channel) (e : Env) : (ch.drawn e).portaSpeed = ch.portaSpeed := by unfold Channel.drawn; split <;> rfl
@[simp] theorem Channel.drawn_portaTo (ch : Channel) (e : Env) : (ch.drawn e).portaTo = ch.portaTo := by unfold Channel.drawn; split <;> rfl
@[simp] theorem Channel.drawn_arpPhase (ch : Channel) (e : Env) : (ch.drawn e).arpPhase = ch.arpPhase := by unfold Channel.drawn; split <;> rfl
@[simp] theorem Channel.drawn_arpParam (ch : Channel) (e : Env) : (ch.drawn e).arpParam = ch.arpParam := by unfold Channel.drawn; split <;> rfl
@[simp] theorem Channel.drawn_vibSpeed (ch : Channel) (e : Env) : (ch.drawn e).vibSpeed = ch.vibSpeed := by unfold Channel.drawn; split <;> rfl
@[simp] theorem Channel.drawn_vibDepth (ch : Channel) (e : Env) : (ch.drawn e).vibDepth = ch.vibDepth := by unfold Channel.drawn; split <;> rfl
@[simp] theorem Channel.drawn_vibPhase (ch : Channel) (e : Env) : (ch.drawn e).vibPhase = ch.vibPhase := by unfold Channel.drawn; split <;> rfl
@[simp] theorem Channel.drawn_tremSpeed (ch : Channel) (e : Env) : (ch.drawn e).tremSpeed = ch.tremSpeed := by unfold Channel.drawn; split <;> rfl
@[simp] theorem Channel.drawn_tremDepth (ch : Channel) (e : Env) : (ch.drawn e).tremDepth = ch.tremDepth := by unfold Channel.drawn; split <;> rfl
@[simp] theorem Channel.drawn_tremPhase (ch : Channel) (e : Env) : (ch.drawn e).tremPhase = ch.tremPhase := by unfold Channel.drawn; split <;> rfl
@[simp] theorem Channel.drawn_volSlide (ch : Channel) (e : Env) : (ch.drawn e).volSlide = ch.volSlide := by unfold Channel.drawn; split <;> rfl
@[simp] theorem Channel.drawn_cutTimer (ch : Channel) (e : Env) : (ch.drawn e).cutTimer = ch.cutTimer := by unfold Channel.drawn; split <;> rfl
@[simp] theorem Channel.drawn_relTimer (ch : Channel) (e : Env) : (ch.drawn e).relTimer = ch.relTimer := by unfold Channel.drawn; split <;> rfl
@[simp] theorem Channel.drawn_voldTimer (ch : Channel) (e : Env) : (ch.drawn e).voldTimer = ch.voldTimer := by unfold Channel.drawn; split <;> rfl
@[simp] theorem Channel.drawn_newVol (ch : Channel) (e : Env) : (ch.drawn e).newVol = ch.newVol := by unfold Channel.drawn; split <;> rfl
@[simp] theorem Channel.drawn_transTimer (ch : Channel) (e : Env) : (ch.drawn e).transTimer = ch.transTimer := by unfold Channel.drawn; split <;> rfl
@[simp] theorem Channel.drawn_transAmount (ch : Channel) (e : Env) : (ch.drawn e).transAmount = ch.transAmount := by unfold Channel.drawn; split <;> rfl
@[simp] theorem Channel.drawn_transDown (ch : Channel) (e : Env) : (ch.drawn e).transDown = ch.transDown := by unfold Channel.drawn; split <;> rfl
@[simp] theorem Channel.drawn_duty (ch : Channel) (e : Env) : (ch.drawn e).duty = ch.duty := by unfold Channel.drawn; split <;> rfl
@[simp] theorem Channel.drawn_defDuty (ch : Channel) (e : Env) : (ch.drawn e).defDuty = ch.defDuty := by unfold Channel.drawn; split <;> rfl
@[simp] theorem Channel.drawn_delayPending (ch : Channel) (e : Env) : (ch.drawn e).delayPending = ch.delayPending := by unfold Channel.drawn; split <;> rfl
@[simp] theorem Channel.drawn_delayTimer (ch : Channel) (e : Env) : (ch.drawn e).delayTimer = ch.delayTimer := by unfold Channel.drawn; split <;> rfl
@[simp] theorem Channel.drawn_delayEvent (ch : Channel) (e : Env) : (ch.drawn e).delayEvent = ch.delayEvent := by unfold Channel.drawn; split <;> rfl
@[simp] theorem Channel.drawn_echo (ch : Channel) (e : Env) : (ch.drawn e).echo = ch.echo := by unfold Channel.drawn; split <;> rfl

/-! ### playPeriod -/

@[simp] theorem Channel.playPeriod_chipId (ch : Channel) (e : Env) (n v : Int) : (ch.playPeriod e n v).chipId = ch.chipId :=
  (Channel.setPeriod_chipId _ _).trans (Channel.drawn_chipId ch e)
@[simp] theorem Channel.playPeriod_chIdx (ch : Channel) (e : Env) (n v : Int) : (ch.playPeriod e n v).chIdx = ch.chIdx :=
  (Channel.setPeriod_chIdx _ _).trans (Channel.drawn_chIdx ch e)
@[simp] theorem Channel.playPeriod_note (ch : Channel) (e : Env) (n v : Int) : (ch.playPeriod e n v).note = ch.note :=
  (Channel.setPeriod_note _ _).trans (Channel.drawn_note ch e)
@[simp] theorem Channel.playPeriod_trigger (ch : Channel) (e : Env) (n v : Int) : (ch.playPeriod e n v).trigger = ch.trigger :=
  (Channel.setPeriod_trigger _ _).trans (Channel.drawn_trigger ch e)
@[simp] theorem Channel.playPeriod_gate (ch : Channel) (e : Env) (n v : Int) : (ch.playPeriod e n v).gate = ch.gate :=
  (Channel.setPeriod_gate _ _).trans (Channel.drawn_gate ch e)
@[simp] theorem Channel.playPeriod_release (ch : Channel) (e : Env) (n v : Int) : (ch.playPeriod e n v).release = ch.release :=
  (Channel.setPeriod_release _ _).trans (Channel.drawn_release ch e)
@[simp] theorem Channel.playPeriod_inst (ch : Channel) (e : Env) (n v : Int) : (ch.playPeriod e n v).inst = ch.inst :=
  (Channel.setPeriod_inst _ _).trans (Channel.drawn_inst ch e)
@[simp] theorem Channel.playPeriod_instType (ch : Channel) (e : Env) (n v : Int) : (ch.playPeriod e n v).instType = ch.instType :=
  (Channel.setPeriod_instType _ _).trans (Channel.drawn_instType ch e)
@[simp] theorem Channel.playPeriod_handler (ch : Channel) (e : Env) (n v : Int) : (ch.playPeriod e n v).handler = ch.handler :=
  (Channel.setPeriod_handler _ _).trans (Channel.drawn_handler ch e)
@[simp] theorem Channel.playPeriod_forceReload (ch : Channel) (e : Env) (n v : Int) : (ch.playPeriod e n v).forceReload = ch.forceReload :=
  (Channel.setPeriod_forceReload _ _).trans (Channel.drawn_forceReload ch e)
@[simp] theorem Channel.playPeriod_vol (ch : Channel) (e : Env) (n v : Int) : (ch.playPeriod e n v).vol = ch.vol :=
  (Channel.setPeriod_vol _ _).trans (Channel.drawn_vol ch e)
@[simp] theorem Channel.playPeriod_defVol (ch : Channel) (e : Env) (n v : Int) : (ch.playPeriod e n v).defVol = ch.defVol :=
  (Channel.setPeriod_defVol _ _).trans (Channel.drawn_defVol ch e)
@[simp] theorem Channel.playPeriod_instVol (ch : Channel) (e : Env) (n v : Int) : (ch.playPeriod e n v).instVol = ch.instVol :=
  (Channel.setPeriod_instVol _ _).trans (Channel.drawn_instVol ch e)
@[simp] theorem Channel.playPeriod_eff (ch : Channel) (e : Env) (n v : Int) : (ch.playPeriod e n v).eff = ch.eff :=
  (Channel.setPeriod_eff _ _).trans (Channel.drawn_eff ch e)
@[simp] theorem Channel.playPeriod_effParam (ch : Channel) (e : Env) (n v : Int) : (ch.playPeriod e n v).effParam = ch.effParam :=
  (Channel.setPeriod_effParam _ _).trans (Channel.drawn_effParam ch e)
@[simp] theorem Channel.playPeriod_pitchWheel (ch : Channel) (e : Env) (n v : Int) : (ch.playPeriod e n v).pitchWheel = ch.pitchWheel :=
  (Channel.setPeriod_pitchWheel _ _).trans (Channel.drawn_pitchWheel ch e)
@[simp] theorem Channel.playPeriod_finePitch (ch : Channel) (e : Env) (n v : Int) : (ch.playPeriod e n v).finePitch = ch.finePitch :=
  (Channel.setPeriod_finePitch _ _).trans (Channel.drawn_finePitch ch e)
@[simp] theorem Channel.playPeriod_portaSpeed (ch : Channel) (e : Env) (n v : Int) : (ch.playPeriod e n v).portaSpeed = ch.portaSpeed :=
  (Channel.setPeriod_portaSpeed _ _).trans (Channel.drawn_portaSpeed ch e)
@[simp] theorem Channel.playPeriod_portaTo (ch : Channel) (e : Env) (n v : Int) : (ch.playPeriod e n v).portaTo = ch.portaTo :=
  (Channel.setPeriod_portaTo _ _).trans (Channel.drawn_portaTo ch e)
@[simp] theorem Channel.playPeriod_arpPhase (ch : Channel) (e : Env) (n v : Int) : (ch.playPeriod e n v).arpPhase = ch.arpPhase :=
  (Channel.setPeriod_arpPhase _ _).trans (Channel.drawn_arpPhase ch e)
@[simp] theorem Channel.playPeriod_arpParam (ch : Channel) (e : Env) (n v : Int) : (ch.playPeriod e n v).arpParam = ch.arpParam :=
  (Channel.setPeriod_arpParam _ _).trans (Channel.drawn_arpParam ch e)
@[simp] theorem Channel.playPeriod_vibSpeed (ch : Channel) (e : Env) (n v : Int) : (ch.playPeriod e n v).vibSpeed = ch.vibSpeed :=
  (Channel.setPeriod_vibSpeed _ _).trans (Channel.drawn_vibSpeed ch e)
@[simp] theorem Channel.playPeriod_vibDepth (ch : Channel) (e : Env) (n v : Int) : (ch.playPeriod e n v).vibDepth = ch.vibDepth :=
  (Channel.setPeriod_vibDepth _ _).trans (Channel.drawn_vibDepth ch e)
@[simp] theorem Channel.playPeriod_vibPhase (ch : Channel) (e : Env) (n v : Int) : (ch.playPeriod e n v).vibPhase = ch.vibPhase :=
  (Channel.setPeriod_vibPhase _ _).trans (Channel.drawn_vibPhase ch e)
@[simp] theorem Channel.playPeriod_tremSpeed (ch : Channel) (e : Env) (n v : Int) : (ch.playPeriod e n v).tremSpeed = ch.tremSpeed :=
  (Channel.setPeriod_tremSpeed _ _).trans (Channel.drawn_tremSpeed ch e)
@[simp] theorem Channel.playPeriod_tremDepth (ch : Channel) (e : Env) (n v : Int) : (ch.playPeriod e n v).tremDepth = ch.tremDepth :=
  (Channel.setPeriod_tremDepth _ _).trans (Channel.drawn_tremDepth ch e)
@[simp] theorem Channel.playPeriod_tremPhase (ch : Channel) (e : Env) (n v : Int) : (ch.playPeriod e n v).tremPhase = ch.tremPhase :=
  (Channel.setPeriod_tremPhase _ _).trans (Channel.drawn_tremPhase ch e)
@[simp] theorem Channel.playPeriod_volSlide (ch : Channel) (e : Env) (n v : Int) : (ch.playPeriod e n v).volSlide = ch.volSlide :=
  (Channel.setPeriod_volSlide _ _).trans (Channel.drawn_volSlide ch e)
@[simp] theorem Channel.playPeriod_cutTimer (ch : Channel) (e : Env) (n v : Int) : (ch.playPeriod e n v).cutTimer = ch.cutTimer :=
  (Channel.setPeriod_cutTimer _ _).trans (Channel.drawn_cutTimer ch e)
@[simp] theorem Channel.playPeriod_relTimer (ch : Channel) (e : Env) (n v : Int) : (ch.playPeriod e n v).relTimer = ch.relTimer :=
  (Channel.setPeriod_relTimer _ _).trans (Channel.drawn_relTimer ch e)
@[simp] theorem Channel.playPeriod_voldTimer (ch : Channel) (e : Env) (n v : Int) : (ch.playPeriod e n v).voldTimer = ch.voldTimer :=
  (Channel.setPeriod_voldTimer _ _).trans (Channel.drawn_voldTimer ch e)
@[simp] theorem Channel.playPeriod_newVol (ch : Channel) (e : Env) (n v : Int) : (ch.playPeriod e n v).newVol = ch.newVol :=
  (Channel.setPeriod_newVol _ _).trans (Channel.drawn_newVol ch e)
@[simp] theorem Channel.playPeriod_transTimer (ch : Channel) (e : Env) (n v : Int) : (ch.playPeriod e n v).transTimer = ch.transTimer :=
  (Channel.setPeriod_transTimer _ _).trans (Channel.drawn_transTimer ch e)
@[simp] theorem Channel.playPeriod_transAmount (ch : Channel) (e : Env) (n v : Int) : (ch.playPeriod e n v).transAmount = ch.transAmount :=
  (Channel.setPeriod_transAmount _ _).trans (Channel.drawn_transAmount ch e)
@[simp] theorem Channel.playPeriod_transDown (ch : Channel) (e : Env) (n v : Int) : (ch.playPeriod e n v).transDown = ch.transDown :=
  (Channel.setPeriod_transDown _ _).trans (Channel.drawn_transDown ch e)
@[simp] theorem Channel.playPeriod_duty (ch : Channel) (e : Env) (n v : Int) : (ch.playPeriod e n v).duty = ch.duty :=
  (Channel.setPeriod_duty _ _).trans (Channel.drawn_duty ch e)
@[simp] theorem Channel.playPeriod_defDuty (ch : Channel) (e : Env) (n v : Int) : (ch.playPeriod e n v).defDuty = ch.defDuty :=
  (Channel.setPeriod_defDuty _ _).trans (Channel.drawn_defDuty ch e)
@[simp] theorem Channel.playPeriod_delayPending (ch : Channel) (e : Env) (n v : Int) : (ch.playPeriod e n v).delayPending = ch.delayPending :=
  (Channel.setPeriod_delayPending _ _).trans (Channel.drawn_delayPending ch e)
@[simp] theorem Channel.playPeriod_delayTimer (ch : Channel) (e : Env) (n v : Int) : (ch.playPeriod e n v).delayTimer = ch.delayTimer :=
  (Channel.setPeriod_delayTimer _ _).trans (Channel.drawn_delayTimer ch e)
@[simp] theorem Channel.playPeriod_delayEvent (ch : Channel) (e : Env) (n v : Int) : (ch.playPeriod e n v).delayEvent = ch.delayEvent :=
  (Channel.setPeriod_delayEvent _ _).trans (Channel.drawn_delayEvent ch e)
@[simp] theorem Channel.playPeriod_echo (ch : Channel) (e : Env) (n v : Int) : (ch.playPeriod e n v).echo = ch.echo :=
  (Channel.setPeriod_echo _ _).trans (Channel.drawn_echo ch e)

/-! ### setSlot -/

@[simp] theorem Channel.setSlot_chipId (ch : Channel) (k : Kind) (sl : Slot) : (ch.setSlot k sl).chipId = ch.chipId := rfl
@[simp] theorem Channel.setSlot_chIdx (ch : Channel) (k : Kind) (sl : Slot) : (ch.setSlot k sl).chIdx = ch.chIdx := rfl
@[simp] theorem Channel.setSlot_note (ch : Channel) (k : Kind) (sl : Slot) : (ch.setSlot k sl).note = ch.note := rfl
@[simp] theorem Channel.setSlot_trigger (ch : Channel) (k : Kind) (sl : Slot) : (ch.setSlot k sl).trigger = ch.trigger := rfl
@[simp] theorem Channel.setSlot_gate (ch : Channel) (k : Kind) (sl : Slot) : (ch.setSlot k sl).gate = ch.gate := rfl
@[simp] theorem Channel.setSlot_release (ch : Channel) (k : Kind) (sl : Slot) : (ch.setSlot k sl).release = ch.release := rfl
@[simp] theorem Channel.setSlot_inst (ch : Channel) (k : Kind) (sl : Slot) : (ch.setSlot k sl).inst = ch.inst := rfl
@[simp] theorem Channel.setSlot_instType (ch : Channel) (k : Kind) (sl : Slot) : (ch.setSlot k sl).instType = ch.instType := rfl
@[simp] theorem Channel.setSlot_forceReload (ch : Channel) (k : Kind) (sl : Slot) : (ch.setSlot k sl).forceReload = ch.forceReload := rfl
@[simp] theorem Channel.setSlot_vol (ch : Channel) (k : Kind) (sl : Slot) : (ch.setSlot k sl).vol = ch.vol := rfl
@[simp] theorem Channel.setSlot_defVol (ch : Channel) (k : Kind) (sl : Slot) : (ch.setSlot k sl).defVol = ch.defVol := rfl
@[simp] theorem Channel.setSlot_instVol (ch : Channel) (k : Kind) (sl : Slot) : (ch.setSlot k sl).instVol = ch.instVol := rfl
@[simp] theorem Channel.setSlot_eff (ch : Channel) (k : Kind) (sl : Slot) : (ch.setSlot k sl).eff = ch.eff := rfl
@[simp] theorem Channel.setSlot_effParam (ch : Channel) (k : Kind) (sl : Slot) : (ch.setSlot k sl).effParam = ch.effParam := rfl
@[simp] theorem Channel.setSlot_period (ch : Channel) (k : Kind) (sl : Slot) : (ch.setSlot k sl).period = ch.period := rfl
@[simp] theorem Channel.setSlot_pitchWheel (ch : Channel) (k : Kind) (sl : Slot) : (ch.setSlot k sl).pitchWheel = ch.pitchWheel := rfl
@[simp] theorem Channel.setSlot_finePitch (ch : Channel) (k : Kind) (sl : Slot) : (ch.setSlot k sl).finePitch = ch.finePitch := rfl
@[simp] theorem Channel.setSlot_portaSpeed (ch : Channel) (k : Kind) (sl : Slot) : (ch.setSlot k sl).portaSpeed = ch.portaSpeed := rfl
@[simp] theorem Channel.setSlot_portaTo (ch : Channel) (k : Kind) (sl : Slot) : (ch.setSlot k sl).portaTo = ch.portaTo := rfl
@[simp] theorem Channel.setSlot_arpPhase (ch : Channel) (k : Kind) (sl : Slot) : (ch.setSlot k sl).arpPhase = ch.arpPhase := rfl
@[simp] theorem Channel.setSlot_arpParam (ch : Channel) (k : Kind) (sl : Slot) : (ch.setSlot k sl).arpParam = ch.arpParam := rfl
@[simp] theorem Channel.setSlot_vibSpeed (ch : Channel) (k : Kind) (sl : Slot) : (ch.setSlot k sl).vibSpeed = ch.vibSpeed := rfl
@[simp] theorem Channel.setSlot_vibDepth (ch : Channel) (k : Kind) (sl : Slot) : (ch.setSlot k sl).vibDepth = ch.vibDepth := rfl
@[simp] theorem Channel.setSlot_vibPhase (ch : Channel) (k : Kind) (sl : Slot) : (ch.setSlot k sl).vibPhase = ch.vibPhase := rfl
@[simp] theorem Channel.setSlot_tremSpeed (ch : Channel) (k : Kind) (sl : Slot) : (ch.setSlot k sl).tremSpeed = ch.tremSpeed := rfl
@[simp] theorem Channel.setSlot_tremDepth (ch : Channel) (k : Kind) (sl : Slot) : (ch.setSlot k sl).tremDepth = ch.tremDepth := rfl
@[simp] theorem Channel.setSlot_tremPhase (ch : Channel) (k : Kind) (sl : Slot) : (ch.setSlot k sl).tremPhase = ch.tremPhase := rfl
@[simp] theorem Channel.setSlot_volSlide (ch : Channel) (k : Kind) (sl : Slot) : (ch.setSlot k sl).volSlide = ch.volSlide := rfl
@[simp] theorem Channel.setSlot_cutTimer (ch : Channel) (k : Kind) (sl : Slot) : (ch.setSlot k sl).cutTimer = ch.cutTimer := rfl
@[simp] theorem Channel.setSlot_relTimer (ch : Channel) (k : Kind) (sl : Slot) : (ch.setSlot k sl).relTimer = ch.relTimer := rfl
@[simp] theorem Channel.setSlot_voldTimer (ch : Channel) (k : Kind) (sl : Slot) : (ch.setSlot k sl).voldTimer = ch.voldTimer := rfl
@[simp] theorem Channel.setSlot_newVol (ch : Channel) (k : Kind) (sl : Slot) : (ch.setSlot k sl).newVol = ch.newVol := rfl
@[simp] theorem Channel.setSlot_transTimer (ch : Channel) (k : Kind) (sl : Slot) : (ch.setSlot k sl).transTimer = ch.transTimer := rfl
@[simp] theorem Channel.setSlot_transAmount (ch : Channel) (k : Kind) (sl : Slot) : (ch.setSlot k sl).transAmount = ch.transAmount := rfl
@[simp] theorem Channel.setSlot_transDown (ch : Channel) (k : Kind) (sl : Slot) : (ch.setSlot k sl).transDown = ch.transDown := rfl
@[simp] theorem Channel.setSlot_duty (ch : Channel) (k : Kind) (sl : Slot) : (ch.setSlot k sl).duty = ch.duty := rfl
@[simp] theorem Channel.setSlot_defDuty (ch : Channel) (k : Kind) (sl : Slot) : (ch.setSlot k sl).defDuty = ch.defDuty := rfl
@[simp] theorem Channel.setSlot_delayPending (ch : Channel) (k : Kind) (sl : Slot) : (ch.setSlot k sl).delayPending = ch.delayPending := rfl
@[simp] theorem Channel.setSlot_delayTimer (ch : Channel) (k : Kind) (sl : Slot) : (ch.setSlot k sl).delayTimer = ch.delayTimer := rfl
@[simp] theorem Channel.setSlot_delayEvent (ch : Channel) (k : Kind) (sl : Slot) : (ch.setSlot k sl).delayEvent = ch.delayEvent := rfl
@[simp] theorem Channel.setSlot_echo (ch : Channel) (k : Kind) (sl : Slot) : (ch.setSlot k sl).echo = ch.echo := rfl
@[simp] theorem Channel.setSlot_free (ch : Channel) (k : Kind) (sl : Slot) : (ch.setSlot k sl).free = ch.free := rfl

/-! ### headFlags -/

@[simp] theorem Channel.headFlags_chipId (ch : Channel) : (ch.headFlags).chipId = ch.chipId := rfl
@[simp] theorem Channel.headFlags_chIdx (ch : Channel) : (ch.headFlags).chIdx = ch.chIdx := rfl
@[simp] theorem Channel.headFlags_note (ch : Channel) : (ch.headFlags).note = ch.note := rfl
@[simp] theorem Channel.headFlags_inst (ch : Channel) : (ch.headFlags).inst = ch.inst := rfl
@[simp] theorem Channel.headFlags_instType (ch : Channel) : (ch.headFlags).instType = ch.instType := rfl
@[simp] theorem Channel.headFlags_handler (ch : Channel) : (ch.headFlags).handler = ch.handler := rfl
@[simp] theorem Channel.headFlags_forceReload (ch : Channel) : (ch.headFlags).forceReload = ch.forceReload := rfl
@[simp] theorem Channel.headFlags_vol (ch : Channel) : (ch.headFlags).vol = ch.vol := rfl
@[simp] theorem Channel.headFlags_defVol (ch : Channel) : (ch.headFlags).defVol = ch.defVol := rfl
@[simp] theorem Channel.headFlags_instVol (ch : Channel) : (ch.headFlags).instVol = ch.instVol := rfl
@[simp] theorem Channel.headFlags_eff (ch : Channel) : (ch.headFlags).eff = ch.eff := rfl
@[simp] theorem Channel.headFlags_effParam (ch : Channel) : (ch.headFlags).effParam = ch.effParam := rfl
@[simp] theorem Channel.headFlags_period (ch : Channel) : (ch.headFlags).period = ch.period := rfl
@[simp] theorem Channel.headFlags_pitchWheel (ch : Channel) : (ch.headFlags).pitchWheel = ch.pitchWheel := rfl
@[simp] theorem Channel.headFlags_finePitch (ch : Channel) : (ch.headFlags).finePitch = ch.finePitch := rfl
@[simp] theorem Channel.headFlags_portaSpeed (ch : Channel) : (ch.headFlags).portaSpeed = ch.portaSpeed := rfl
@[simp] theorem Channel.headFlags_portaTo (ch : Channel) : (ch.headFlags).portaTo = ch.portaTo := rfl
@[simp] theorem Channel.headFlags_arpPhase (ch : Channel) : (ch.headFlags).arpPhase = ch.arpPhase := rfl
@[simp] theorem Channel.headFlags_arpParam (ch : Channel) : (ch.headFlags).arpParam = ch.arpParam := rfl
@[simp] theorem Channel.headFlags_vibSpeed (ch : Channel) : (ch.headFlags).vibSpeed = ch.vibSpeed := rfl
@[simp] theorem Channel.headFlags_vibDepth (ch : Channel) : (ch.headFlags).vibDepth = ch.vibDepth := rfl
@[simp] theorem Channel.headFlags_vibPhase (ch : Channel) : (ch.headFlags).vibPhase = ch.vibPhase := rfl
@[simp] theorem Channel.headFlags_tremSpeed (ch : Channel) : (ch.headFlags).tremSpeed = ch.tremSpeed := rfl
@[simp] theorem Channel.headFlags_tremDepth (ch : Channel) : (ch.headFlags).tremDepth = ch.tremDepth := rfl
@[simp] theorem Channel.headFlags_tremPhase (ch : Channel) : (ch.headFlags).tremPhase = ch.tremPhase := rfl
@[simp] theorem Channel.headFlags_volSlide (ch : Channel) : (ch.headFlags).volSlide = ch.volSlide := rfl
@[simp] theorem Channel.headFlags_cutTimer (ch : Channel) : (ch.headFlags).cutTimer = ch.cutTimer := rfl
@[simp] theorem Channel.headFlags_relTimer (ch : Channel) : (ch.headFlags).relTimer = ch.relTimer := rfl
@[simp] theorem Channel.headFlags_voldTimer (ch : Channel) : (ch.headFlags).voldTimer = ch.voldTimer := rfl
@[simp] theorem Channel.headFlags_newVol (ch : Channel) : (ch.headFlags).newVol = ch.newVol := rfl
@[simp] theorem Channel.headFlags_transTimer (ch : Channel) : (ch.headFlags).transTimer = ch.transTimer := rfl
@[simp] theorem Channel.headFlags_transAmount (ch : Channel) : (ch.headFlags).transAmount = ch.transAmount := rfl
@[simp] theorem Channel.headFlags_transDown (ch : Channel) : (ch.headFlags).transDown = ch.transDown := rfl
@[simp] theorem Channel.headFlags_duty (ch : Channel) : (ch.headFlags).duty = ch.duty := rfl
@[simp] theorem Channel.headFlags_defDuty (ch : Channel) : (ch.headFlags).defDuty = ch.defDuty := rfl
@[simp] theorem Channel.headFlags_delayPending (ch : Channel) : (ch.headFlags).delayPending = ch.delayPending := rfl
@[simp] theorem Channel.headFlags_delayTimer (ch : Channel) : (ch.headFlags).delayTimer = ch.delayTimer := rfl
@[simp] theorem Channel.headFlags_delayEvent (ch : Channel) : (ch.headFlags).delayEvent = ch.delayEvent := rfl
@[simp] theorem Channel.headFlags_echo (ch : Channel) : (ch.headFlags).echo = ch.echo := rfl
@[simp] theorem Channel.headFlags_free (ch : Channel) : (ch.headFlags).free = ch.free := rfl

/-! ### cutFlags -/

@[simp] theorem Channel.cutFlags_chipId (ch : Channel) : (ch.cutFlags).chipId = ch.chipId := rfl
@[simp] theorem Channel.cutFlags_chIdx (ch : Channel) : (ch.cutFlags).chIdx = ch.chIdx := rfl
@[simp] theorem Channel.cutFlags_note (ch : Channel) : (ch.cutFlags).note = ch.note := rfl
@[simp] theorem Channel.cutFlags_inst (ch : Channel) : (ch.cutFlags).inst = ch.inst := rfl
@[simp] theorem Channel.cutFlags_instType (ch : Channel) : (ch.cutFlags).instType = ch.instType := rfl
@[simp] theorem Channel.cutFlags_handler (ch : Channel) : (ch.cutFlags).handler = ch.handler := rfl
@[simp] theorem Channel.cutFlags_forceReload (ch : Channel) : (ch.cutFlags).forceReload = ch.forceReload := rfl
@[simp] theorem Channel.cutFlags_vol (ch : Channel) : (ch.cutFlags).vol = ch.vol := rfl
@[simp] theorem Channel.cutFlags_defVol (ch : Channel) : (ch.cutFlags).defVol = ch.defVol := rfl
@[simp] theorem Channel.cutFlags_instVol (ch : Channel) : (ch.cutFlags).instVol = ch.instVol := rfl
@[simp] theorem Channel.cutFlags_eff (ch : Channel) : (ch.cutFlags).eff = ch.eff := rfl
@[simp] theorem Channel.cutFlags_effParam (ch : Channel) : (ch.cutFlags).effParam = ch.effParam := rfl
@[simp] theorem Channel.cutFlags_period (ch : Channel) : (ch.cutFlags).period = ch.period := rfl
@[simp] theorem Channel.cutFlags_pitchWheel (ch : Channel) : (ch.cutFlags).pitchWheel = ch.pitchWheel := rfl
@[simp] theorem Channel.cutFlags_finePitch (ch : Channel) : (ch.cutFlags).finePitch = ch.finePitch := rfl
@[simp] theorem Channel.cutFlags_portaSpeed (ch : Channel) : (ch.cutFlags).portaSpeed = ch.portaSpeed := rfl
@[simp] theorem Channel.cutFlags_portaTo (ch : Channel) : (ch.cutFlags).portaTo = ch.portaTo := rfl
@[simp] theorem Channel.cutFlags_arpPhase (ch : Channel) : (ch.cutFlags).arpPhase = ch.arpPhase := rfl
@[simp] theorem Channel.cutFlags_arpParam (ch : Channel) : (ch.cutFlags).arpParam = ch.arpParam := rfl
@[simp] theorem Channel.cutFlags_vibSpeed (ch : Channel) : (ch.cutFlags).vibSpeed = ch.vibSpeed := rfl
@[simp] theorem Channel.cutFlags_vibDepth (ch : Channel) : (ch.cutFlags).vibDepth = ch.vibDepth := rfl
@[simp] theorem Channel.cutFlags_vibPhase (ch : Channel) : (ch.cutFlags).vibPhase = ch.vibPhase := rfl
@[simp] theorem Channel.cutFlags_tremSpeed (ch : Channel) : (ch.cutFlags).tremSpeed = ch.tremSpeed := rfl
@[simp] theorem Channel.cutFlags_tremDepth (ch : Channel) : (ch.cutFlags).tremDepth = ch.tremDepth := rfl
@[simp] theorem Channel.cutFlags_tremPhase (ch : Channel) : (ch.cutFlags).tremPhase = ch.tremPhase := rfl
@[simp] theorem Channel.cutFlags_volSlide (ch : Channel) : (ch.cutFlags).volSlide = ch.volSlide := rfl
@[simp] theorem Channel.cutFlags_cutTimer (ch : Channel) : (ch.cutFlags).cutTimer = ch.cutTimer := rfl
@[simp] theorem Channel.cutFlags_relTimer (ch : Channel) : (ch.cutFlags).relTimer = ch.relTimer := rfl
@[simp] theorem Channel.cutFlags_voldTimer (ch : Channel) : (ch.cutFlags).voldTimer = ch.voldTimer := rfl
@[simp] theorem Channel.cutFlags_newVol (ch : Channel) : (ch.cutFlags).newVol = ch.newVol := rfl
@[simp] theorem Channel.cutFlags_transTimer (ch : Channel) : (ch.cutFlags).transTimer = ch.transTimer := rfl
@[simp] theorem Channel.cutFlags_transAmount (ch : Channel) : (ch.cutFlags).transAmount = ch.transAmount := rfl
@[simp] theorem Channel.cutFlags_transDown (ch : Channel) : (ch.cutFlags).transDown = ch.transDown := rfl
@[simp] theorem Channel.cutFlags_duty (ch : Channel) : (ch.cutFlags).duty = ch.duty := rfl
@[simp] theorem Channel.cutFlags_defDuty (ch : Channel) : (ch.cutFlags).defDuty = ch.defDuty := rfl
@[simp] theorem Channel.cutFlags_delayPending (ch : Channel) : (ch.cutFlags).delayPending = ch.delayPending := rfl
@[simp] theorem Channel.cutFlags_delayTimer (ch : Channel) : (ch.cutFlags).delayTimer = ch.delayTimer := rfl
@[simp] theorem Channel.cutFlags_delayEvent (ch : Channel) : (ch.cutFlags).delayEvent = ch.delayEvent := rfl
@[simp] theorem Channel.cutFlags_echo (ch : Channel) : (ch.cutFlags).echo = ch.echo := rfl
@[simp] theorem Channel.cutFlags_free (ch : Channel) : (ch.cutFlags).free = ch.free := rfl

/-! ### consumeTrigger -/

@[simp] theorem Channel.consumeTrigger_chipId (ch : Channel) : (ch.consumeTrigger).chipId = ch.chipId := rfl
@[simp] theorem Channel.consumeTrigger_chIdx (ch : Channel) : (ch.consumeTrigger).chIdx = ch.chIdx := rfl
@[simp] theorem Channel.consumeTrigger_note (ch : Channel) : (ch.consumeTrigger).note = ch.note := rfl
@[simp] theorem Channel.consumeTrigger_gate (ch : Channel) : (ch.consumeTrigger).gate = ch.gate := rfl
@[simp] theorem Channel.consumeTrigger_release (ch : Channel) : (ch.consumeTrigger).release = ch.release := rfl
@[simp] theorem Channel.consumeTrigger_inst (ch : Channel) : (ch.consumeTrigger).inst = ch.inst := rfl
@[simp] theorem Channel.consumeTrigger_instType (ch : Channel) : (ch.consumeTrigger).instType = ch.instType := rfl
@[simp] theorem Channel.consumeTrigger_handler (ch : Channel) : (ch.consumeTrigger).handler = ch.handler := rfl
@[simp] theorem Channel.consumeTrigger_forceReload (ch : Channel) : (ch.consumeTrigger).forceReload = ch.forceReload := rfl
@[simp] theorem Channel.consumeTrigger_vol (ch : Channel) : (ch.consumeTrigger).vol = ch.vol := rfl
@[simp] theorem Channel.consumeTrigger_defVol (ch : Channel) : (ch.consumeTrigger).defVol = ch.defVol := rfl
@[simp] theorem Channel.consumeTrigger_instVol (ch : Channel) : (ch.consumeTrigger).instVol = ch.instVol := rfl
@[simp] theorem Channel.consumeTrigger_eff (ch : Channel) : (ch.consumeTrigger).eff = ch.eff := rfl
@[simp] theorem Channel.consumeTrigger_effParam (ch : Channel) : (ch.consumeTrigger).effParam = ch.effParam := rfl
@[simp] theorem Channel.consumeTrigger_period (ch : Channel) : (ch.consumeTrigger).period = ch.period := rfl
@[simp] theorem Channel.consumeTrigger_pitchWheel (ch : Channel) : (ch.consumeTrigger).pitchWheel = ch.pitchWheel := rfl
@[simp] theorem Channel.consumeTrigger_finePitch (ch : Channel) : (ch.consumeTrigger).finePitch = ch.finePitch := rfl
@[simp] theorem Channel.consumeTrigger_portaSpeed (ch : Channel) : (ch.consumeTrigger).portaSpeed = ch.portaSpeed := rfl
@[simp] theorem Channel.consumeTrigger_portaTo (ch : Channel) : (ch.consumeTrigger).portaTo = ch.portaTo := rfl
@[simp] theorem Channel.consumeTrigger_arpPhase (ch : Channel) : (ch.consumeTrigger).arpPhase = ch.arpPhase := rfl
@[simp] theorem Channel.consumeTrigger_arpParam (ch : Channel) : (ch.consumeTrigger).arpParam = ch.arpParam := rfl
@[simp] theorem Channel.consumeTrigger_vibSpeed (ch : Channel) : (ch.consumeTrigger).vibSpeed = ch.vibSpeed := rfl
@[simp] theorem Channel.consumeTrigger_vibDepth (ch : Channel) : (ch.consumeTrigger).vibDepth = ch.vibDepth := rfl
@[simp] theorem Channel.consumeTrigger_vibPhase (ch : Channel) : (ch.consumeTrigger).vibPhase = ch.vibPhase := rfl
@[simp] theorem Channel.consumeTrigger_tremSpeed (ch : Channel) : (ch.consumeTrigger).tremSpeed = ch.tremSpeed := rfl
@[simp] theorem Channel.consumeTrigger_tremDepth (ch : Channel) : (ch.consumeTrigger).tremDepth = ch.tremDepth := rfl
@[simp] theorem Channel.consumeTrigger_tremPhase (ch : Channel) : (ch.consumeTrigger).tremPhase = ch.tremPhase := rfl
@[simp] theorem Channel.consumeTrigger_volSlide (ch : Channel) : (ch.consumeTrigger).volSlide = ch.volSlide := rfl
@[simp] theorem Channel.consumeTrigger_cutTimer (ch : Channel) : (ch.consumeTrigger).cutTimer = ch.cutTimer := rfl
@[simp] theorem Channel.consumeTrigger_relTimer (ch : Channel) : (ch.consumeTrigger).relTimer = ch.relTimer := rfl
@[simp] theorem Channel.consumeTrigger_voldTimer (ch : Channel) : (ch.consumeTrigger).voldTimer = ch.voldTimer := rfl
@[simp] theorem Channel.consumeTrigger_newVol (ch : Channel) : (ch.consumeTrigger).newVol = ch.newVol := rfl
@[simp] theorem Channel.consumeTrigger_transTimer (ch : Channel) : (ch.consumeTrigger).transTimer = ch.transTimer := rfl
@[simp] theorem Channel.consumeTrigger_transAmount (ch : Channel) : (ch.consumeTrigger).transAmount = ch.transAmount := rfl
@[simp] theorem Channel.consumeTrigger_transDown (ch : Channel) : (ch.consumeTrigger).transDown = ch.transDown := rfl
@[simp] theorem Channel.consumeTrigger_duty (ch : Channel) : (ch.consumeTrigger).duty = ch.duty := rfl
@[simp] theorem Channel.consumeTrigger_defDuty (ch : Channel) : (ch.consumeTrigger).defDuty = ch.defDuty := rfl
@[simp] theorem Channel.consumeTrigger_delayPending (ch : Channel) : (ch.consumeTrigger).delayPending = ch.delayPending := rfl
@[simp] theorem Channel.consumeTrigger_delayTimer (ch : Channel) : (ch.consumeTrigger).delayTimer = ch.delayTimer := rfl
@[simp] theorem Channel.consumeTrigger_delayEvent (ch : Channel) : (ch.consumeTrigger).delayEvent = ch.delayEvent := rfl
@[simp] theorem Channel.consumeTrigger_echo (ch : Channel) : (ch.consumeTrigger).echo = ch.echo := rfl
@[simp] theorem Channel.consumeTrigger_free (ch : Channel) : (ch.consumeTrigger).free = ch.free := rfl

/-! ### The fields the updates write -/

@[simp] theorem Channel.setPeriod_period (ch : Channel) (v : Int) :
    (ch.setPeriod v).period = (clamp v 0 cfg.periodMax).toNat := rfl
@[simp] theorem Channel.setNote_note (ch : Channel) (n : Int) : (ch.setNote n).note = noteNumber n := rfl
@[simp] theorem Channel.echoPush_echo (ch : Channel) (x : Echo) :
    (ch.echoPush x).echo = (x :: ch.echo).take cfg.echoLen := rfl
@[simp] theorem Channel.playPeriod_period (ch : Channel) (e : Env) (n v : Int) :
    (ch.playPeriod e n v).period = (clamp (triggerNote e ch n + v) 0 cfg.periodMax).toNat := rfl
@[simp] theorem Channel.setSlot_handler (ch : Channel) (k : Kind) (sl : Slot) :
    (ch.setSlot k sl).handler = ch.handler.map fun h => { h with slots := h.slots.set k sl } := rfl
@[simp] theorem Channel.headFlags_gate (ch : Channel) : ch.headFlags.gate = true := rfl
@[simp] theorem Channel.headFlags_release (ch : Channel) : ch.headFlags.release = false := rfl
@[simp] theorem Channel.headFlags_trigger (ch : Channel) : ch.headFlags.trigger = true := rfl
@[simp] theorem Channel.cutFlags_gate (ch : Channel) : ch.cutFlags.gate = false := rfl
@[simp] theorem Channel.cutFlags_release (ch : Channel) : ch.cutFlags.release = false := rfl
@[simp] theorem Channel.cutFlags_trigger (ch : Channel) : ch.cutFlags.trigger = false := rfl
@[simp] theorem Channel.consumeTrigger_trigger (ch : Channel) : ch.consumeTrigger.trigger = false := rfl

/-! ### Shared.putMixer -/

@[simp] theorem Shared.putMixer_envPeriod (g : Shared) (c : Nat) (a b : Bool) : (g.putMixer c a b).envPeriod = g.envPeriod := rfl
@[simp] theorem Shared.putMixer_envShape (g : Shared) (c : Nat) (a b : Bool) : (g.putMixer c a b).envShape = g.envShape := rfl
@[simp] theorem Shared.putMixer_noisePeriod (g : Shared) (c : Nat) (a b : Bool) : (g.putMixer c a b).noisePeriod = g.noisePeriod := rfl
@[simp] theorem Shared.putMixer_envAny (g : Shared) (c : Nat) (a b : Bool) : (g.putMixer c a b).envAny = g.envAny := rfl
@[simp] theorem Shared.putMixer_update (g : Shared) (c : Nat) (a b : Bool) : (g.putMixer c a b).update = g.update := rfl
@[simp] theorem Shared.putMixer_retrig (g : Shared) (c : Nat) (a b : Bool) : (g.putMixer c a b).retrig = g.retrig := rfl

/-! ### Shared.noteEnvelope -/

@[simp] theorem Shared.noteEnvelope_envPeriod (g : Shared) (a b : Bool) : (g.noteEnvelope a b).envPeriod = g.envPeriod := rfl
@[simp] theorem Shared.noteEnvelope_envShape (g : Shared) (a b : Bool) : (g.noteEnvelope a b).envShape = g.envShape := rfl
@[simp] theorem Shared.noteEnvelope_noisePeriod (g : Shared) (a b : Bool) : (g.noteEnvelope a b).noisePeriod = g.noisePeriod := rfl
@[simp] theorem Shared.noteEnvelope_mixer (g : Shared) (a b : Bool) : (g.noteEnvelope a b).mixer = g.mixer := rfl
@[simp] theorem Shared.noteEnvelope_update (g : Shared) (a b : Bool) : (g.noteEnvelope a b).update = g.update := rfl

/-! ### Shared.clearTick -/

@[simp] theorem Shared.clearTick_envPeriod (g : Shared) : (g.clearTick).envPeriod = g.envPeriod := rfl
@[simp] theorem Shared.clearTick_envShape (g : Shared) : (g.clearTick).envShape = g.envShape := rfl
@[simp] theorem Shared.clearTick_noisePeriod (g : Shared) : (g.clearTick).noisePeriod = g.noisePeriod := rfl
@[simp] theorem Shared.clearTick_mixer (g : Shared) : (g.clearTick).mixer = g.mixer := rfl

/-! ### States -/

@[simp] theorem Channels.get_set_self (cs : Channels) (i : Fin 3) (ch : Channel) : (cs.set i ch).get i = ch := by
  match i with
  | 0 => rfl
  | 1 => rfl
  | 2 => rfl

theorem Channels.get_set_ne (cs : Channels) (i j : Fin 3) (ch : Channel) (h : j ≠ i) :
    (cs.set i ch).get j = cs.get j := by
  match i, j with
  | 0, 0 => exact absurd rfl h
  | 0, 1 => rfl
  | 0, 2 => rfl
  | 1, 0 => rfl
  | 1, 1 => exact absurd rfl h
  | 1, 2 => rfl
  | 2, 0 => rfl
  | 2, 1 => rfl
  | 2, 2 => exact absurd rfl h

@[simp] theorem Channels.set_get (cs : Channels) (i : Fin 3) : cs.set i (cs.get i) = cs := by
  match i with
  | 0 => rfl
  | 1 => rfl
  | 2 => rfl

@[simp] theorem Channels.set_set (cs : Channels) (i : Fin 3) (a b : Channel) : (cs.set i a).set i b = cs.set i b := by
  match i with
  | 0 => rfl
  | 1 => rfl
  | 2 => rfl

@[simp] theorem State.putCx_cfgReg (s : State) (i : Fin 3) (x : Cx) : (s.putCx i x).cfgReg = s.cfgReg := rfl
@[simp] theorem State.putCx_out (s : State) (i : Fin 3) (x : Cx) : (s.putCx i x).out = s.out := rfl
@[simp] theorem State.putCx_mem (s : State) (i : Fin 3) (x : Cx) : (s.putCx i x).mem = s.mem := rfl
@[simp] theorem State.putCx_inp (s : State) (i : Fin 3) (x : Cx) : (s.putCx i x).inp = s.inp := rfl
@[simp] theorem State.putCx_shr (s : State) (i : Fin 3) (x : Cx) : (s.putCx i x).shr = x.shr := rfl
@[simp] theorem State.putCx_chans (s : State) (i : Fin 3) (x : Cx) : (s.putCx i x).chans = s.chans.set i x.ch := rfl
@[simp] theorem State.emit_chans (s : State) (ws : List RegPair) : (s.emit ws).chans = s.chans := rfl
@[simp] theorem State.emit_shr (s : State) (ws : List RegPair) : (s.emit ws).shr = s.shr := rfl
@[simp] theorem State.emit_cfgReg (s : State) (ws : List RegPair) : (s.emit ws).cfgReg = s.cfgReg := rfl
@[simp] theorem State.emit_mem (s : State) (ws : List RegPair) : (s.emit ws).mem = s.mem := rfl
@[simp] theorem State.emit_inp (s : State) (ws : List RegPair) : (s.emit ws).inp = s.inp := rfl
@[simp] theorem State.emit_out (s : State) (ws : List RegPair) : (s.emit ws).out = s.out ++ ws := rfl

@[simp] theorem PerKind.get_set_self {α : Type} (p : PerKind α) (k : Kind) (v : α) : (p.set k v).get k = v := by
  cases k <;> rfl

theorem PerKind.get_set_ne {α : Type} (p : PerKind α) (k j : Kind) (v : α) (h : j ≠ k) :
    (p.set k v).get j = p.get j := by
  cases k <;> cases j <;> first | rfl | exact absurd rfl h

end Sys2Proof.Machine
end

