-- ==== Sys2Proof/Laws/Ops.lean ====
section
/-! SUPPORT. What the named operations do: clamping, the tables, the addressed channel, the period limiter and
TriggerNote. -/

namespace Sys2Proof.Machine

/-! ### Clamping -/

theorem clamp_between (v : Int) {low high : Int} (h : low ≤ high) : low ≤ clamp v low high ∧ clamp v low high ≤ high := by
  unfold clamp
  split
  · omega
  · split <;> omega

theorem clamp_of_between {v low high : Int} (h₁ : low ≤ v) (h₂ : v ≤ high) : clamp v low high = v := by
  unfold clamp
  split
  · omega
  · split <;> omega

theorem noteNumber_toNat (v : Int) : ((noteNumber v).toNat : Int) = clamp v 0 255 := by
  have h := clamp_between v (low := 0) (high := 255) (by omega)
  simp only [noteNumber, BitVec.toNat_ofNat]
  omega

@[simp] theorem noteNumber_note (n : Byte) : noteNumber n.toNat = n := by
  have h := n.isLt
  apply BitVec.eq_of_toNat_eq
  have := noteNumber_toNat n.toNat
  rw [clamp_of_between (by omega) (by omega)] at this
  exact_mod_cast this

/-! ### Tables: reading what was put, and the canonical form -/

theorem tableGet_insert {α : Type} (launch : Nat → α) (t : List (Nat × α)) (k j : Nat) (v : α) :
    tableGet launch (tableInsert t k v) j = if j = k then v else tableGet launch t j := by
  induction t with
  | nil => by_cases h : j = k <;> simp [tableInsert, tableGet, h, Ne.symm (a := j) (b := k)]
  | cons e rest ih =>
    obtain ⟨a, w⟩ := e
    simp only [tableInsert]
    split
    · by_cases h : k = j
      · simp [tableGet, h]
      · simp [tableGet, h, Ne.symm h]
    · split
      · rename_i h; subst h
        by_cases h : k = j
        · simp [tableGet, h]
        · simp [tableGet, h, Ne.symm h]
      · rename_i hk
        by_cases h : a = j
        · subst h; simp [tableGet, Ne.symm hk]
        · simp [tableGet, h, ih]

theorem tableGet_erase {α : Type} (launch : Nat → α) (t : List (Nat × α)) (k j : Nat) :
    tableGet launch (tableErase t k) j = if j = k then launch k else tableGet launch t j := by
  induction t with
  | nil => by_cases h : j = k <;> simp [tableErase, tableGet, h]
  | cons e rest ih =>
    obtain ⟨a, w⟩ := e
    by_cases h : a = k
    · have hk : tableErase ((a, w) :: rest) k = tableErase rest k := by simp [tableErase, h]
      rw [hk, ih]
      by_cases hj : j = k
      · simp [hj]
      · simp [tableGet, hj, h, Ne.symm hj]
    · have hk : tableErase ((a, w) :: rest) k = (a, w) :: tableErase rest k := by simp [tableErase, h]
      rw [hk]
      by_cases hj : a = j
      · subst hj; simp [tableGet, h]
      · simp [tableGet, hj, ih]

/-- Reading an entry after it was put gives it, and every other entry reads as before. -/
theorem tableGet_put {α : Type} [DecidableEq α] (launch : Nat → α) (t : List (Nat × α)) (k j : Nat) (v : α) :
    tableGet launch (tablePut launch t k v) j = if j = k then v else tableGet launch t j := by
  unfold tablePut
  split
  · rename_i h; rw [tableGet_erase, h]
  · exact tableGet_insert launch t k j v

/-- An entry a table lists is one of its pairs; an entry it does not list reads as launch data. -/
theorem tableGet_mem {α : Type} (launch : Nat → α) (t : List (Nat × α)) (k : Nat) :
    (k, tableGet launch t k) ∈ t ∨ tableGet launch t k = launch k := by
  induction t with
  | nil => exact .inr rfl
  | cons e rest ih =>
    obtain ⟨a, w⟩ := e
    simp only [tableGet]
    split
    · rename_i h; subst h; exact .inl (List.mem_cons_self ..)
    · exact ih.imp_left (List.mem_cons_of_mem _)

/-- A table in canonical form holds legal entries only. -/
theorem tableWf_legal {α : Type} [DecidableEq α] {launch : Nat → α} {bound : Nat} {legal : α → Bool}
    {t : List (Nat × α)} (h : tableWf launch bound legal t = true) {e : Nat × α} (he : e ∈ t) : legal e.2 = true := by
  simp only [tableWf, Bool.and_eq_true, List.all_eq_true] at h
  exact (h.2 e he).2

theorem mem_tableInsert {α : Type} {t : List (Nat × α)} {k : Nat} {v : α} {e : Nat × α}
    (he : e ∈ tableInsert t k v) : e = (k, v) ∨ e ∈ t := by
  induction t with
  | nil => simpa [tableInsert] using he
  | cons x rest ih =>
    obtain ⟨a, w⟩ := x
    simp only [tableInsert] at he
    split at he
    · simpa using he
    · split at he
      · exact (List.mem_cons.mp he).imp_right (List.mem_cons_of_mem _)
      · rcases List.mem_cons.mp he with rfl | he
        · exact .inr (List.mem_cons_self ..)
        · exact (ih he).imp_right (List.mem_cons_of_mem _)

theorem tableInsert_sorted {α : Type} (t : List (Nat × α)) (k : Nat) (v : α)
    (h : (t.map Prod.fst).Pairwise (· < ·)) : ((tableInsert t k v).map Prod.fst).Pairwise (· < ·) := by
  induction t with
  | nil => simp [tableInsert]
  | cons x rest ih =>
    obtain ⟨a, w⟩ := x
    simp only [List.map_cons, List.pairwise_cons] at h
    simp only [tableInsert]
    split
    · rename_i hk
      simp only [List.map_cons, List.pairwise_cons]
      refine ⟨?_, h⟩
      intro b hb
      rcases List.mem_cons.mp hb with rfl | hb
      · exact hk
      · exact Nat.lt_trans hk (h.1 b hb)
    · split
      · rename_i hk; subst hk
        simpa only [List.map_cons, List.pairwise_cons] using h
      · simp only [List.map_cons, List.pairwise_cons]
        refine ⟨?_, ih h.2⟩
        intro b hb
        obtain ⟨e, he, rfl⟩ := List.mem_map.mp hb
        rcases mem_tableInsert he with rfl | he
        · simp only; omega
        · exact h.1 _ (List.mem_map_of_mem he)

/-- Putting a legal entry keeps the canonical form. -/
theorem tablePut_wf {α : Type} [DecidableEq α] {launch : Nat → α} {bound : Nat} {legal : α → Bool}
    {t : List (Nat × α)} (h : tableWf launch bound legal t = true) {k : Nat} {v : α} (hk : k < bound)
    (hv : legal v = true) : tableWf launch bound legal (tablePut launch t k v) = true := by
  simp only [tableWf, Bool.and_eq_true, List.all_eq_true, decide_eq_true_eq] at h ⊢
  obtain ⟨hs, ha⟩ := h
  unfold tablePut
  split
  · refine ⟨hs.sublist (List.filter_sublist.map _), fun e he => ha e (List.mem_filter.mp he).1⟩
  · rename_i hne
    refine ⟨tableInsert_sorted t k v hs, fun e he => ?_⟩
    rcases mem_tableInsert he with rfl | he
    · exact ⟨⟨hk, by simpa using hne⟩, hv⟩
    · exact ha e he

theorem Memory.wf_iff (m : Memory) : m.wf = true ↔
    tableWf launchNote cfg.noteCount legalNote m.notes = true ∧
    tableWf launchInst cfg.instCount (fun _ => true) m.insts = true ∧
    ∀ k, tableWf (launchSeq k) cfg.seqCount legalSeq (m.seqs.get k) = true := by
  simp only [Memory.wf, Bool.and_eq_true, and_assoc, List.all_eq_true]
  refine and_congr_right fun _ => and_congr_right fun _ => ⟨fun h k => h k (by cases k <;> decide), fun h k _ => h k⟩

/-- Installing a note-table entry in range keeps the tables' form. -/
theorem installNote_wf {m : Memory} (h : m.wf = true) (n : Byte) {v : Word} (hv : legalNote v = true) :
    (m.installNote n v).wf = true := by
  rw [Memory.wf_iff] at h ⊢
  exact ⟨tablePut_wf h.1 n.isLt hv, h.2.1, h.2.2⟩

/-- Installing an instrument entry keeps the tables' form. -/
theorem installInst_wf {m : Memory} (h : m.wf = true) (i : BitVec 6) (e : InstEntry) :
    (m.installInst i e).wf = true := by
  rw [Memory.wf_iff] at h ⊢
  exact ⟨h.1, tablePut_wf h.2.1 i.isLt rfl, h.2.2⟩

/-- Installing a sequence of at most SEQ_MAX items keeps the tables' form. -/
theorem installSeq_wf {m : Memory} (h : m.wf = true) (k : Kind) (s : BitVec 7) {q : SeqData}
    (hq : legalSeq q = true) : (m.installSeq k s q).wf = true := by
  rw [Memory.wf_iff] at h ⊢
  refine ⟨h.1, h.2.1, fun j => ?_⟩
  by_cases hj : j = k
  · subst hj
    simpa [Memory.installSeq] using tablePut_wf (h.2.2 j) s.isLt hq
  · simpa [Memory.installSeq, PerKind.get_set_ne _ _ _ _ hj] using h.2.2 j

/-- The empty tables are in canonical form. -/
theorem reset_memory_wf : State.reset.mem.wf = true := by decide

/-- Reading the note table after an entry was installed. -/
theorem noteTable_installNote (m : Memory) (n j : Byte) (v : Word) :
    (m.installNote n v).noteTable j = if j = n then v.toNat else m.noteTable j := by
  unfold Memory.noteTable Memory.installNote
  rw [tableGet_put]
  by_cases h : j = n
  · simp only [h, if_true]
  · have h' : j.toNat ≠ n.toNat := fun e => h (BitVec.eq_of_toNat_eq e)
    simp only [h, h', if_false]

/-- Every sequence read has an item count in 0..SEQ_MAX (20_memory.md R73; log 34). -/
theorem seqRead_count_le {m : Memory} (h : m.wf = true) (k : Kind) (s : BitVec 7) :
    count (m.seqRead k s) ≤ cfg.seqMax := by
  rw [Memory.wf_iff] at h
  unfold Memory.seqRead
  rcases tableGet_mem (launchSeq k) (m.seqs.get k) s.toNat with hm | hl
  · exact of_decide_eq_true (tableWf_legal (h.2.2 k) hm)
  · rw [hl]
    simp only [count, launchSeq, List.length_take]
    exact Nat.min_le_left _ _

/-! ### The addressed channel -/

theorem chanOf_some {c : Chan} {i : Fin 3} (h : chanOf c = some i) : c.toNat = i := by
  unfold chanOf at h
  split at h
  · cases h; rfl
  · cases h

theorem chanOf_none {c : Chan} (h : 3 ≤ c.toNat) : chanOf c = none := by
  unfold chanOf
  split
  · omega
  · rfl

theorem chanOf_number (i : Fin 3) : chanOf (BitVec.ofNat 4 i) = some i := by
  match i with
  | 0 => decide
  | 1 => decide
  | 2 => decide

theorem State.onCx_some {c : Chan} {i : Fin 3} (h : chanOf c = some i) (s : State) (f : Env → Cx → Cx) :
    s.onCx c f = s.putCx i (f s.env (s.cx i)) := by simp only [State.onCx, h]

theorem State.onCx_none {c : Chan} (h : chanOf c = none) (s : State) (f : Env → Cx → Cx) : s.onCx c f = s := by
  simp only [State.onCx, h]

/-- What an operation on an addressed channel can do: nothing, or one channel and the shared resource change. -/
theorem State.onCx_cases (s : State) (c : Chan) (f : Env → Cx → Cx) :
    s.onCx c f = s ∨ ∃ i, chanOf c = some i ∧ s.onCx c f = s.putCx i (f s.env (s.cx i)) := by
  unfold State.onCx
  cases h : chanOf c with
  | none => exact .inl rfl
  | some i => exact .inr ⟨i, rfl, rfl⟩

@[simp] theorem State.putCx_cx (s : State) (i : Fin 3) : s.putCx i (s.cx i) = s := by
  simp only [State.putCx, State.cx, Channels.set_get]

@[simp] theorem State.onCx_mem (s : State) (c : Chan) (f : Env → Cx → Cx) : (s.onCx c f).mem = s.mem := by
  rcases s.onCx_cases c f with h | ⟨_, _, h⟩ <;> simp only [h, State.putCx]

@[simp] theorem State.onCx_inp (s : State) (c : Chan) (f : Env → Cx → Cx) : (s.onCx c f).inp = s.inp := by
  rcases s.onCx_cases c f with h | ⟨_, _, h⟩ <;> simp only [h, State.putCx]

@[simp] theorem State.onCx_out (s : State) (c : Chan) (f : Env → Cx → Cx) : (s.onCx c f).out = s.out := by
  rcases s.onCx_cases c f with h | ⟨_, _, h⟩ <;> simp only [h, State.putCx]

@[simp] theorem State.onCx_cfgReg (s : State) (c : Chan) (f : Env → Cx → Cx) : (s.onCx c f).cfgReg = s.cfgReg := by
  rcases s.onCx_cases c f with h | ⟨_, _, h⟩ <;> simp only [h, State.putCx]

/-! ### The period and the echo buffer -/

theorem setPeriod_le (ch : Channel) (v : Int) : (ch.setPeriod v).period ≤ cfg.periodMax := by
  have h := clamp_between v (low := 0) (high := cfg.periodMax) (by omega)
  simp only [Channel.setPeriod_period]
  omega

/-- A period already in range is stored as it is. -/
theorem setPeriod_of_le (ch : Channel) {p : Nat} (h : p ≤ cfg.periodMax) : (ch.setPeriod p).period = p := by
  simp only [Channel.setPeriod_period]
  rw [clamp_of_between (by omega) (by omega)]
  omega

theorem setTarget_eq (ch : Channel) (p : Nat) : ch.setTarget p = { ch with portaTo := min p 4095 } := rfl

/-- The target stays within 0..PERIOD_MAX (10_state.md R36, 60_exceptions.md R376; log 31). -/
theorem setTarget_le (ch : Channel) (p : Nat) : (ch.setTarget p).portaTo ≤ cfg.periodMax := Nat.min_le_right _ _

/-- In table mode TriggerNote is the table entry of the clamped note number and the counter stands still. -/
theorem triggerNote_table {e : Env} (h : e.cfgReg.linearPitch = false) (ch : Channel) (n : Int) :
    triggerNote e ch n = e.mem.noteTable (noteNumber n) ∧ ch.drawn e = ch := by
  simp [triggerNote, Channel.drawn, h]

theorem echoPush_length (ch : Channel) (x : Echo) (h : ch.echo.length = cfg.echoLen) :
    (ch.echoPush x).echo.length = cfg.echoLen := by
  simp [h]

end Sys2Proof.Machine
end

