-- ==== Sys2Proof/Laws/Exec.lean ====
section
/-! SUPPORT. What an instruction does on a channel of the chip: the addressed-channel operations at the number of a
channel, and the operand forms as arithmetic. -/

namespace Sys2Proof.Machine

/-! ### The addressed channel, by its number -/

@[simp] theorem State.withChan_self (s : State) (i : Fin 3) : s.withChan i (s.chans.get i) = s := by
  simp only [State.withChan, Channels.set_get]

@[simp] theorem State.withChan_get (s : State) (i : Fin 3) (ch : Channel) : (s.withChan i ch).chans.get i = ch := by
  simp only [State.withChan, Channels.get_set_self]

@[simp] theorem State.withChan_env (s : State) (i : Fin 3) (ch : Channel) : (s.withChan i ch).env = s.env := rfl

@[simp] theorem State.withChan_shr (s : State) (i : Fin 3) (ch : Channel) : (s.withChan i ch).shr = s.shr := rfl

@[simp] theorem State.withChan_mem (s : State) (i : Fin 3) (ch : Channel) : (s.withChan i ch).mem = s.mem := rfl

@[simp] theorem State.withChan_withChan (s : State) (i : Fin 3) (a b : Channel) :
    (s.withChan i a).withChan i b = s.withChan i b := by
  simp only [State.withChan, Channels.set_set]

theorem State.onCx_number (s : State) (i : Fin 3) (f : Env → Cx → Cx) :
    s.onCx (BitVec.ofNat 4 i) f = s.putCx i (f s.env (s.cx i)) := State.onCx_some (chanOf_number i) s f

theorem State.onCh_number (s : State) (i : Fin 3) (f : Env → Channel → Channel) :
    s.onCh (BitVec.ofNat 4 i) f = s.withChan i (f s.env (s.chans.get i)) := by
  rw [State.onCh, State.onCx_number]; rfl

theorem State.onShr_number (s : State) (i : Fin 3) (f : Shared → Shared) :
    s.onShr (BitVec.ofNat 4 i) f = { s with shr := f s.shr } := by
  rw [State.onShr, State.onCx_number]
  simp only [State.putCx, State.cx, Channels.set_get]

theorem State.onChannel_number (s : State) (i : Fin 3) (f : Fin 3 → State → State) :
    s.onChannel (BitVec.ofNat 4 i) f = f i s := by
  simp only [State.onChannel, chanOf_number]

/-- An operation on an addressed channel that changes nothing. -/
theorem State.onCh_id (s : State) (c : Chan) : s.onCh c (fun _ ch => ch) = s := by
  rcases s.onCx_cases c (fun _ x => x) with h | ⟨i, _, h⟩
  · exact h
  · exact h.trans (State.putCx_cx s i)

/-! ### Operand forms as arithmetic -/

theorem hi_eq (b : Byte) : hi b = BitVec.ofNat 4 (b.toNat / 16) := by
  apply BitVec.eq_of_toNat_eq; simp [hi, BitVec.extractLsb'_toNat, Nat.shiftRight_eq_div_pow]

theorem lo_eq (b : Byte) : lo b = BitVec.ofNat 4 (b.toNat % 16) := by
  apply BitVec.eq_of_toNat_eq; simp [lo, BitVec.extractLsb'_toNat]

theorem hi_toNat (b : Byte) : (hi b).toNat = b.toNat / 16 := by
  have := b.isLt; simp [hi_eq]; omega

theorem lo_toNat (b : Byte) : (lo b).toNat = b.toNat % 16 := by
  simp [lo_eq]

theorem internalVolume_eq (v : BitVec 4) : internalVolume v = BitVec.ofNat 7 (v.toNat * 8) := by
  have := v.isLt
  apply BitVec.eq_of_toNat_eq
  simp [internalVolume, cfg, BitVec.toNat_shiftLeft, Nat.shiftLeft_eq]

theorem slideSpeed_eq (p : Byte) : slideSpeed p = BitVec.ofNat 8 (p.toNat / 16 * 2 + 1) := by
  have := p.isLt
  apply BitVec.eq_of_toNat_eq
  simp [slideSpeed, hi_toNat, BitVec.toNat_shiftLeft, Nat.shiftLeft_eq]

theorem transposeTicks_eq (p : Byte) : transposeTicks p = BitVec.ofNat 4 (p.toNat / 16 % 8 + 1) := by
  apply BitVec.eq_of_toNat_eq
  simp [transposeTicks, BitVec.extractLsb'_toNat, Nat.shiftRight_eq_div_pow]

theorem delayedVolumeTicks_eq (p : Byte) : delayedVolumeTicks p = BitVec.ofNat 5 (p.toNat / 16 + 1) := by
  have := p.isLt
  apply BitVec.eq_of_toNat_eq
  simp [delayedVolumeTicks, hi_toNat]

/-- Two bytes put together. -/
theorem byteAppend_toNat (a b : Byte) : (a ++ b : Word).toNat = a.toNat * 256 + b.toNat := by
  have h : (a ++ b : Word).toNat = a.toNat <<< 8 ||| b.toNat := BitVec.toNat_append a b
  rw [h, ← Nat.shiftLeft_add_eq_or_of_lt b.isLt, Nat.shiftLeft_eq]

/-- A bit of a byte as arithmetic. -/
theorem getLsbD_eq_decide {w : Nat} (b : BitVec w) (j : Nat) : b.getLsbD j = decide (b.toNat / 2 ^ j % 2 = 1) := by
  rw [BitVec.getLsbD, Nat.testBit_eq_decide_div_mod_eq]

/-- `clamp` to 0..high of a number that is not negative, and of one that is not above. -/
theorem clamp_eq (v low high : Int) (h : low ≤ high) : clamp v low high = max low (min v high) := by
  unfold clamp; split
  · omega
  · split <;> omega

theorem noteNumber_eq (v : Int) : noteNumber v = BitVec.ofNat 8 (max 0 (min v 255)).toNat := by
  rw [noteNumber, clamp_eq _ _ _ (by omega)]

theorem setPeriod_eq (ch : Channel) (v : Int) :
    ch.setPeriod v = { ch with period := (max 0 (min v 4095)).toNat } := by
  rw [Channel.setPeriod, clamp_eq _ _ _ (by decide)]; rfl

theorem playPeriod_eq (ch : Channel) (e : Env) (n v : Int) :
    ∃ k, ch.playPeriod e n v =
      { ch with period := (max 0 (min (triggerNote e ch n + v) 4095)).toNat, free := k } := by
  rw [Channel.playPeriod, setPeriod_eq]
  unfold Channel.drawn
  split
  · exact ⟨_, rfl⟩
  · exact ⟨ch.free, rfl⟩

/-- What the counter's advance is: the channel with some other counter. -/
theorem drawn_eq (ch : Channel) (e : Env) : ∃ k, ch.drawn e = { ch with free := k } := by
  unfold Channel.drawn
  split
  · exact ⟨_, rfl⟩
  · exact ⟨ch.free, rfl⟩

/-- What ExitEffect leaves (41_effects.md R203). -/
theorem exitEffect_eq (e : Env) (ch : Channel) :
    ∃ k, exitEffect e ch =
      { ch with
        period := if ch.eff = .arpeggio then (min (triggerNote e ch ch.note.toNat) 4095) else ch.period
        arpPhase := 0, eff := .none, effParam := 0, portaSpeed := 0, portaTo := 0, free := k } := by
  unfold exitEffect
  by_cases h : ch.eff = .arpeggio
  · obtain ⟨k, hk⟩ := playPeriod_eq ch e ch.note.toNat 0
    have hn (n : Nat) : (max 0 (min ((n : Int) + 0) 4095)).toNat = min n 4095 := by omega
    exact ⟨k, by simp only [h, if_true, hk, hn]⟩
  · exact ⟨ch.free, by simp only [h, if_false]⟩

/-- TriggerNote looks at the clamped number only. -/
theorem triggerNote_noteNumber (e : Env) (ch : Channel) (n : Int) : triggerNote e ch (noteNumber n).toNat = triggerNote e ch n := by
  unfold triggerNote; rw [noteNumber_note]

end Sys2Proof.Machine
end

