-- ==== Sys2Proof/Laws/Emission.lean ====
section
/-! SUPPORT. The bounds of the datapath, the mixer bits and the register values (43_period_volume.md,
45_chip_emission.md). -/

namespace Sys2Proof.Machine

theorem scaledVolume_bounds (ch : Channel) : 0 ≤ scaledVolume ch ∧ scaledVolume ch ≤ 15 :=
  clamp_between _ (by decide)

/-- The computed volume is within 0..VOL_MAX (43_period_volume.md R268). -/
theorem calculateVolume_le (e : Env) (ch : Channel) : calculateVolume e ch ≤ 15 := by
  have := scaledVolume_bounds ch
  unfold calculateVolume
  split
  · omega
  · split <;> omega

/-- Without the gate the computed volume is 0 (43_period_volume.md R266). -/
theorem calculateVolume_gate (e : Env) (ch : Channel) (h : ch.gate = false) : calculateVolume e ch = 0 := by
  simp only [calculateVolume, h, if_true]

/-- The computed period is within 0..PERIOD_MAX (43_period_volume.md R261). -/
theorem calculatePeriod_le (e : Env) (ch : Channel) : calculatePeriod e ch ≤ 4095 := by
  unfold calculatePeriod
  split
  · exact Nat.min_le_right _ _
  · have h := clamp_between
      (ch.period - vibOffset ch.vibDepth ch.vibPhase + fineOffset ch + wheelOffset e.mem ch) (low := 0)
      (high := cfg.periodMax) (by decide)
    have hm : (cfg.periodMax : Int) = 4095 := rfl
    omega

/-- The two mixer bits of a channel, put together. -/
theorem putBit_mixer (m : Byte) (i : Fin 3) (a b : Bool) :
    putBit (putBit m i.val a) (3 + i.val) b =
      (m &&& ~~~BitVec.ofNat 8 (2 ^ i.val + 2 ^ (3 + i.val))) |||
        BitVec.ofNat 8 ((if a = true then 2 ^ i.val else 0) + (if b = true then 2 ^ (3 + i.val) else 0)) := by
  revert m
  match i with
  | 0 => cases a <;> cases b <;> decide
  | 1 => cases a <;> cases b <;> decide
  | 2 => cases a <;> cases b <;> decide

/-- Putting mixer bits leaves bits 7:6 zero (10_state.md R56). -/
theorem putMixer_lt (g : Shared) (i : Fin 3) (a b : Bool) (h : g.mixer.toNat < 64) :
    (g.putMixer i.val a b).mixer.toNat < 64 := by
  have key : ∀ m : Byte, m.toNat < 64 → (putBit (putBit m i.val a) (3 + i.val) b).toNat < 64 := by
    match i with
    | 0 => cases a <;> cases b <;> decide
    | 1 => cases a <;> cases b <;> decide
    | 2 => cases a <;> cases b <;> decide
  exact key _ h

theorem levelByte_eq (env : Bool) {v : Nat} (h : v ≤ 15) :
    levelByte env v = BitVec.ofNat 8 ((if env = true then 16 else 0) + v) := by
  interval_cases v <;> cases env <;> rfl

theorem periodHigh_eq {p : Nat} (h : p ≤ 4095) : periodHigh p = BitVec.ofNat 8 (p / 256) := by
  unfold periodHigh; congr 1; omega

/-- What the duty byte enables, as arithmetic on it (30_encoding.md R115). -/
theorem duty_bits (d : Byte) :
    dutySquare d = decide (d.toNat / 64 % 2 = 1) ∧ dutyNoise d = decide (d.toNat / 128 % 2 = 1) ∧
    dutyEnv d = decide (d.toNat / 32 % 2 = 1) ∧ dutyNoisePeriod d = BitVec.ofNat 5 (d.toNat % 32) := by
  refine ⟨getLsbD_eq_decide d 6, getLsbD_eq_decide d 7, getLsbD_eq_decide d 5, ?_⟩
  apply BitVec.eq_of_toNat_eq
  simp [dutyNoisePeriod, BitVec.extractLsb'_toNat]

end Sys2Proof.Machine
end

