-- ==== Sys2Proof/Laws/Encoding.lean ====
section
/-! SUPPORT. The bit fields of a word: as arithmetic, and of a word the encoder assembles. -/

namespace Sys2Proof

/-! ### The fields as arithmetic -/

theorem opField_toNat (w : Word) : (opField w).toNat = w.toNat / 4096 := by
  simp only [opField, BitVec.extractLsb'_toNat, Nat.shiftRight_eq_div_pow]; omega

theorem chField_eq (w : Word) : chField w = BitVec.ofNat 4 (w.toNat / 256 % 16) := by
  apply BitVec.eq_of_toNat_eq; simp [chField, BitVec.extractLsb'_toNat, Nat.shiftRight_eq_div_pow]

theorem loByte_eq (w : Word) : loByte w = BitVec.ofNat 8 (w.toNat % 256) := by
  apply BitVec.eq_of_toNat_eq; simp [loByte, BitVec.extractLsb'_toNat]

theorem hiByte_eq (w : Word) : hiByte w = BitVec.ofNat 8 (w.toNat / 256) := by
  apply BitVec.eq_of_toNat_eq; simp [hiByte, BitVec.extractLsb'_toNat, Nat.shiftRight_eq_div_pow]

theorem noteField_eq (w : Word) : noteField w = BitVec.ofNat 4 (w.toNat % 16) := by
  apply BitVec.eq_of_toNat_eq; simp [noteField, BitVec.extractLsb'_toNat]

theorem octField_eq (w : Word) : octField w = BitVec.ofNat 3 (w.toNat / 16 % 8) := by
  apply BitVec.eq_of_toNat_eq; simp [octField, BitVec.extractLsb'_toNat, Nat.shiftRight_eq_div_pow]

theorem volcField_eq (w : Word) : volcField w = BitVec.ofNat 5 (w.toNat / 256 % 32) := by
  apply BitVec.eq_of_toNat_eq; simp [volcField, BitVec.extractLsb'_toNat, Nat.shiftRight_eq_div_pow]

/-! ### The fields of an assembled word -/

@[simp] theorem opField_hcWord (op : BitVec 4) (c : Chan) (arg : Byte) : opField (hcWord op c arg) = op := by
  simp only [opField, hcWord]; ext j hj; simp only [BitVec.getElem_extractLsb']; grind

@[simp] theorem chField_hcWord (op : BitVec 4) (c : Chan) (arg : Byte) : chField (hcWord op c arg) = c := by
  simp only [chField, hcWord]; ext j hj; simp only [BitVec.getElem_extractLsb']; grind

@[simp] theorem loByte_hcWord (op : BitVec 4) (c : Chan) (arg : Byte) : loByte (hcWord op c arg) = arg := by
  simp only [loByte, hcWord]; ext j hj; simp only [BitVec.getElem_extractLsb']; grind

@[simp] theorem noteField_noteWord (n : BitVec 4) (o : BitVec 3) (v : BitVec 5) : noteField (noteWord n o v) = n := by
  simp only [noteField, noteWord]; ext j hj; simp only [BitVec.getElem_extractLsb']; grind

@[simp] theorem octField_noteWord (n : BitVec 4) (o : BitVec 3) (v : BitVec 5) : octField (noteWord n o v) = o := by
  simp only [octField, noteWord]; ext j hj; simp only [BitVec.getElem_extractLsb']; grind

@[simp] theorem volcField_noteWord (n : BitVec 4) (o : BitVec 3) (v : BitVec 5) : volcField (noteWord n o v) = v := by
  simp only [volcField, noteWord]; ext j hj; simp only [BitVec.getElem_extractLsb']; grind

@[simp] theorem hiByte_bytePair (h l : Byte) : hiByte (bytePair h l) = h := by
  simp only [hiByte, bytePair]; ext j hj; simp only [BitVec.getElem_extractLsb']; grind

@[simp] theorem loByte_bytePair (h l : Byte) : loByte (bytePair h l) = l := by
  simp only [loByte, bytePair]; ext j hj; simp only [BitVec.getElem_extractLsb']; grind

@[simp] theorem fxOfWord_bytePair (h l : Byte) : fxOfWord (bytePair h l) = ⟨h, l⟩ := by
  rw [fxOfWord, hiByte_bytePair, loByte_bytePair]

@[simp] theorem loByte_instWord (l : Byte) : loByte (instWord l) = l := loByte_bytePair 0 l

@[simp] theorem hiByte_itemWord (l : Byte) : hiByte (itemWord l) = 0 := hiByte_bytePair 0 l

@[simp] theorem loByte_itemWord (l : Byte) : loByte (itemWord l) = l := loByte_bytePair 0 l

@[simp] theorem schemeItem_scheme (a : BitVec 2) (l : BitVec 6) : (schemeItem a l).extractLsb' 6 2 = a := by
  simp only [schemeItem]; ext j hj; simp only [BitVec.getElem_extractLsb']; grind

@[simp] theorem schemeItem_limit (a : BitVec 2) (l : BitVec 6) : (schemeItem a l).extractLsb' 0 6 = l := by
  simp only [schemeItem]; ext j hj; simp only [BitVec.getElem_extractLsb']; grind

/-- The length an opcode fixes. -/
theorem commandLength_hcWord (op : BitVec 4) (c : Chan) (arg : Byte) :
    commandLength (hcWord op c arg) = if op = 2 then longestCommand else if op = 8 then 2 else 1 := by
  rw [commandLength, opField_hcWord]
  split
  · rename_i h; rw [if_pos (BitVec.eq_of_toNat_eq h)]
  · rename_i h; rw [if_neg (fun hc => by simp [hc] at h), if_pos (BitVec.eq_of_toNat_eq h)]
  · rename_i h₁ h₂
    rw [if_neg (fun hc => by simp [hc] at h₁), if_neg (fun hc => by simp [hc] at h₂)]

end Sys2Proof
end

