-- ==== Sys2Proof/Laws/Sequence.lean ====
section
/-! SUPPORT. What the operations of the Sequence Engine do to a slot (44_sequence_engine.md). -/

namespace Sys2Proof.Machine

/-- Step with its points spelled out: the branches of R311 in their order. -/
theorem stepSlot_eq (q : SeqData) (releasing : Bool) (sl : Slot) :
    stepSlot q releasing sl =
      if (q.release.toNat < q.items.length ∧ sl.pos = q.release.toNat) ∨ q.items.length ≤ sl.pos + 1 then
        if q.loop.toNat < q.items.length ∧ q.release.toNat < q.items.length ∧ q.loop.toNat < q.release.toNat ∧
            releasing = false then
          { sl with pos := q.loop.toNat }
        else if q.items.length ≤ sl.pos + 1 then
          if q.loop.toNat < q.items.length ∧
              (q.items.length ≤ q.release.toNat ∨ q.release.toNat ≤ q.loop.toNat) then
            { sl with pos := q.loop.toNat }
          else { sl with pos := sl.pos + 1, st := .ended }
        else if releasing = false then sl
        else { sl with pos := sl.pos + 1 }
      else { sl with pos := sl.pos + 1 } := by
  by_cases hl : q.loop.toNat < q.items.length <;> by_cases hr : q.release.toNat < q.items.length
  · have hL : loopPoint q = some q.loop.toNat := if_pos hl
    have hR : releasePoint q = some q.release.toNat := if_pos hr
    have hn : ¬ q.items.length ≤ q.release.toNat := by omega
    simp only [stepSlot, stepLoopBeforeRelease, stepLoopAtEnd, hL, hR, count, hl, hr, hn, true_and, false_or,
      Option.some.injEq, eq_comm (a := q.release.toNat)]
    by_cases hb : q.loop.toNat < q.release.toNat ∧ releasing = false
    · simp only [hb, and_self, if_true]
    · simp only [hb, if_false]
      by_cases hc : q.release.toNat ≤ q.loop.toNat
      · simp only [hc, if_true, Nat.add_sub_cancel]
      · simp only [hc, if_false, Nat.add_sub_cancel]
  · have hL : loopPoint q = some q.loop.toNat := if_pos hl
    have hR : releasePoint q = none := if_neg hr
    have hn : q.items.length ≤ q.release.toNat := by omega
    simp only [stepSlot, stepLoopBeforeRelease, stepLoopAtEnd, hL, hR, count, hl, hr, hn, true_and, false_and, and_false,
      true_or, false_or, if_true, if_false, reduceCtorEq, Nat.add_sub_cancel]
  · have hL : loopPoint q = none := if_neg hl
    simp only [stepSlot, stepLoopBeforeRelease, stepLoopAtEnd, hL, releasePoint, count, hl, hr, true_and, false_and,
      if_true, if_false, Option.some.injEq, eq_comm (a := q.release.toNat), Nat.add_sub_cancel]
  · have hL : loopPoint q = none := if_neg hl
    have hR : releasePoint q = none := if_neg hr
    simp only [stepSlot, stepLoopBeforeRelease, stepLoopAtEnd, hL, hR, count, hl, hr, false_and, and_false,
      false_or, if_false, reduceCtorEq, Nat.add_sub_cancel]

/-- Step never touches what the slot is bound to. -/
@[simp] theorem stepSlot_bound (q : SeqData) (releasing : Bool) (sl : Slot) :
    (stepSlot q releasing sl).bound = sl.bound := by
  rw [stepSlot_eq]; repeat' split
  all_goals rfl

/-- Step from an item goes to an item or ends one past the last (R315). -/
theorem stepSlot_pos (q : SeqData) (releasing : Bool) (sl : Slot) (h : sl.pos < q.items.length) :
    (stepSlot q releasing sl).pos ≤ q.items.length ∧
    ((stepSlot q releasing sl).st = .running → (stepSlot q releasing sl).pos < q.items.length) := by
  rw [stepSlot_eq]
  repeat' split
  all_goals (refine ⟨?_, fun hst => ?_⟩ <;> simp_all <;> omega)

/-! ### The handler's slots -/

@[simp] theorem Handler.mapSlots_get (h : Handler) (f : Kind → Slot → Slot) (k : Kind) :
    (h.mapSlots f).slots.get k = f k (h.slots.get k) := by cases k <;> rfl

@[simp] theorem Handler.mapSlots_type (h : Handler) (f : Kind → Slot → Slot) : (h.mapSlots f).type = h.type := rfl

@[simp] theorem Handler.mapSlots_noteOff (h : Handler) (f : Kind → Slot → Slot) : (h.mapSlots f).noteOff = h.noteOff := rfl

@[simp] theorem Handler.mapSlots_pitchOff (h : Handler) (f : Kind → Slot → Slot) :
    (h.mapSlots f).pitchOff = h.pitchOff := rfl

/-- LoadInstrument on a slot, with no instrument index out of reach: a sequence index has 7 bits (20_memory.md R71). -/
theorem loadSlot_eq (m : Memory) (en : InstEntry) (k : Kind) (sl : Slot) :
    loadSlot m en k sl =
      if en.en.get k = false ∨ (m.seqRead k (en.seq.get k)).items = [] then Slot.off
      else if sl.bound = some (en.seq.get k) ∧ sl.st ≠ .disabled then sl
      else ⟨some (en.seq.get k), .running, 0⟩ := by
  have hlt : ¬ cfg.seqCount ≤ (en.seq.get k).toNat := by
    have := (en.seq.get k).isLt
    simp only [cfg]; omega
  unfold loadSlot
  simp only [ge_iff_le, hlt, false_or, count, List.length_eq_zero_iff]
  by_cases h1 : en.en.get k = false
  · simp only [h1, true_or, if_true]
  · by_cases h2 : (m.seqRead k (en.seq.get k)).items = []
    · rw [if_neg h1, if_pos h2, if_pos (.inr h2)]
    · rw [if_neg h1, if_neg h2, if_neg (not_or.mpr ⟨h1, h2⟩)]
      by_cases h3 : sl.bound = some (en.seq.get k) <;> by_cases h4 : sl.st = .disabled <;> simp [h3, h4]

theorem triggerSlot_eq (m : Memory) (k : Kind) (sl : Slot) :
    triggerSlot m k sl =
      match sl.bound with
      | none => sl
      | some s => if (m.seqRead k s).items = [] then ⟨some s, .disabled, sl.pos⟩ else ⟨some s, .running, 0⟩ := by
  obtain ⟨b, st, p⟩ := sl
  cases b with
  | none => rfl
  | some s => simp only [triggerSlot, count, List.length_eq_zero_iff]

theorem releaseSlot_eq (m : Memory) (k : Kind) (sl : Slot) :
    releaseSlot m k sl =
      match sl.bound with
      | none => sl
      | some s =>
        if sl.st ≠ .disabled ∧ (m.seqRead k s).release.toNat < (m.seqRead k s).items.length then
          ⟨some s, .running, (m.seqRead k s).release.toNat⟩
        else sl := by
  obtain ⟨b, st, p⟩ := sl
  cases b with
  | none => rfl
  | some s =>
    simp only [releaseSlot, releasePoint, count]
    by_cases h1 : st = .disabled
    · simp [h1]
    · by_cases h2 : (m.seqRead k s).release.toNat < (m.seqRead k s).items.length
      · simp [h1, h2]
      · simp [h1, h2]

end Sys2Proof.Machine
end

