-- ==== Sys2Proof/Laws/Tick.lean ====
section
/-! SUPPORT. What the steps of PROCESS do, one lemma per step (42_tick_update.md). -/

namespace Sys2Proof.Machine

/-- A number that is not zero is not the zero vector, and the other way round. -/
theorem ne_zero_iff_toNat_pos {w : Nat} (b : BitVec w) : b ≠ 0 ↔ 0 < b.toNat := by
  rw [Nat.pos_iff_ne_zero, not_iff_not]
  exact ⟨fun h => by simp [h], fun h => BitVec.eq_of_toNat_eq (by simpa using h)⟩

/-- One less than a number that is not zero. -/
theorem sub_one_eq {w : Nat} (b : BitVec w) (h : b ≠ 0) : b - 1 = BitVec.ofNat w (b.toNat - 1) := by
  have hp := (ne_zero_iff_toNat_pos b).mp h
  have hw : w ≠ 0 := by rintro rfl; exact absurd b.isLt (by simp; omega)
  have h2 : 1 < 2 ^ w := Nat.one_lt_two_pow hw
  have hb := b.isLt
  apply BitVec.eq_of_toNat_eq
  have h1 : (1 : BitVec w).toNat = 1 := by simpa using Nat.mod_eq_of_lt h2
  rw [BitVec.toNat_sub, h1, BitVec.toNat_ofNat]
  rw [show 2 ^ w - 1 + b.toNat = 2 ^ w + (b.toNat - 1) by omega, Nat.add_mod_left]

/-- Counting down to zero is counting from one. -/
theorem sub_one_eq_zero_iff {w : Nat} (b : BitVec w) : b - 1 = 0 ↔ b = 1 := by
  constructor
  · intro h; have := congrArg (· + 1) h; simpa using this
  · rintro rfl; simp

/-- A note number plus nothing is held as it is up to the period limit. -/
theorem held_nat (n : Nat) : (max 0 (min ((n : Int) + 0) 4095)).toNat = min n 4095 := by omega

theorem updateNoteCut_eq (ch : Channel) :
    updateNoteCut ch =
      if ch.cutTimer = 0 then ch
      else if ch.cutTimer = 1 then
        { ch with cutTimer := 0, gate := false, release := false, trigger := false, period := 0, portaTo := 0 }
      else { ch with cutTimer := BitVec.ofNat 8 (ch.cutTimer.toNat - 1) } := by
  unfold updateNoteCut
  split
  · rfl
  · rename_i h0
    simp only [sub_one_eq_zero_iff]
    split
    · rename_i h1; simp only [h1]; rfl
    · rw [sub_one_eq _ h0]

theorem releaseNote_eq (m : Memory) (ch : Channel) :
    releaseNote m ch =
      { ch with
        release := true
        handler := if ch.release = true then ch.handler else ch.handler.map fun h => h.mapSlots (releaseSlot m) } := by
  unfold releaseNote releaseInstrument
  cases hh : ch.handler <;> cases hr : ch.release <;> simp [hh]

theorem updateNoteRelease_eq (e : Env) (ch : Channel) :
    updateNoteRelease e ch =
      if ch.relTimer = 0 then ch
      else if ch.relTimer = 1 then releaseNote e.mem { ch with relTimer := 0 }
      else { ch with relTimer := BitVec.ofNat 8 (ch.relTimer.toNat - 1) } := by
  unfold updateNoteRelease
  split
  · rfl
  · rename_i h0
    simp only [sub_one_eq_zero_iff]
    split
    · rename_i h1; simp only [h1]; rfl
    · rw [sub_one_eq _ h0]

theorem updateDelayedVolume_eq (ch : Channel) :
    updateDelayedVolume ch =
      if ch.voldTimer = 0 then ch
      else if ch.voldTimer = 1 then { ch with voldTimer := 0, vol := ch.newVol }
      else { ch with voldTimer := BitVec.ofNat 5 (ch.voldTimer.toNat - 1) } := by
  unfold updateDelayedVolume
  split
  · rfl
  · rename_i h0
    simp only [sub_one_eq_zero_iff]
    split
    · rename_i h1; simp only [h1]; rfl
    · rw [sub_one_eq _ h0]

/-- The note a transpose moves to. -/
theorem noteNumber_transposed (ch : Channel) :
    noteNumber (transposedNote ch) =
      BitVec.ofNat 8
        (if ch.transDown = true then ch.note.toNat - ch.transAmount.toNat
         else min (ch.note.toNat + ch.transAmount.toNat) 255) := by
  rw [noteNumber_eq, transposedNote]; congr 1; split <;> omega

theorem updateTranspose_eq (e : Env) (ch : Channel) :
    updateTranspose e ch =
      if ch.transTimer = 0 then ch
      else if ch.transTimer = 1 then
        ({ ch with transTimer := 0, note := noteNumber (transposedNote ch) } : Channel).playPeriod e
          (noteNumber (transposedNote ch)).toNat
      else { ch with transTimer := BitVec.ofNat 4 (ch.transTimer.toNat - 1) } := by
  unfold updateTranspose
  split
  · rfl
  · rename_i h0
    simp only [sub_one_eq_zero_iff]
    split
    · rename_i h1; simp only [h1]; rfl
    · rw [sub_one_eq _ h0]

theorem updateVolumeSlide_eq (ch : Channel) :
    updateVolumeSlide ch =
      { ch with
        vol := BitVec.ofNat 7 (min (ch.vol.toNat - ch.volSlide.toNat % 16 + ch.volSlide.toNat / 16) 127) } := by
  simp only [updateVolumeSlide, hi_toNat, lo_toNat, cfg]
  congr 2; omega

/-- The step toward the target: by the speed, and never past it. -/
theorem stepToTarget_eq (ch : Channel) :
    stepToTarget ch =
      { ch with
        period :=
          if ch.portaSpeed.toNat = 0 ∨ ch.portaTo = 0 then ch.period
          else if ch.portaTo < ch.period then min (max (ch.period - ch.portaSpeed.toNat) ch.portaTo) 4095
          else if ch.period < ch.portaTo then min (min (ch.period + ch.portaSpeed.toNat) ch.portaTo) 4095
          else ch.period } := by
  unfold stepToTarget
  by_cases h : ch.portaSpeed.toNat = 0 ∨ ch.portaTo = 0
  · rw [if_neg (by rw [ne_zero_iff_toNat_pos]; omega)]
    simp only [h, if_true]
  · rw [if_pos (by rw [ne_zero_iff_toNat_pos]; omega)]
    simp only [h, if_false, setPeriod_eq]
    by_cases h1 : ch.portaTo < ch.period
    · simp only [h1, if_true]; congr 1; omega
    · simp only [h1, if_false]
      by_cases h2 : ch.period < ch.portaTo
      · simp only [h2, if_true]; congr 1; omega
      · simp only [h2, if_false]

end Sys2Proof.Machine
end

