-- ==== Sys2Proof/Laws/Invariant.lean ====
section
/-! SUPPORT. Every operation on a channel keeps the channel's invariant (Safety.lean). -/

namespace Sys2Proof.Machine

variable {e : Env} {i : Nat} {ch : Channel}

/-! ### The period and the slot -/

theorem ChannelInv.setPeriod {m : Memory} (h : ChannelInv m i ch) (v : Int) : ChannelInv m i (ch.setPeriod v) :=
  { h with period := setPeriod_le ch v }

theorem ChannelInv.drawn {m : Memory} (h : ChannelInv m i ch) (e : Env) : ChannelInv m i (ch.drawn e) := by
  obtain ⟨k, hk⟩ := drawn_eq ch e
  rw [hk]
  exact { h with }

theorem ChannelInv.playPeriod {m : Memory} (h : ChannelInv m i ch) (e : Env) (n v : Int) :
    ChannelInv m i (ch.playPeriod e n v) := (h.drawn e).setPeriod _

theorem ChannelInv.setNote {m : Memory} (h : ChannelInv m i ch) (n : Int) : ChannelInv m i (ch.setNote n) := { h with }

theorem ChannelInv.setEffect {m : Memory} (h : ChannelInv m i ch) (kind : Eff) (p : Byte) :
    ChannelInv m i (setEffect kind p ch) := { h with }

theorem ChannelInv.exitEffect {m : Memory} (h : ChannelInv m i ch) (e : Env) : ChannelInv m i (exitEffect e ch) := by
  unfold Machine.exitEffect
  split
  · exact { h.playPeriod e _ _ with portaTo := Nat.zero_le _ }
  · exact { h with portaTo := Nat.zero_le _ }

theorem ChannelInv.setTarget {m : Memory} (h : ChannelInv m i ch) (p : Nat) : ChannelInv m i (ch.setTarget p) :=
  { h with portaTo := setTarget_le ch p }

theorem ChannelInv.aimAtNote (h : ChannelInv e.mem i ch) : ChannelInv e.mem i (aimAtNote e ch) :=
  (h.drawn e).setTarget _

theorem ChannelInv.setupSlide (h : ChannelInv e.mem i ch) :
    ChannelInv e.mem i (setupSlide e ch) := by
  unfold Machine.setupSlide
  split
  · exact ChannelInv.aimAtNote { h with }
  · exact ChannelInv.aimAtNote { h with }
  · exact ChannelInv.aimAtNote { h with }
  all_goals exact h

theorem ChannelInv.slotCommand {m : Memory} (h : ChannelInv m i ch) (kind : Eff) (p : Byte) (e : Env)
    {enter : Channel → Channel} (he : ∀ x, ChannelInv m i x → ChannelInv m i (enter x)) :
    ChannelInv m i (slotCommand kind p e enter ch) := by
  unfold Machine.slotCommand
  split
  · exact h.exitEffect e
  · exact he _ (h.setEffect kind p)

/-! ### Effects -/

theorem transposeTicks_le (p : Byte) : (transposeTicks p).toNat ≤ 8 := by
  rw [transposeTicks_eq, BitVec.toNat_ofNat]; omega

theorem delayedVolumeTicks_le (p : Byte) : (delayedVolumeTicks p).toNat ≤ 16 := by
  have := p.isLt
  rw [delayedVolumeTicks_eq, BitVec.toNat_ofNat]; omega

/-- A parameter that is not rejected loads its timer with at most 0x80. -/
theorem timer_le {p : Byte} (h : timerParamRejected p = false) : (p + 1).toNat ≤ 0x80 := by
  have hp : p.toNat < 128 := Nat.lt_of_not_le (of_decide_eq_false h)
  rw [BitVec.toNat_add]
  have h1 : (1 : Byte).toNat = 1 := rfl
  omega

theorem ChannelInv.baseEffect (h : ChannelInv e.mem i ch) (f : Fx) {ch' : Channel}
    (hb : baseEffect f e ch = some ch') : ChannelInv e.mem i ch' := by
  unfold Machine.baseEffect at hb
  split at hb
  · cases hb; exact h.slotCommand _ _ e fun x hx => hx.setupSlide
  · cases hb; exact { h with }
  · cases hb; exact { h with }
  · cases hb
    exact ChannelInv.slotCommand (ch := { ch with arpParam := f.param }) { h with } _ _ e fun x hx => hx
  · cases hb; exact { h with }
  · cases hb; exact h.slotCommand _ _ e fun x hx => { hx with }
  · cases hb; exact h.slotCommand _ _ e fun x hx => { hx with }
  · cases hb; exact h.slotCommand _ _ e fun x hx => hx.setupSlide
  · cases hb; exact h.slotCommand _ _ e fun x hx => hx.setupSlide
  · cases hb; exact { h with }
  · split at hb
    · cases hb
    · rename_i hr; cases hb; exact { h with cutTimer := timer_le (by simpa using hr) }
  · split at hb
    · cases hb
    · rename_i hr; cases hb; exact { h with relTimer := timer_le (by simpa using hr) }
  · cases hb; exact { h with voldTimer := delayedVolumeTicks_le _ }
  · cases hb; exact { h with transTimer := transposeTicks_le _ }
  · cases hb; exact { h with }
  · cases hb

/-- HandleEffect keeps the channel's invariant and the mixer. -/
theorem ChannelInv.handleEffect {x : Cx} (h : ChannelInv e.mem i x.ch) (f : Fx) :
    ChannelInv e.mem i (handleEffect e x f).1.ch ∧ (handleEffect e x f).1.shr.mixer = x.shr.mixer := by
  unfold Machine.handleEffect
  split
  · rename_i g hg
    refine ⟨h, ?_⟩
    unfold chipEffect at hg
    split at hg
    all_goals first | (cases hg; rfl) | cases hg
  · split
    · rename_i ch' hb; exact ⟨h.baseEffect f hb, rfl⟩
    · exact ⟨h, rfl⟩

theorem ChannelInv.handleColumns (columns : List Fx) :
    ∀ {x : Cx}, ChannelInv e.mem i x.ch →
      ChannelInv e.mem i (handleColumns e x columns).ch ∧ (handleColumns e x columns).shr.mixer = x.shr.mixer := by
  induction columns with
  | nil => exact fun h => ⟨h, rfl⟩
  | cons f fs ih =>
    intro x h
    have h1 := h.handleEffect f
    have h2 := ih h1.1
    exact ⟨h2.1, h2.2.trans h1.2⟩

/-! ### Slots and handlers -/

theorem SlotInv.off (m : Memory) (k : Kind) : SlotInv m k Slot.off where
  bounded := Nat.zero_le _
  range hr := nomatch hr
  unbound _ := rfl
  running _ hb := nomatch hb

/-- A slot at the start of a sequence that is not empty. -/
theorem SlotInv.start {m : Memory} {k : Kind} {s : BitVec 7} (h : (m.seqRead k s).items ≠ []) :
    SlotInv m k ⟨some s, .running, 0⟩ where
  bounded := Nat.zero_le _
  range _ := Nat.zero_lt_succ _
  unbound hb := nomatch hb
  running t ht _ := by
    cases ht
    exact List.length_pos_iff.mpr h

theorem SlotInv.load {m : Memory} {k : Kind} {sl : Slot} (h : SlotInv m k sl) (en : InstEntry) :
    SlotInv m k (loadSlot m en k sl) := by
  rw [loadSlot_eq]
  split
  · exact SlotInv.off m k
  · rename_i hn
    split
    · exact h
    · exact SlotInv.start fun hi => hn (.inr hi)

theorem SlotInv.trigger {m : Memory} {k : Kind} {sl : Slot} (h : SlotInv m k sl) : SlotInv m k (triggerSlot m k sl) := by
  rw [triggerSlot_eq]
  split
  · exact h
  · rename_i s hb
    split
    · exact { bounded := h.bounded, range := fun hr => (nomatch hr), unbound := fun hb => (nomatch hb)
              running := fun _ _ hr => (nomatch hr) }
    · rename_i hn; exact SlotInv.start hn

theorem SlotInv.release {m : Memory} (hw : m.wf = true) {k : Kind} {sl : Slot} (h : SlotInv m k sl) :
    SlotInv m k (releaseSlot m k sl) := by
  rw [releaseSlot_eq]
  split
  · exact h
  · rename_i s _
    split
    · rename_i hr
      exact
        { bounded := Nat.le_trans (Nat.le_of_lt hr.2) (seqRead_count_le hw k s)
          range := fun _ => Nat.lt_of_lt_of_le hr.2 (seqRead_count_le hw k s)
          unbound := fun hb => nomatch hb
          running := fun t ht _ => by cases ht; exact hr.2 }
    · exact h

theorem SlotInv.step {m : Memory} (hw : m.wf = true) {k : Kind} {sl : Slot} {s : BitVec 7} (hb : sl.bound = some s)
    (releasing : Bool) (hp : sl.pos < count (m.seqRead k s)) : SlotInv m k (stepSlot (m.seqRead k s) releasing sl) := by
  have h := stepSlot_pos (m.seqRead k s) releasing sl hp
  exact
    { bounded := Nat.le_trans h.1 (seqRead_count_le hw k s)
      range := fun hr => Nat.lt_of_lt_of_le (h.2 hr) (seqRead_count_le hw k s)
      unbound := fun hn => by rw [stepSlot_bound, hb] at hn; cases hn
      running := fun t ht hr => by rw [stepSlot_bound, hb] at ht; cases ht; exact h.2 hr }

/-- An operation on every slot keeps the handler's invariant. -/
theorem HandlerInv.mapSlots {m : Memory} {h : Handler} {inst : Byte} {t : InstType} (hi : HandlerInv m (some h) inst t)
    {f : Kind → Slot → Slot} (hf : ∀ k sl, SlotInv m k sl → SlotInv m k (f k sl)) (a b : Int) :
    HandlerInv m (some { h.mapSlots f with noteOff := a, pitchOff := b }) inst t where
  absent hn := nomatch hn
  typed g hg := by cases hg; exact hi.typed h rfl
  index g hg := by cases hg; exact hi.index h rfl
  slots g hg k := by
    cases hg
    show SlotInv m k ((h.mapSlots f).slots.get k)
    rw [Handler.mapSlots_get]
    exact hf k _ (hi.slots h rfl k)

/-- Writing one slot keeps the handler's invariant when the slot meets its own. -/
theorem HandlerInv.setSlot {m : Memory} {h : Handler} {inst : Byte} {t : InstType} (hi : HandlerInv m (some h) inst t)
    (k : Kind) {sl : Slot} (hs : SlotInv m k sl) :
    HandlerInv m (some { h with slots := h.slots.set k sl }) inst t where
  absent hn := nomatch hn
  typed g hg := by cases hg; exact hi.typed h rfl
  index g hg := by cases hg; exact hi.index h rfl
  slots g hg j := by
    cases hg
    by_cases hj : j = k
    · subst hj; simpa using hs
    · simpa [PerKind.get_set_ne _ _ _ _ hj] using hi.slots h rfl j

theorem ChannelInv.triggerInstrument {m : Memory} (h : ChannelInv m i ch) : ChannelInv m i (triggerInstrument m ch) := by
  cases hh : ch.handler with
  | none =>
    have hi := h.handler
    rw [hh] at hi
    exact { h with handler := by simpa only [Machine.triggerInstrument, hh, Option.map_none] using hi }
  | some g =>
    have hi := h.handler
    rw [hh] at hi
    exact { h with
      handler := by
        simpa only [Machine.triggerInstrument, hh, Option.map_some] using
          hi.mapSlots (fun k sl hs => hs.trigger) 0 0 }

theorem ChannelInv.releaseNote {m : Memory} (hw : m.wf = true) (h : ChannelInv m i ch) :
    ChannelInv m i (releaseNote m ch) := by
  rw [releaseNote_eq]
  refine { h with handler := ?_ }
  show HandlerInv m (if ch.release = true then _ else _) ch.inst ch.instType
  split
  · exact h.handler
  · cases hh : ch.handler with
    | none => have hi := h.handler; rw [hh] at hi; exact hi
    | some g => have hi := h.handler; rw [hh] at hi; exact hi.mapSlots (fun k sl hs => hs.release hw) g.noteOff g.pitchOff

/-! ### Rows -/

theorem ChannelInv.loadEntry {m : Memory} (h : ChannelInv m i ch) {idx : Byte} (hidx : idx.toNat < cfg.instCount)
    {en : InstEntry} (ht : en.type = .native ∨ en.type = .foreign) (reload head : Bool) :
    ChannelInv m i (loadEntry m idx en reload head ch) := by
  have hf : (handlerFor en.type ch.handler).type = en.type := by
    unfold handlerFor
    split
    · split
      · assumption
      · rfl
    · rfl
  have hs : ∀ k, SlotInv m k ((handlerFor en.type ch.handler).slots.get k) := by
    intro k
    have ho : SlotInv m k ((newHandler en.type).slots.get k) := by cases k <;> exact SlotInv.off m _
    unfold handlerFor
    split
    · rename_i g hg
      split
      · exact h.handler.slots g hg k
      · exact ho
    · exact ho
  unfold Machine.loadEntry
  split
  · have hl : ChannelInv m i
        { ch with
          handler := some (loadInstrument m en (handlerFor en.type ch.handler))
          inst := idx
          instType := en.type
          forceReload := false } :=
      { h with
        handler :=
          { absent := fun hn => nomatch hn
            typed := fun g hg => by cases hg; exact ⟨hf, ht⟩
            index := fun g hg => hidx
            slots := fun g hg k => by
              cases hg
              rw [loadInstrument, Handler.mapSlots_get]
              exact (hs k).load en } }
    split
    · exact hl.triggerInstrument
    · exact hl
  · split
    · exact h.triggerInstrument
    · exact h

theorem ChannelInv.loadOrRetrigger {m : Memory} (h : ChannelInv m i ch) (idx : Byte) (reload head : Bool) :
    ChannelInv m i (loadOrRetrigger m idx reload head ch) := by
  unfold Machine.loadOrRetrigger
  split
  · exact h
  · split
    · exact h
    · rename_i hlt
      dsimp only
      split
      · exact h
      · rename_i ht
        refine h.loadEntry (Nat.lt_of_not_le hlt) ?_ _ _
        cases hty : (m.instRead idx).type <;> simp [hty] at ht ⊢

theorem ChannelInv.cutNote {m : Memory} (h : ChannelInv m i ch) : ChannelInv m i (cutNote ch) :=
  { h with period := Nat.zero_le _, portaTo := Nat.zero_le _ }

theorem ChannelInv.headPeriod (h : ChannelInv e.mem i ch) :
    ChannelInv e.mem i (headPeriod e ch) := by
  have hd := h.drawn e
  unfold Machine.headPeriod
  dsimp only
  split
  · split
    · exact (hd.setPeriod _).setTarget _
    · exact hd.setTarget _
  · exact hd.setPeriod _

theorem ChannelInv.runNote (h : ChannelInv e.mem i ch) (num : Nat) :
    ChannelInv e.mem i (runNote num e ch) := by
  have hp := (h.setNote num).headPeriod
  unfold Machine.runNote stickyVolume
  split
  · exact { hp with }
  · exact { hp with }

theorem ChannelInv.dispatchNote (hw : e.mem.wf = true) (h : ChannelInv e.mem i ch) (cls : NoteClass) :
    ChannelInv e.mem i (dispatchNote cls e ch) := by
  cases cls
  · exact h
  · exact h.cutNote
  · exact h.releaseNote hw
  · exact h.runNote _

theorem ChannelInv.retargetSlide (h : ChannelInv e.mem i ch) (cls : NoteClass) :
    ChannelInv e.mem i (retargetSlide cls e ch) := by
  unfold Machine.retargetSlide
  split
  · exact h.setupSlide
  · exact h

theorem ChannelInv.echoUpdate {m : Memory} (h : ChannelInv m i ch) (cls : NoteClass) :
    ChannelInv m i (echoUpdate cls ch) := by
  cases cls
  · exact h
  · exact { h with echo := echoPush_length ch _ h.echo }
  · exact h
  · exact { h with echo := echoPush_length ch _ h.echo }

theorem ChannelInv.clearOneShots {m : Memory} (h : ChannelInv m i ch) (cls : NoteClass) :
    ChannelInv m i (clearOneShots cls ch) := by
  unfold Machine.clearOneShots
  split
  · exact { h with cutTimer := Nat.zero_le _, relTimer := Nat.zero_le _, transTimer := Nat.zero_le _ }
  · exact h

theorem ChannelInv.applyVolumeColumn {m : Memory} (h : ChannelInv m i ch) (volc : BitVec 5) :
    ChannelInv m i (applyVolumeColumn volc ch) := by
  unfold Machine.applyVolumeColumn
  split
  · exact { h with }
  · exact h

theorem ChannelInv.finishRow (hw : e.mem.wf = true) (h : ChannelInv e.mem i ch) (cls : NoteClass) (inst : Byte) :
    ChannelInv e.mem i (finishRow cls inst e ch) := by
  have hp := (h.dispatchNote hw cls).retargetSlide cls
  unfold Machine.finishRow
  dsimp only
  split
  · exact hp.loadOrRetrigger _ _ _
  · exact hp

theorem ChannelInv.handleNoteData (hw : e.mem.wf = true) {x : Cx} (h : ChannelInv e.mem i x.ch) (ev : NoteEvent) :
    ChannelInv e.mem i (handleNoteData e ev x).ch ∧ (handleNoteData e ev x).shr.mixer = x.shr.mixer := by
  have ho := (h.echoUpdate (echoSubstitute ev x.ch)).clearOneShots (echoSubstitute ev x.ch)
  have hc := ChannelInv.handleColumns ev.fx
    (x := { x with
      ch := Machine.clearOneShots (echoSubstitute ev x.ch) (Machine.echoUpdate (echoSubstitute ev x.ch) x.ch) }) ho
  exact ⟨(hc.1.applyVolumeColumn ev.volc).finishRow hw _ _, hc.2⟩

theorem ChannelInv.flushDelayed (hw : e.mem.wf = true) {x : Cx} (h : ChannelInv e.mem i x.ch) :
    ChannelInv e.mem i (flushDelayed e x).ch ∧ (flushDelayed e x).shr.mixer = x.shr.mixer := by
  unfold Machine.flushDelayed
  split
  · exact ChannelInv.handleNoteData hw (x := { x with ch := { x.ch with delayPending := false } }) { h with } _
  · exact ⟨h, rfl⟩

theorem stripDelays_columns (ev : NoteEvent) : ∀ f ∈ (stripDelays ev).fx, delayColumn f = false := by
  intro f hf
  simp only [stripDelays, List.mem_map] at hf
  obtain ⟨g, _, rfl⟩ := hf
  split
  · rfl
  · rename_i hd; simpa using hd

theorem ChannelInv.playNote (hw : e.mem.wf = true) {x : Cx} (h : ChannelInv e.mem i x.ch) {ev : NoteEvent}
    (hev : ev.fx.length = cfg.fxCols) :
    ChannelInv e.mem i (playNote e ev x).ch ∧ (playNote e ev x).shr.mixer = x.shr.mixer := by
  have hf := h.flushDelayed hw
  unfold Machine.playNote
  dsimp only
  split
  · refine ⟨{ hf.1 with delayColumns := ?_, delayStripped := stripDelays_columns ev }, hf.2⟩
    simpa [stripDelays, bufferRow] using hev
  · have hn := hf.1.handleNoteData hw ev
    exact ⟨hn.1, hn.2.trans hf.2⟩

/-! ### PROCESS -/

theorem ChannelInv.updateSlot (hw : e.mem.wf = true) (h : ChannelInv e.mem i ch) (k : Kind) :
    ChannelInv e.mem i (updateSlot e ch k) := by
  have hset : ∀ (c : Channel), ChannelInv e.mem i c → ∀ sl, SlotInv e.mem k sl → ChannelInv e.mem i (c.setSlot k sl) := by
    intro c hc sl hs
    refine { hc with handler := ?_ }
    show HandlerInv e.mem (c.handler.map _) c.inst c.instType
    have hi := hc.handler
    cases hh : c.handler with
    | none => rw [hh] at hi; exact hi
    | some g => rw [hh] at hi; exact hi.setSlot k hs
  have hitem : ∀ setting item, ChannelInv e.mem i (processSequence k setting item e ch).1 := by
    intro setting item
    unfold processSequence processArpeggio
    split
    · exact { h with }
    · dsimp only
      split
      · exact h.playPeriod e _ _
      · exact h.playPeriod e _ _
      · exact (h.setNote _).playPeriod e _ _
      · split <;> exact h.playPeriod e _ _
    · split
      · exact h.setPeriod _
      · exact h.playPeriod e _ _
      · exact h
    · exact h.setPeriod _
    · exact { h with }
  unfold Machine.updateSlot
  split
  · exact h
  · rename_i g hg
    have hs := h.handler.slots g hg k
    dsimp only
    split
    · rename_i s hst hb
      split
      · exact h
      · split
        · refine hset _ h _ ⟨hs.bounded, (nomatch ·), fun hn => ?_, fun _ _ hr => nomatch hr⟩
          rw [show (g.slots.get k).bound = some s from hb] at hn; cases hn
        · rename_i hp
          exact hset _ (hitem _ _) _ (SlotInv.step hw hb _ (Nat.lt_of_not_le hp))
    · exact h
    · rename_i s hst hb
      refine hset _ ?_ _ ⟨hs.bounded, (nomatch ·), fun hn => ?_, fun _ _ hr => nomatch hr⟩
      · unfold finalize
        split
        · exact h.playPeriod e _ _
        · exact h
      · rw [show (g.slots.get k).bound = some s from hb] at hn; cases hn
    · rename_i hst hb
      have := hs.unbound hb
      rw [hst] at this; cases this
    · exact h
    · exact h

theorem ChannelInv.updateInstrument (hw : e.mem.wf = true) (h : ChannelInv e.mem i ch) :
    ChannelInv e.mem i (updateInstrument e ch) := by
  unfold Machine.updateInstrument
  split
  · exact ((((h.updateSlot hw .volume).updateSlot hw .arpeggio).updateSlot hw .pitch).updateSlot hw .hipitch).updateSlot hw
      .duty
  · exact h

theorem ChannelInv.stepToTarget {m : Memory} (h : ChannelInv m i ch) : ChannelInv m i (stepToTarget ch) := by
  unfold Machine.stepToTarget
  repeat' split
  · exact h.setPeriod _
  · exact h.setPeriod _
  · exact h
  · exact h

theorem ChannelInv.autoClear {m : Memory} (h : ChannelInv m i ch) : ChannelInv m i (autoClear ch) := by
  unfold Machine.autoClear
  split
  · exact { h with portaTo := Nat.zero_le _ }
  · exact h

theorem ChannelInv.updateEffects {m : Memory} (h : ChannelInv m i ch) (e : Env) : ChannelInv m i (updateEffects e ch) := by
  unfold Machine.updateEffects
  split
  · exact h
  · exact { h.playPeriod e _ _ with }
  · exact h.stepToTarget
  · exact h.stepToTarget.autoClear
  · exact h.stepToTarget.autoClear
  · exact h.setPeriod _
  · exact h.setPeriod _

/-- Counting a timer down keeps its bound. -/
theorem sub_one_le {w n : Nat} {b : BitVec w} (h0 : b ≠ 0) (h : b.toNat ≤ n) : (b - 1).toNat ≤ n := by
  rw [sub_one_eq b h0, BitVec.toNat_ofNat]
  have := Nat.mod_le (b.toNat - 1) (2 ^ w)
  omega

theorem ChannelInv.processSteps (hw : e.mem.wf = true) (h : ChannelInv e.mem i ch) :
    ChannelInv e.mem i (processSteps e ch) := by
  have h1 : ChannelInv e.mem i (updateNoteCut ch) := by
    unfold updateNoteCut
    split
    · exact h
    · rename_i h0
      have hc : ChannelInv e.mem i { ch with cutTimer := ch.cutTimer - 1 } := { h with cutTimer := sub_one_le h0 h.cutTimer }
      dsimp only
      split
      · exact hc.cutNote
      · exact hc
  have h2 : ∀ c, ChannelInv e.mem i c → ChannelInv e.mem i (updateNoteRelease e c) := by
    intro c h
    unfold updateNoteRelease
    split
    · exact h
    · rename_i h0
      have hc : ChannelInv e.mem i { c with relTimer := c.relTimer - 1 } := { h with relTimer := sub_one_le h0 h.relTimer }
      dsimp only
      split
      · exact hc.releaseNote hw
      · exact hc
  have h3 : ∀ c, ChannelInv e.mem i c → ChannelInv e.mem i (updateDelayedVolume c) := by
    intro c h
    unfold updateDelayedVolume
    split
    · exact h
    · rename_i h0
      dsimp only
      split
      · exact { h with voldTimer := sub_one_le h0 h.voldTimer }
      · exact { h with voldTimer := sub_one_le h0 h.voldTimer }
  have h4 : ∀ c, ChannelInv e.mem i c → ChannelInv e.mem i (updateTranspose e c) := by
    intro c h
    unfold updateTranspose
    split
    · exact h
    · rename_i h0
      have hc : ChannelInv e.mem i { c with transTimer := c.transTimer - 1 } :=
        { h with transTimer := sub_one_le h0 h.transTimer }
      dsimp only
      split
      · exact (hc.setNote _).playPeriod e _ _
      · exact hc
  have h7 : ∀ c, ChannelInv e.mem i c → ChannelInv e.mem i (updateVibratoTremolo (updateVolumeSlide c)) :=
    fun c h => { h with }
  have h8 := (h7 _ (h4 _ (h3 _ (h2 _ h1)))).updateEffects e
  unfold Machine.processSteps updateHandler
  split
  · exact h8.updateInstrument hw
  · exact h8

theorem ChannelInv.processChannel (hw : e.mem.wf = true) {x : Cx} (h : ChannelInv e.mem i x.ch) :
    ChannelInv e.mem i (processChannel e x).ch ∧ (processChannel e x).shr.mixer = x.shr.mixer := by
  have hd : ChannelInv e.mem i (updateDelay e x).ch ∧ (updateDelay e x).shr.mixer = x.shr.mixer := by
    unfold updateDelay
    split
    · split
      · exact h.flushDelayed hw
      · exact ⟨{ h with }, rfl⟩
    · exact ⟨h, rfl⟩
  exact ⟨hd.1.processSteps hw, hd.2⟩

theorem HandlerInv.unloaded (m : Memory) : HandlerInv m none 0xFF .none where
  absent _ := ⟨rfl, rfl⟩
  typed _ h := by cases h
  index _ h := by cases h
  slots _ h := by cases h

/-- The reset values meet the invariant (70_reset_and_hazards.md R401). -/
theorem ChannelInv.resetValues (m : Memory) (i : Nat) (chipId chIdx : Byte) (free : Nat) (h : chIdx.toNat = i) :
    ChannelInv m i (Channel.resetValues chipId chIdx free) where
  identity := h
  period := Nat.zero_le _
  portaTo := Nat.zero_le _
  wheel := by show (-511 : Int) ≤ 0 ∧ (0 : Int) ≤ 511; decide
  cutTimer := Nat.zero_le _
  relTimer := Nat.zero_le _
  voldTimer := Nat.zero_le _
  transTimer := Nat.zero_le _
  echo := rfl
  delayColumns := rfl
  delayStripped f hf := by
    have : f = ⟨0, 0⟩ := List.eq_of_mem_replicate (n := 4) hf
    rw [this]; rfl
  handler := HandlerInv.unloaded m

end Sys2Proof.Machine
end

