-- ==== Sys2Proof/Laws/Notes.lean ====
section
/-! SUPPORT. Rows: what an effect column leaves alone, a row's columns as effect words, and what the end of a row
does. -/

namespace Sys2Proof.Machine

/-! ### What effects leave alone -/

/-- The part of a channel no effect writes: the buffered row, the loaded instrument and the identity. -/
structure Kept (a b : Channel) : Prop where
  delayPending : a.delayPending = b.delayPending
  delayTimer : a.delayTimer = b.delayTimer
  delayEvent : a.delayEvent = b.delayEvent
  inst : a.inst = b.inst
  instType : a.instType = b.instType
  handler : a.handler = b.handler
  forceReload : a.forceReload = b.forceReload
  echo : a.echo = b.echo
  chipId : a.chipId = b.chipId
  chIdx : a.chIdx = b.chIdx

theorem Kept.rfl {a : Channel} : Kept a a := ⟨.refl _, .refl _, .refl _, .refl _, .refl _, .refl _, .refl _, .refl _, .refl _, .refl _⟩

theorem Kept.trans {a b c : Channel} (h : Kept a b) (g : Kept b c) : Kept a c where
  delayPending := h.delayPending.trans g.delayPending
  delayTimer := h.delayTimer.trans g.delayTimer
  delayEvent := h.delayEvent.trans g.delayEvent
  inst := h.inst.trans g.inst
  instType := h.instType.trans g.instType
  handler := h.handler.trans g.handler
  forceReload := h.forceReload.trans g.forceReload
  echo := h.echo.trans g.echo
  chipId := h.chipId.trans g.chipId
  chIdx := h.chIdx.trans g.chIdx

theorem Kept.drawn (ch : Channel) (e : Env) : Kept (ch.drawn e) ch := by
  unfold Channel.drawn; split
  · exact { Kept.rfl (a := ch) with }
  · exact Kept.rfl

theorem Kept.playPeriod (ch : Channel) (e : Env) (n v : Int) : Kept (ch.playPeriod e n v) ch :=
  { Kept.drawn ch e with }

theorem Kept.exitEffect (e : Env) (ch : Channel) : Kept (exitEffect e ch) ch := by
  unfold Machine.exitEffect
  dsimp only
  split
  · exact { Kept.playPeriod ch e ch.note.toNat 0 with }
  · exact { Kept.rfl (a := ch) with }

theorem Kept.setupSlide (e : Env) (ch : Channel) : Kept (setupSlide e ch) ch := by
  unfold Machine.setupSlide
  split
  · exact { Kept.drawn { ch with portaSpeed := ch.effParam } e with }
  · exact { Kept.drawn { ch.setNote (ch.note.toNat + (lo ch.effParam).toNat) with portaSpeed := slideSpeed ch.effParam } e with }
  · exact { Kept.drawn { ch.setNote (ch.note.toNat - (lo ch.effParam).toNat) with portaSpeed := slideSpeed ch.effParam } e with }
  all_goals exact Kept.rfl

theorem Kept.slotCommand (kind : Eff) (p : Byte) (e : Env) (enter : Channel → Channel) (ch : Channel)
    (h : ∀ x, Kept (enter x) x) : Kept (slotCommand kind p e enter ch) ch := by
  unfold Machine.slotCommand
  split
  · exact Kept.exitEffect e ch
  · exact (h _).trans { Kept.rfl (a := ch) with }

theorem Kept.baseEffect (f : Fx) (e : Env) (ch ch' : Channel) (h : baseEffect f e ch = some ch') : Kept ch' ch := by
  have porta (p : Byte) : ∀ x : Channel, Kept { x with portaSpeed := p } x := fun x => { Kept.rfl (a := x) with }
  unfold Machine.baseEffect at h
  split at h
  · cases h; exact Kept.slotCommand _ _ _ _ _ (Kept.setupSlide e)
  · cases h; exact { Kept.rfl (a := ch) with }
  · cases h; exact { Kept.rfl (a := ch) with }
  · cases h; exact (Kept.slotCommand _ _ _ _ _ fun x => Kept.rfl).trans { Kept.rfl (a := ch) with }
  · cases h; exact { Kept.rfl (a := ch) with }
  · cases h; exact Kept.slotCommand _ _ _ _ _ (porta _)
  · cases h; exact Kept.slotCommand _ _ _ _ _ (porta _)
  · cases h; exact Kept.slotCommand _ _ _ _ _ (Kept.setupSlide e)
  · cases h; exact Kept.slotCommand _ _ _ _ _ (Kept.setupSlide e)
  · cases h; exact { Kept.rfl (a := ch) with }
  · split at h <;> cases h
    exact { Kept.rfl (a := ch) with }
  · split at h <;> cases h
    exact { Kept.rfl (a := ch) with }
  · cases h; exact { Kept.rfl (a := ch) with }
  · cases h; exact { Kept.rfl (a := ch) with }
  · cases h; exact { Kept.rfl (a := ch) with }
  · cases h

/-- No effect writes the buffered row, the loaded instrument or the identity. -/
theorem Kept.handleEffect (e : Env) (x : Cx) (f : Fx) : Kept (handleEffect e x f).1.ch x.ch := by
  unfold Machine.handleEffect
  split
  · exact Kept.rfl
  · split
    · exact Kept.baseEffect f e x.ch _ ‹_›
    · exact Kept.rfl

theorem Kept.handleColumns (e : Env) (columns : List Fx) (x : Cx) : Kept (handleColumns e x columns).ch x.ch := by
  induction columns generalizing x with
  | nil => exact Kept.rfl
  | cons f rest ih => exact (ih (Machine.handleEffect e x f).1).trans (Kept.handleEffect e x f)

/-! ### A row's columns as effect words -/

/-- A kind of neither table is not handled (41_effects.md R191). -/
theorem handleEffect_unknown (e : Env) (x : Cx) (f : Fx)
    (h : f.kind.toNat = 0 ∨ (0x10 ≤ f.kind.toNat ∧ f.kind.toNat ≤ 0x7F) ∨ 0x84 ≤ f.kind.toNat) :
    handleEffect e x f = (x, false) := by
  have hc : chipEffect f x.shr = none := by
    unfold chipEffect; split <;> first | rfl | omega
  have hb : baseEffect f e x.ch = none := by
    unfold baseEffect; split <;> first | rfl | omega
  simp only [handleEffect, hc, hb]

/-- An empty column changes nothing (41_effects.md R192). -/
theorem handleColumns_blank (e : Env) (x : Cx) : handleColumns e x NoteEvent.empty.fx = x := by
  have h : (handleEffect e x ⟨0, 0⟩).1 = x := by rw [handleEffect_unknown e x ⟨0, 0⟩ (.inl rfl)]
  show (handleEffect e (handleEffect e (handleEffect e (handleEffect e x ⟨0, 0⟩).1 ⟨0, 0⟩).1 ⟨0, 0⟩).1 ⟨0, 0⟩).1 = x
  rw [h, h, h, h]

/-- An effect word, but for FX_DELAY, is HandleEffect of its column (41_effects.md R190). -/
theorem exec_decodeFx (c : Chan) (f : Fx) (s : State) (h : f.kind ≠ 0x10) :
    exec (decodeFx c f) s = .next (s.onCx c fun e x => (handleEffect e x f).1) := by
  have hk : f.kind.toNat ≠ 0x10 := fun h' => h (BitVec.eq_of_toNat_eq h')
  have timer (g : Byte → Channel → Channel) (e : Env) (x : Cx) (hc : chipEffect f x.shr = none)
      (hb : baseEffect f e x.ch = if timerParamRejected f.param then none else some (g f.param x.ch)) :
      (handleEffect e x f).1 = { x with ch := if timerParamRejected f.param then x.ch else g f.param x.ch } := by
    simp only [handleEffect, hc, hb]
    cases timerParamRejected f.param <;> rfl
  unfold decodeFx
  split
  all_goals first
    | (rename_i hf; exact absurd hf hk)
    | (rename_i hf
       rw [show (fun e x => (handleEffect e x f).1) = _ from
         funext fun e => funext fun x =>
           timer fxNoteCut e x (by simp only [chipEffect, hf]) (by simp only [baseEffect, hf])]
       rfl)
    | (rename_i hf
       rw [show (fun e x => (handleEffect e x f).1) = _ from
         funext fun e => funext fun x =>
           timer fxNoteRelease e x (by simp only [chipEffect, hf]) (by simp only [baseEffect, hf])]
       rfl)
    | (rename_i hf; simp only [exec, handleEffect, chipEffect, baseEffect, hf]; rfl)

theorem State.putCx_putCx (s : State) (i : Fin 3) (x y : Cx) : (s.putCx i x).putCx i y = s.putCx i y := by
  simp [State.putCx]

@[simp] theorem State.putCx_cx' (s : State) (i : Fin 3) (x : Cx) : (s.putCx i x).cx i = x := by
  simp [State.cx, State.putCx]

/-- The columns of a row are their effect words, one after the other (40_row_commands.md R153). -/
theorem execAll_columns (i : Fin 3) (columns : List Fx) (s : State) (h : ∀ f ∈ columns, f.kind ≠ 0x10) :
    execAll (columns.map (decodeFx (BitVec.ofNat 4 i))) s =
      .next (s.putCx i (handleColumns s.env (s.cx i) columns)) := by
  induction columns generalizing s with
  | nil => simp [execAll, handleColumns]
  | cons f rest ih =>
    simp only [List.map_cons, execAll]
    rw [exec_decodeFx _ _ _ (h f (List.mem_cons_self ..)), State.onCx_number]
    dsimp only
    rw [ih _ fun g hg => h g (List.mem_cons_of_mem _ hg), State.putCx_putCx, State.putCx_cx']
    rfl

/-- An FX_DELAY column does nothing in HandleEffect (40_row_commands.md R144, 41_effects.md R191). -/
theorem handleColumns_filter (e : Env) (columns : List Fx) (x : Cx) :
    handleColumns e x (columns.filter fun f => f.kind ≠ 0x10) = handleColumns e x columns := by
  induction columns generalizing x with
  | nil => rfl
  | cons f rest ih =>
    by_cases h : f.kind = 0x10
    · have hx : (handleEffect e x f).1 = x := by
        rw [handleEffect_unknown e x f (.inr (.inl (by rw [h]; decide)))]
      rw [List.filter_cons_of_neg (by simpa using h), ih]
      show _ = handleColumns e (handleEffect e x f).1 rest
      rw [hx]
    · rw [List.filter_cons_of_pos (by simpa using h)]
      exact ih (handleEffect e x f).1

/-- The columns of a row but for FX_DELAY are their effect words, one after the other. -/
theorem execAll_words (i : Fin 3) (columns : List Fx) (s : State) :
    execAll ((columns.filter fun f => f.kind ≠ 0x10).map (decodeFx (BitVec.ofNat 4 i))) s =
      .next (s.putCx i (handleColumns s.env (s.cx i) columns)) := by
  rw [execAll_columns i _ s fun f hf => by simpa using (List.mem_filter.mp hf).2, handleColumns_filter]

/-! ### The end of a row -/

theorem columnVolume_eq (volc : BitVec 5) (ch : Channel) : applyVolumeColumn volc ch = columnVolume volc ch := by
  unfold applyVolumeColumn columnVolume
  have : volc.toNat ≤ 15 ↔ volc.toNat < 16 := by omega
  simp only [this]
  split
  · rename_i h
    have hv : internalVolume (volc.setWidth 4) = BitVec.ofNat 7 (volc.toNat * 8) := by
      rw [internalVolume_eq, BitVec.toNat_setWidth, Nat.mod_eq_of_lt h]
    rw [hv]
  · rfl

theorem noteNumber_of_lt {n : Nat} (h : n < 256) : noteNumber n = BitVec.ofNat 8 n := by
  rw [noteNumber_eq]; congr 1; omega

theorem stickyVolume_eq (ch : Channel) :
    stickyVolume ch = { ch with vol := if ch.volSlide = 0 then ch.defVol else ch.vol } := by
  unfold stickyVolume; split <;> rfl

/-- RunNote as 40_row_commands.md R163 and R167 say it. -/
theorem runNote_eq (e : Env) (ch : Channel) {n : Nat} (h : n < 256) : ∃ k, runNote n e ch = headPlayed e n k ch := by
  have hn : ch.setNote n = { ch with note := BitVec.ofNat 8 n } := by rw [Channel.setNote, noteNumber_of_lt h]
  have ht : triggerNote e (ch.setNote n) (ch.setNote n).note.toNat = triggerNote e ch n :=
    triggerNote_noteNumber e (ch.setNote n) n
  have hm (p : Nat) : (max 0 (min (p : Int) 4095)).toNat = min p 4095 := by omega
  obtain ⟨k, hk⟩ := drawn_eq (ch.setNote n) e
  refine ⟨k, ?_⟩
  unfold runNote headPeriod headPlayed
  simp only [ht, hk, stickyVolume_eq, Channel.headFlags, setTarget_eq, setPeriod_eq, hm, ne_zero_iff_toNat_pos]
  rw [hn]
  by_cases h1 : ch.eff = .portamento ∧ 0 < ch.portaSpeed.toNat ∧ ch.gate = true
  · have h2 : (decide (ch.eff = .portamento) && decide (0 < ch.portaSpeed.toNat) && ch.gate) = true := by
      simpa [and_assoc] using h1
    by_cases h4 : ch.period = 0
    · simp only [if_pos h1, h2, h4, if_true, ne_eq, not_true_eq_false, and_false, if_false]
    · simp only [if_pos h1, h2, h4, if_true, ne_eq, not_false_eq_true, and_true, if_false]
  · have h2 : (decide (ch.eff = .portamento) && decide (0 < ch.portaSpeed.toNat) && ch.gate) = false := by
      simpa [and_assoc] using h1
    simp only [if_neg h1, h2, Bool.false_eq_true, false_and, if_false]

/-- The end of a row with a note head. -/
theorem finishRow_pitch (e : Env) (ch : Channel) {n : Nat} (h : n < 256) (volc : BitVec 5) (inst : Byte) :
    ∃ m, finishRow (.pitch n) inst e (applyVolumeColumn volc ch) = headFinished e n volc inst m ch := by
  obtain ⟨m, hm⟩ := runNote_eq e (columnVolume volc ch) h
  have hi : (columnVolume volc ch).inst = ch.inst ∧ (columnVolume volc ch).forceReload = ch.forceReload ∧
      (columnVolume volc ch).eff = ch.eff := by
    unfold columnVolume; split <;> exact ⟨rfl, rfl, rfl⟩
  refine ⟨m, ?_⟩
  rw [columnVolume_eq]
  simp only [finishRow, dispatchNote, hm, retargetSlide, NoteClass.isHead, resolveInstrument, headFinished,
    Bool.true_or, if_true, reduceCtorEq, or_self, if_false, true_and, hi]
  have : (headPlayed e n m (columnVolume volc ch)).eff = ch.eff := hi.2.2
  simp only [this]

/-- The end of a row with no note head. -/
theorem finishRow_noHead (cls : NoteClass) (hc : cls.isHead = false) (e : Env) (ch : Channel) (inst : Byte)
    (hi : (dispatchNote cls e ch).inst = ch.inst ∧ (dispatchNote cls e ch).forceReload = ch.forceReload) :
    finishRow cls inst e ch =
      reloadIf e.mem (if cls = .halt ∨ cls = .release ∨ inst = 0xFE ∨ inst = 0xFF then ch.inst else inst)
        (dispatchNote cls e ch) := by
  have hr : resolveInstrument cls inst ch =
      let a := if cls = .halt ∨ cls = .release ∨ inst = 0xFE ∨ inst = 0xFF then ch.inst else inst
      (a, decide (a ≠ ch.inst) || ch.forceReload) := by
    unfold resolveInstrument
    by_cases h : cls = .halt ∨ cls = .release
    · have h' : cls = .halt ∨ cls = .release ∨ inst = 0xFE ∨ inst = 0xFF := by tauto
      simp only [h, h', if_true, or_true]
    · have h' : (cls = .halt ∨ cls = .release ∨ inst = 0xFE ∨ inst = 0xFF) ↔ (inst = 0xFE ∨ inst = 0xFF) := by tauto
      simp only [h, h', if_false]
  unfold finishRow reloadIf
  simp only [hr, hc, retargetSlide, hi, Bool.false_or, Bool.false_eq_true, false_and, if_false]
  generalize (if cls = .halt ∨ cls = .release ∨ inst = 0xFE ∨ inst = 0xFF then ch.inst else inst) = a
  by_cases h : a ≠ ch.inst ∨ ch.forceReload = true
  · have hb : (decide (a ≠ ch.inst) || ch.forceReload) = true := by simpa using h
    simp only [hb, h, if_true]
  · have hb : (decide (a ≠ ch.inst) || ch.forceReload) = false := by simpa using h
    simp only [hb, h, if_false, Bool.false_eq_true]

theorem clearOneShots_noHead (cls : NoteClass) (h : cls.isHead = false) (ch : Channel) : clearOneShots cls ch = ch := by
  simp only [clearOneShots, h, Bool.false_eq_true, if_false]

/-- A row that no column delays, with nothing buffered, is handled at once (40_row_commands.md R143, R144). -/
theorem playNote_plain (e : Env) (ev : NoteEvent) (x : Cx) (hd : x.ch.delayPending = false)
    (h : ∀ f ∈ ev.fx, f.kind = 0x10 → f.param = 0) : playNote e ev x = handleNoteData e ev x := by
  have hf : ev.fx.find? delaysRow = none := by
    rw [List.find?_eq_none]
    intro f hf hd
    simp only [delaysRow, delayColumn, Bool.and_eq_true, decide_eq_true_eq] at hd
    exact hd.2 (h f hf hd.1)
  have hx : flushDelayed e x = x := by simp [flushDelayed, hd]
  simp only [playNote, hf, hx]

/-- PLAY of a row that no column delays, on a channel with nothing buffered: the row's opening, its columns, its
volume column and its end (40_row_commands.md R148). -/
theorem exec_play_plain (s : State) (i : Fin 3) (ev : NoteEvent) (hd : (s.chans.get i).delayPending = false)
    (h : ∀ f ∈ ev.fx, f.kind = 0x10 → f.param = 0) :
    exec (.play (BitVec.ofNat 4 i) ev) s =
      let cls := echoSubstitute ev (s.chans.get i)
      let x := handleColumns s.env ⟨clearOneShots cls (echoUpdate cls (s.chans.get i)), s.shr⟩ ev.fx
      .next (s.putCx i ⟨finishRow cls ev.inst s.env (applyVolumeColumn ev.volc x.ch), x.shr⟩) := by
  show Host.Outcome.next (s.onCx _ _) = _
  rw [State.onCx_number, playNote_plain _ _ _ hd h]
  rfl

/-! ### What does not look at the buffered row -/

/-- The channel with another pending flag and delay timer. -/
def Channel.withDelay (ch : Channel) (p : Bool) (t : Byte) : Channel := { ch with delayPending := p, delayTimer := t }

/-- The operation neither reads nor writes the pending flag and the delay timer, and keeps the identity. -/
structure Ignores (f : Channel → Channel) : Prop where
  delay : ∀ ch p t, f (ch.withDelay p t) = (f ch).withDelay p t
  identity : ∀ ch, (f ch).chipId = ch.chipId ∧ (f ch).chIdx = ch.chIdx

theorem Ignores.pending {f : Channel → Channel} (h : Ignores f) (ch : Channel) :
    (f ch).delayPending = ch.delayPending ∧ (f ch).delayTimer = ch.delayTimer := by
  have := h.delay ch ch.delayPending ch.delayTimer
  rw [show ch.withDelay ch.delayPending ch.delayTimer = ch from rfl] at this
  exact ⟨by rw [this]; rfl, by rw [this]; rfl⟩

theorem Ignores.of {f : Channel → Channel} (h : ∀ ch p t, f (ch.withDelay p t) = (f ch).withDelay p t)
    (g : ∀ ch, (f ch).chipId = ch.chipId ∧ (f ch).chIdx = ch.chIdx) : Ignores f := ⟨h, g⟩

theorem Ignores.id : Ignores fun ch => ch := .of (fun _ _ _ => rfl) fun _ => ⟨rfl, rfl⟩

theorem Ignores.comp {f g : Channel → Channel} (hf : Ignores f) (hg : Ignores g) : Ignores fun ch => f (g ch) where
  delay ch p t := by rw [hg.delay, hf.delay]
  identity ch := ⟨(hf.identity _).1.trans (hg.identity _).1, (hf.identity _).2.trans (hg.identity _).2⟩

/-- A choice by what the channel holds beside its delay fields. -/
theorem Ignores.byValue {α : Type} (v : Channel → α) (hv : ∀ ch p t, v (ch.withDelay p t) = v ch)
    {f : α → Channel → Channel} (hf : ∀ a, Ignores (f a)) : Ignores fun ch => f (v ch) ch where
  delay ch p t := by rw [hv, (hf _).delay]
  identity ch := (hf _).identity ch

theorem Ignores.ite (c : Channel → Prop) [DecidablePred c] (hc : ∀ ch p t, c (ch.withDelay p t) = c ch)
    {f g : Channel → Channel} (hf : Ignores f) (hg : Ignores g) : Ignores fun ch => if c ch then f ch else g ch where
  delay ch p t := by
    by_cases h : c ch
    · simp only [hc, h, if_true, hf.delay]
    · simp only [hc, h, if_false, hg.delay]
  identity ch := by
    by_cases h : c ch
    · simp only [h, if_true, hf.identity, and_self]
    · simp only [h, if_false, hg.identity, and_self]

theorem Ignores.drawn (e : Env) : Ignores fun ch => ch.drawn e where
  delay ch p t := by unfold Channel.drawn; split <;> rfl
  identity ch := by unfold Channel.drawn; split <;> exact ⟨rfl, rfl⟩

theorem Ignores.setPeriodTo (v : Channel → Int) (hv : ∀ ch p t, v (ch.withDelay p t) = v ch) :
    Ignores fun ch => ch.setPeriod (v ch) :=
  .of (fun ch p t => by rw [hv]; rfl) fun _ => ⟨rfl, rfl⟩

theorem Ignores.playPeriod (e : Env) (n v : Channel → Int) (hn : ∀ ch p t, n (ch.withDelay p t) = n ch)
    (hv : ∀ ch p t, v (ch.withDelay p t) = v ch) : Ignores fun ch => ch.playPeriod e (n ch) (v ch) where
  delay ch p t := by
    rw [hn, hv]
    show ((ch.withDelay p t).drawn e).setPeriod _ = _
    rw [(Ignores.drawn e).delay]; rfl
  identity ch := (Ignores.drawn e).identity ch

theorem Ignores.setupSlide (e : Env) : Ignores (setupSlide e) where
  delay ch p t := by
    cases hl : e.cfgReg.linearPitch <;> cases he : ch.eff <;>
      simp only [Machine.setupSlide, aimAtNote, Channel.drawn, Channel.setTarget, Channel.withDelay, Channel.setNote, hl, he, if_true, if_false, Bool.false_eq_true] <;> rfl
  identity ch := ⟨(Kept.setupSlide e ch).chipId, (Kept.setupSlide e ch).chIdx⟩

theorem Ignores.cutNote : Ignores cutNote := .of (fun _ _ _ => rfl) fun _ => ⟨rfl, rfl⟩

theorem Ignores.releaseNote (m : Memory) : Ignores (releaseNote m) := by
  refine .of (fun ch p t => ?_) fun ch => ?_
  · simp only [releaseNote_eq]; rfl
  · simp only [releaseNote_eq, and_self]

theorem Ignores.runNote (e : Env) (n : Nat) : Ignores (runNote n e) := by
  have period : Ignores (headPeriod e) := by
    refine ⟨fun ch p t => ?_, fun ch => ?_⟩
    · unfold headPeriod
      rw [(Ignores.drawn e).delay]
      dsimp only
      have h (q : Int) : Ignores fun ch => ch.setPeriod q := .of (fun _ _ _ => rfl) fun _ => ⟨rfl, rfl⟩
      exact (Ignores.ite (fun ch => ch.eff = .portamento ∧ ch.portaSpeed ≠ 0 ∧ ch.gate = true) (fun _ _ _ => rfl)
        (f := fun c =>
          (if c.period = 0 then c.setPeriod (triggerNote e ch ch.note.toNat) else c).setTarget
            (triggerNote e ch ch.note.toNat))
        (Ignores.comp (f := fun c => c.setTarget (triggerNote e ch ch.note.toNat))
          (.of (fun _ _ _ => rfl) fun _ => ⟨rfl, rfl⟩)
          (Ignores.ite (fun c => c.period = 0) (fun _ _ _ => rfl) (h _) Ignores.id)) (h _)).delay (ch.drawn e) p t
    · have hd := (Ignores.drawn e).identity ch
      unfold headPeriod
      dsimp only
      split
      · split <;> exact hd
      · exact hd
  have sticky : Ignores stickyVolume :=
    Ignores.ite (fun ch => ch.volSlide = 0) (fun _ _ _ => rfl) (.of (fun _ _ _ => rfl) fun _ => ⟨rfl, rfl⟩) Ignores.id
  exact sticky.comp (Ignores.comp (f := Channel.headFlags) (.of (fun _ _ _ => rfl) fun _ => ⟨rfl, rfl⟩)
    (period.comp (g := fun ch => ch.setNote n) (.of (fun _ _ _ => rfl) fun _ => ⟨rfl, rfl⟩)))

theorem Ignores.triggerInstrument (m : Memory) : Ignores (triggerInstrument m) :=
  .of (fun _ _ _ => rfl) fun _ => ⟨rfl, rfl⟩

theorem Ignores.loadOrRetrigger (m : Memory) (i : Byte) (reload head : Bool) : Ignores (loadOrRetrigger m i reload head) := by
  have load : ∀ en, Ignores (loadEntry m i en reload head) := fun en => by
    have h : Ignores fun ch => if reload ∨ ch.handler = none then
        { ch with
          handler := some (loadInstrument m en (handlerFor en.type ch.handler)), inst := i, instType := en.type,
          forceReload := false } else ch :=
      Ignores.ite (fun ch => reload ∨ ch.handler = none) (fun _ _ _ => rfl)
        (.of (fun _ _ _ => rfl) fun _ => ⟨rfl, rfl⟩) Ignores.id
    cases head
    · exact h
    · exact (Ignores.triggerInstrument m).comp h
  unfold Machine.loadOrRetrigger
  split
  · exact Ignores.id
  · split
    · exact Ignores.id
    · dsimp only
      split
      · exact Ignores.id
      · exact load _

theorem Ignores.finishRow (cls : NoteClass) (inst : Byte) (e : Env) : Ignores (finishRow cls inst e) := by
  have dispatch : Ignores (dispatchNote cls e) := by
    cases cls
    · exact Ignores.id
    · exact Ignores.cutNote
    · exact Ignores.releaseNote _
    · exact Ignores.runNote _ _
  have played : Ignores fun ch => retargetSlide cls e (dispatchNote cls e ch) :=
    Ignores.comp (f := retargetSlide cls e)
      (Ignores.ite (fun ch => cls.isHead = true ∧ (ch.eff = .slideUp ∨ ch.eff = .slideDown)) (fun _ _ _ => rfl)
        (Ignores.setupSlide e) Ignores.id) dispatch
  exact Ignores.byValue (v := resolveInstrument cls inst) (fun _ _ _ => rfl)
    (f := fun r ch =>
      if cls.isHead || r.2 then Machine.loadOrRetrigger e.mem r.1 r.2 cls.isHead (retargetSlide cls e (dispatchNote cls e ch))
      else retargetSlide cls e (dispatchNote cls e ch)) fun r => by
    split
    · exact (Ignores.loadOrRetrigger ..).comp played
    · exact played

/-- Handling a row keeps the pending flag, the delay timer and the identity. -/
theorem handleNoteData_kept (e : Env) (ev : NoteEvent) (x : Cx) :
    (handleNoteData e ev x).ch.delayPending = x.ch.delayPending ∧
    (handleNoteData e ev x).ch.delayTimer = x.ch.delayTimer ∧
    (handleNoteData e ev x).ch.chipId = x.ch.chipId ∧ (handleNoteData e ev x).ch.chIdx = x.ch.chIdx := by
  have volume : Ignores (applyVolumeColumn ev.volc) := by
    unfold applyVolumeColumn
    split
    · exact .of (fun _ _ _ => rfl) fun _ => ⟨rfl, rfl⟩
    · exact Ignores.id
  have opening (cls : NoteClass) : Ignores fun ch => clearOneShots cls (echoUpdate cls ch) := by
    cases cls <;> exact .of (fun _ _ _ => rfl) fun _ => ⟨rfl, rfl⟩
  have last := (Ignores.finishRow (echoSubstitute ev x.ch) ev.inst e).comp volume
  have mid := Kept.handleColumns e ev.fx
    { x with ch := clearOneShots (echoSubstitute ev x.ch) (echoUpdate (echoSubstitute ev x.ch) x.ch) }
  have first := opening (echoSubstitute ev x.ch)
  exact ⟨(last.pending _).1.trans (mid.delayPending.trans (first.pending _).1),
    (last.pending _).2.trans (mid.delayTimer.trans (first.pending _).2),
    (last.identity _).1.trans (mid.chipId.trans (first.identity _).1),
    (last.identity _).2.trans (mid.chIdx.trans (first.identity _).2)⟩

/-! ### PROCESS -/

theorem Ignores.setSlot (k : Kind) (sl : Channel → Slot) (h : ∀ ch p t, sl (ch.withDelay p t) = sl ch) :
    Ignores fun ch => ch.setSlot k (sl ch) :=
  .of (fun ch p t => by rw [h]; rfl) fun _ => ⟨rfl, rfl⟩

theorem Ignores.processSequence (k : Kind) (setting : BitVec 2) (item : Byte) (e : Env) :
    Ignores fun ch => (processSequence k setting item e ch).1 := by
  have plain : ∀ {f : Channel → Channel}, (∀ ch p t, f (ch.withDelay p t) = (f ch).withDelay p t) →
      (∀ ch, (f ch).chipId = ch.chipId ∧ (f ch).chIdx = ch.chIdx) → Ignores f := fun h g => ⟨h, g⟩
  cases k
  case volume => exact plain (fun _ _ _ => rfl) fun _ => ⟨rfl, rfl⟩
  case duty => exact plain (fun _ _ _ => rfl) fun _ => ⟨rfl, rfl⟩
  case hipitch => exact plain (fun _ _ _ => rfl) fun _ => ⟨rfl, rfl⟩
  case pitch =>
    unfold Machine.processSequence
    dsimp only
    split
    · exact plain (fun _ _ _ => rfl) fun _ => ⟨rfl, rfl⟩
    · exact Ignores.playPeriod e (fun ch => ch.note.toNat) (fun _ => itemValue item) (fun _ _ _ => rfl) fun _ _ _ => rfl
    · exact Ignores.id
  case arpeggio =>
    have at_ (n : Channel → Int) (h : ∀ ch p t, n (ch.withDelay p t) = n ch) : Ignores fun ch => ch.playPeriod e (n ch) :=
      Ignores.playPeriod e n (fun _ => 0) h fun _ _ _ => rfl
    show Ignores (processArpeggio setting item e)
    unfold processArpeggio
    split
    · exact at_ (fun ch => ch.note.toNat + itemValue item) fun _ _ _ => rfl
    · exact at_ (fun _ => itemValue item) fun _ _ _ => rfl
    · exact (at_ (fun ch => ch.note.toNat) fun _ _ _ => rfl).comp
        (g := fun ch => ch.setNote (ch.note.toNat + itemValue item)) (plain (fun _ _ _ => rfl) fun _ => ⟨rfl, rfl⟩)
    · split
      · exact at_ (fun ch => ch.note.toNat + schemeLimit (item.extractLsb' 0 6)) fun _ _ _ => rfl
      · exact at_ (fun ch => ch.note.toNat + (schemeLimit (item.extractLsb' 0 6) + (hi ch.arpParam).toNat)) fun _ _ _ => rfl
      · exact at_ (fun ch => ch.note.toNat + (schemeLimit (item.extractLsb' 0 6) + (lo ch.arpParam).toNat)) fun _ _ _ => rfl
      · exact at_ (fun ch => ch.note.toNat + (schemeLimit (item.extractLsb' 0 6) - (lo ch.arpParam).toNat)) fun _ _ _ => rfl

theorem Ignores.finalize (k : Kind) (setting : BitVec 2) (e : Env) : Ignores (finalize k setting e) := by
  unfold Machine.finalize
  split
  · exact Ignores.playPeriod e (fun ch => ch.note.toNat) (fun _ => 0) (fun _ _ _ => rfl) fun _ _ _ => rfl
  · exact Ignores.id

theorem Ignores.updateSlot (e : Env) (k : Kind) : Ignores fun ch => updateSlot e ch k := by
  have at_ (handler : Option Handler) : Ignores fun ch => match handler with
      | none => ch
      | some h =>
        let sl := h.slots.get k
        match sl.st, sl.bound with
        | .running, some s =>
          let q := e.mem.seqRead k s
          if count q = 0 then ch
          else if count q ≤ sl.pos then ch.setSlot k { sl with st := .ended }
          else
            let after := (Machine.processSequence k q.setting (seqItem q sl.pos) e ch).1
            after.setSlot k (stepSlot q after.release sl)
        | .running, none => ch
        | .ended, some s =>
          (Machine.finalize k (e.mem.seqRead k s).setting e ch).setSlot k { sl with st := .halted }
        | .ended, none => ch.setSlot k { sl with st := .halted }
        | .disabled, _ => ch
        | .halted, _ => ch := by
    cases handler with
    | none => exact Ignores.id
    | some h =>
      dsimp only
      split
      · split
        · exact Ignores.id
        · split
          · exact Ignores.setSlot k (fun _ => _) fun _ _ _ => rfl
          · exact (Ignores.setSlot k (fun ch => stepSlot _ ch.release (h.slots.get k)) fun _ _ _ => rfl).comp
              (Ignores.processSequence k _ _ e)
      · exact Ignores.id
      · exact (Ignores.setSlot k (fun _ => _) fun _ _ _ => rfl).comp (Ignores.finalize k _ e)
      · exact Ignores.setSlot k (fun _ => _) fun _ _ _ => rfl
      · exact Ignores.id
      · exact Ignores.id
  exact ⟨fun ch p t => (at_ ch.handler).delay ch p t, fun ch => (at_ ch.handler).identity ch⟩

theorem Ignores.updateInstrument (e : Env) : Ignores (updateInstrument e) := by
  refine Ignores.ite (fun ch => ch.gate = true) (fun _ _ _ => rfl) ?_ Ignores.id
  have u := Ignores.updateSlot e
  exact (u .duty).comp ((u .hipitch).comp ((u .pitch).comp ((u .arpeggio).comp (u .volume))))

theorem Ignores.updateEffects (e : Env) : Ignores (updateEffects e) := by
  have toTarget : Ignores stepToTarget := by
    refine Ignores.ite (fun ch => ch.portaSpeed ≠ 0 ∧ 0 < ch.portaTo) (fun _ _ _ => rfl) ?_ Ignores.id
    refine Ignores.ite (fun ch => ch.portaTo < ch.period) (fun _ _ _ => rfl)
      (.of (fun _ _ _ => rfl) fun _ => ⟨rfl, rfl⟩) ?_
    exact Ignores.ite (fun ch => ch.period < ch.portaTo) (fun _ _ _ => rfl)
      (.of (fun _ _ _ => rfl) fun _ => ⟨rfl, rfl⟩) Ignores.id
  have clear : Ignores autoClear :=
    Ignores.ite (fun ch => ch.period = ch.portaTo) (fun _ _ _ => rfl)
      (.of (fun _ _ _ => rfl) fun _ => ⟨rfl, rfl⟩) Ignores.id
  refine Ignores.byValue (v := Channel.eff) (fun _ _ _ => rfl)
    (f := fun k ch => match k with
      | .none => ch
      | .arpeggio => updateArpeggio e ch
      | .portamento => stepToTarget ch
      | .slideUp => autoClear (stepToTarget ch)
      | .slideDown => autoClear (stepToTarget ch)
      | .portaUp => ch.setPeriod (ch.period + upSign * ch.portaSpeed.toNat)
      | .portaDown => ch.setPeriod (ch.period - upSign * ch.portaSpeed.toNat)) fun k => ?_
  cases k
  case none => exact Ignores.id
  case arpeggio =>
    have h := Ignores.playPeriod e arpeggioNote (fun _ => 0) (fun _ _ _ => rfl) fun _ _ _ => rfl
    refine .of (fun ch p t => ?_) fun ch => h.identity ch
    have := h.delay ch p t
    simp only [updateArpeggio]
    rw [show (ch.withDelay p t).playPeriod e (arpeggioNote (ch.withDelay p t)) = _ from this]; rfl
  case portamento => exact toTarget
  case slideUp => exact clear.comp toTarget
  case slideDown => exact clear.comp toTarget
  case portaUp => exact .of (fun _ _ _ => rfl) fun _ => ⟨rfl, rfl⟩
  case portaDown => exact .of (fun _ _ _ => rfl) fun _ => ⟨rfl, rfl⟩

/-- Steps 2 to 9 of PROCESS do not look at the buffered row (42_tick_update.md R230). -/
theorem Ignores.processSteps (e : Env) : Ignores (processSteps e) := by
  have counted {f : Channel → Channel} {g : Channel → Channel} {a b : Channel → Prop} [DecidablePred a] [DecidablePred b]
      (ha : ∀ ch p t, a (ch.withDelay p t) = a ch) (hb : ∀ ch p t, b (ch.withDelay p t) = b ch)
      (hg : Ignores g) (hf : Ignores f) : Ignores fun ch => if a ch then ch else if b (g ch) then f (g ch) else g ch :=
    Ignores.ite a ha Ignores.id (Ignores.comp (f := fun ch => if b ch then f ch else ch) (Ignores.ite b hb hf Ignores.id) hg)
  have step {f : Channel → Channel} (h : ∀ ch p t, f (ch.withDelay p t) = (f ch).withDelay p t)
      (g : ∀ ch, (f ch).chipId = ch.chipId ∧ (f ch).chIdx = ch.chIdx) : Ignores f := ⟨h, g⟩
  have cut : Ignores updateNoteCut :=
    counted (a := fun ch => ch.cutTimer = 0) (b := fun ch => ch.cutTimer = 0) (fun _ _ _ => rfl) (fun _ _ _ => rfl)
      (g := fun ch => { ch with cutTimer := ch.cutTimer - 1 }) (step (fun _ _ _ => rfl) fun _ => ⟨rfl, rfl⟩) Ignores.cutNote
  have rel : Ignores (updateNoteRelease e) :=
    counted (a := fun ch => ch.relTimer = 0) (b := fun ch => ch.relTimer = 0) (fun _ _ _ => rfl) (fun _ _ _ => rfl)
      (g := fun ch => { ch with relTimer := ch.relTimer - 1 }) (step (fun _ _ _ => rfl) fun _ => ⟨rfl, rfl⟩)
      (Ignores.releaseNote e.mem)
  have vold : Ignores updateDelayedVolume := by
    refine .of (fun ch p t => ?_) fun ch => ?_
    · simp only [updateDelayedVolume_eq, Channel.withDelay]; split
      · rfl
      · split <;> rfl
    · simp only [updateDelayedVolume_eq]; split
      · exact ⟨rfl, rfl⟩
      · split <;> exact ⟨rfl, rfl⟩
  have trans : Ignores (updateTranspose e) :=
    counted (a := fun ch => ch.transTimer = 0) (b := fun ch => ch.transTimer = 0) (fun _ _ _ => rfl) (fun _ _ _ => rfl)
      (g := fun ch => { ch with transTimer := ch.transTimer - 1 }) (step (fun _ _ _ => rfl) fun _ => ⟨rfl, rfl⟩)
      (f := fun ch => (ch.setNote (transposedNote ch)).playPeriod e (ch.setNote (transposedNote ch)).note.toNat)
      ((Ignores.playPeriod e (fun ch => ch.note.toNat) (fun _ => 0) (fun _ _ _ => rfl) fun _ _ _ => rfl).comp
        (g := fun ch => ch.setNote (transposedNote ch)) (step (fun _ _ _ => rfl) fun _ => ⟨rfl, rfl⟩))
  have slide : Ignores updateVolumeSlide := step (fun _ _ _ => rfl) fun _ => ⟨rfl, rfl⟩
  have phases : Ignores updateVibratoTremolo := step (fun _ _ _ => rfl) fun _ => ⟨rfl, rfl⟩
  have handler : Ignores (updateHandler e) :=
    Ignores.ite (fun ch => ch.handler.isSome = true) (fun _ _ _ => rfl) (Ignores.updateInstrument e) Ignores.id
  exact handler.comp ((Ignores.updateEffects e).comp (phases.comp (slide.comp (trans.comp (vold.comp (rel.comp cut))))))

/-- PROCESS keeps the identity. -/
theorem processChannel_identity (e : Env) (x : Cx) :
    (processChannel e x).ch.chipId = x.ch.chipId ∧ (processChannel e x).ch.chIdx = x.ch.chIdx := by
  have hd : (updateDelay e x).ch.chipId = x.ch.chipId ∧ (updateDelay e x).ch.chIdx = x.ch.chIdx := by
    unfold updateDelay flushDelayed
    split
    · split
      · have := handleNoteData_kept e x.ch.delayEvent { x with ch := { x.ch with delayPending := false } }
        exact this.2.2
      · exact ⟨rfl, rfl⟩
    · exact ⟨rfl, rfl⟩
  have hs := (Ignores.processSteps e).identity (updateDelay e x).ch
  exact ⟨hs.1.trans hd.1, hs.2.trans hd.2⟩

end Sys2Proof.Machine
end

