-- ==== Sys2Proof/Laws/PerInstr.lean ====
section
/-! SUPPORT. Statements made of every instruction, one lemma per constructor. -/

namespace Sys2Proof.Laws.EncodeLength

/-- A well-formed instruction encodes to as many words as its first word announces (30_encoding.md R126): the length
its opcode fixes for a host command, one word for an element row. -/
def Statement (i : Instr) : Prop :=
  WellFormed i → ∃ w ws, encode i = w :: ws ∧ (i.ctx = .host → (w :: ws).length = commandLength w) ∧
    (i.ctx ≠ .host → ws = [])

end Sys2Proof.Laws.EncodeLength

namespace Sys2Proof.Laws

open EncodeLength (Statement)

/-- A host command with as many extension words as its opcode fixes. -/
theorem host_length {i : Instr} (op : BitVec 4) (c : Chan) (arg : Byte) (ws : List Word)
    (h : encode i = hcWord op c arg :: ws)
    (hl : ws.length + 1 = if op = 2 then longestCommand else if op = 8 then 2 else 1) (hc : i.ctx = .host) :
    Statement i :=
  fun _ => ⟨_, ws, h, fun _ => by rw [commandLength_hcWord, List.length_cons, hl], fun hn => absurd hc hn⟩

/-- An element row is one word. -/
theorem element_length {i : Instr} {w : Word} (h : encode i = [w]) (hc : i.ctx ≠ .host) : Statement i :=
  fun _ => ⟨w, [], h, fun hh => absurd hh hc, fun _ => rfl⟩

end Sys2Proof.Laws

namespace Sys2Proof.Laws.EncodeLength

theorem nop : Statement .nop := host_length 0x0 0 0 [] rfl rfl rfl

theorem reset (c : Chan) : Statement (.reset c) := host_length 0x1 c 0 [] rfl rfl rfl

theorem play (c : Chan) (ev : NoteEvent) : Statement (.play c ev) := by
  intro h
  refine ⟨_, _, rfl, fun _ => ?_, fun hc => absurd rfl hc⟩
  have hw : ev.fx.length = cfg.fxCols := of_decide_eq_true h
  rw [commandLength_hcWord, if_pos rfl, longestCommand, ← hw]
  simp only [eventWords, List.length_cons, List.length_map]
  omega

theorem process (c : Chan) : Statement (.process c) := host_length 0x3 c 0 [] rfl rfl rfl

theorem refresh (c : Chan) : Statement (.refresh c) := host_length 0x4 c 0 [] rfl rfl rfl

theorem commit : Statement .commit := host_length 0x5 0 0 [] rfl rfl rfl

theorem tick : Statement .tick := host_length 0x6 0 0 [] rfl rfl rfl

theorem forcereload (c : Chan) : Statement (.forcereload c) := host_length 0x7 c 0 [] rfl rfl rfl

theorem setpitch (c : Chan) (w : Word) : Statement (.setpitch c w) := host_length 0x8 c 0 [w] rfl rfl rfl

theorem setcfg (arg : Byte) : Statement (.setcfg arg) := host_length 0x9 0 arg [] rfl rfl rfl

theorem reservedA : Statement .reservedA := host_length 0xA 0 0 [] rfl rfl rfl

theorem reservedB : Statement .reservedB := host_length 0xB 0 0 [] rfl rfl rfl

theorem reservedC : Statement .reservedC := host_length 0xC 0 0 [] rfl rfl rfl

theorem reservedD : Statement .reservedD := host_length 0xD 0 0 [] rfl rfl rfl

theorem reservedE : Statement .reservedE := host_length 0xE 0 0 [] rfl rfl rfl

theorem reservedF : Statement .reservedF := host_length 0xF 0 0 [] rfl rfl rfl

theorem nNone (c : Chan) (oct : BitVec 3) (volc : BitVec 5) : Statement (.nNone c oct volc) := element_length rfl nofun

theorem nC (c : Chan) (oct : BitVec 3) (volc : BitVec 5) : Statement (.nC c oct volc) := element_length rfl nofun

theorem nCs (c : Chan) (oct : BitVec 3) (volc : BitVec 5) : Statement (.nCs c oct volc) := element_length rfl nofun

theorem nD (c : Chan) (oct : BitVec 3) (volc : BitVec 5) : Statement (.nD c oct volc) := element_length rfl nofun

theorem nDs (c : Chan) (oct : BitVec 3) (volc : BitVec 5) : Statement (.nDs c oct volc) := element_length rfl nofun

theorem nE (c : Chan) (oct : BitVec 3) (volc : BitVec 5) : Statement (.nE c oct volc) := element_length rfl nofun

theorem nF (c : Chan) (oct : BitVec 3) (volc : BitVec 5) : Statement (.nF c oct volc) := element_length rfl nofun

theorem nFs (c : Chan) (oct : BitVec 3) (volc : BitVec 5) : Statement (.nFs c oct volc) := element_length rfl nofun

theorem nG (c : Chan) (oct : BitVec 3) (volc : BitVec 5) : Statement (.nG c oct volc) := element_length rfl nofun

theorem nGs (c : Chan) (oct : BitVec 3) (volc : BitVec 5) : Statement (.nGs c oct volc) := element_length rfl nofun

theorem nA (c : Chan) (oct : BitVec 3) (volc : BitVec 5) : Statement (.nA c oct volc) := element_length rfl nofun

theorem nAs (c : Chan) (oct : BitVec 3) (volc : BitVec 5) : Statement (.nAs c oct volc) := element_length rfl nofun

theorem nB (c : Chan) (oct : BitVec 3) (volc : BitVec 5) : Statement (.nB c oct volc) := element_length rfl nofun

theorem nHalt (c : Chan) (oct : BitVec 3) (volc : BitVec 5) : Statement (.nHalt c oct volc) := element_length rfl nofun

theorem nRelease (c : Chan) (oct : BitVec 3) (volc : BitVec 5) : Statement (.nRelease c oct volc) := element_length rfl nofun

theorem nEcho (c : Chan) (oct : BitVec 3) (volc : BitVec 5) : Statement (.nEcho c oct volc) := element_length rfl nofun

theorem neW1 (c : Chan) (inst : Byte) : Statement (.neW1 c inst) := element_length rfl nofun

theorem fxNone (c : Chan) (p : Byte) : Statement (.fxNone c p) := element_length rfl nofun

theorem fxPortamento (c : Chan) (p : Byte) : Statement (.fxPortamento c p) := element_length rfl nofun

theorem fxVibrato (c : Chan) (p : Byte) : Statement (.fxVibrato c p) := element_length rfl nofun

theorem fxTremolo (c : Chan) (p : Byte) : Statement (.fxTremolo c p) := element_length rfl nofun

theorem fxArpeggio (c : Chan) (p : Byte) : Statement (.fxArpeggio c p) := element_length rfl nofun

theorem fxFinePitch (c : Chan) (p : Byte) : Statement (.fxFinePitch c p) := element_length rfl nofun

theorem fxPortaUp (c : Chan) (p : Byte) : Statement (.fxPortaUp c p) := element_length rfl nofun

theorem fxPortaDown (c : Chan) (p : Byte) : Statement (.fxPortaDown c p) := element_length rfl nofun

theorem fxSlideUp (c : Chan) (p : Byte) : Statement (.fxSlideUp c p) := element_length rfl nofun

theorem fxSlideDown (c : Chan) (p : Byte) : Statement (.fxSlideDown c p) := element_length rfl nofun

theorem fxVolSlide (c : Chan) (p : Byte) : Statement (.fxVolSlide c p) := element_length rfl nofun

theorem fxNoteCut (c : Chan) (p : Byte) : Statement (.fxNoteCut c p) := element_length rfl nofun

theorem fxNoteRelease (c : Chan) (p : Byte) : Statement (.fxNoteRelease c p) := element_length rfl nofun

theorem fxDelayedVol (c : Chan) (p : Byte) : Statement (.fxDelayedVol c p) := element_length rfl nofun

theorem fxTranspose (c : Chan) (p : Byte) : Statement (.fxTranspose c p) := element_length rfl nofun

theorem fxDuty (c : Chan) (p : Byte) : Statement (.fxDuty c p) := element_length rfl nofun

theorem fxDelay (c : Chan) (p : Byte) : Statement (.fxDelay c p) := element_length rfl nofun

theorem fxEnvLo (c : Chan) (p : Byte) : Statement (.fxEnvLo c p) := element_length rfl nofun

theorem fxEnvHi (c : Chan) (p : Byte) : Statement (.fxEnvHi c p) := element_length rfl nofun

theorem fxEnvShape (c : Chan) (p : Byte) : Statement (.fxEnvShape c p) := element_length rfl nofun

theorem fxNoise (c : Chan) (p : Byte) : Statement (.fxNoise c p) := element_length rfl nofun

theorem fxUnknown (c : Chan) (kind p : Byte) : Statement (.fxUnknown c kind p) := element_length rfl nofun

theorem sqVolume (c : Chan) (item : Byte) : Statement (.sqVolume c item) := element_length rfl nofun

theorem sqArpAbsolute (c : Chan) (item : Byte) : Statement (.sqArpAbsolute c item) := element_length rfl nofun

theorem sqArpFixed (c : Chan) (item : Byte) : Statement (.sqArpFixed c item) := element_length rfl nofun

theorem sqArpRelative (c : Chan) (item : Byte) : Statement (.sqArpRelative c item) := element_length rfl nofun

theorem sqArpScheme0 (c : Chan) (limit : BitVec 6) : Statement (.sqArpScheme0 c limit) := element_length rfl nofun

theorem sqArpScheme1 (c : Chan) (limit : BitVec 6) : Statement (.sqArpScheme1 c limit) := element_length rfl nofun

theorem sqArpScheme2 (c : Chan) (limit : BitVec 6) : Statement (.sqArpScheme2 c limit) := element_length rfl nofun

theorem sqArpScheme3 (c : Chan) (limit : BitVec 6) : Statement (.sqArpScheme3 c limit) := element_length rfl nofun

theorem sqPitchRelative (c : Chan) (item : Byte) : Statement (.sqPitchRelative c item) := element_length rfl nofun

theorem sqPitchAbsolute (c : Chan) (item : Byte) : Statement (.sqPitchAbsolute c item) := element_length rfl nofun

theorem sqPitchReserved (c : Chan) (item : Byte) : Statement (.sqPitchReserved c item) := element_length rfl nofun

theorem sqHipitch (c : Chan) (item : Byte) : Statement (.sqHipitch c item) := element_length rfl nofun

theorem sqDuty (c : Chan) (item : Byte) : Statement (.sqDuty c item) := element_length rfl nofun

theorem periodLo0 (v : Byte) : Statement (.periodLo0 v) := element_length rfl nofun

theorem periodHi0 (v : Byte) : Statement (.periodHi0 v) := element_length rfl nofun

theorem periodLo1 (v : Byte) : Statement (.periodLo1 v) := element_length rfl nofun

theorem periodHi1 (v : Byte) : Statement (.periodHi1 v) := element_length rfl nofun

theorem periodLo2 (v : Byte) : Statement (.periodLo2 v) := element_length rfl nofun

theorem periodHi2 (v : Byte) : Statement (.periodHi2 v) := element_length rfl nofun

theorem noise (v : Byte) : Statement (.noise v) := element_length rfl nofun

theorem mixer (v : Byte) : Statement (.mixer v) := element_length rfl nofun

theorem level0 (v : Byte) : Statement (.level0 v) := element_length rfl nofun

theorem level1 (v : Byte) : Statement (.level1 v) := element_length rfl nofun

theorem level2 (v : Byte) : Statement (.level2 v) := element_length rfl nofun

theorem envLo (v : Byte) : Statement (.envLo v) := element_length rfl nofun

theorem envHi (v : Byte) : Statement (.envHi v) := element_length rfl nofun

theorem envShape (v : Byte) : Statement (.envShape v) := element_length rfl nofun

end Sys2Proof.Laws.EncodeLength
end

