-- ==== Sys2Proof/Tests/Slice0.lean ====
section
/-! SUPPORT. The model's own tests. Words are written out from 30_encoding.md; results are the vectors of
95_test_vectors.md (named in each docstring) or worked by hand from the rule named. The witnesses at the end meet the
hypotheses of the obligations. -/

namespace Sys2Proof.Tests

open Sys2Proof Sys2Proof.Machine

/-! ### Well-formedness: each check refuses an ill-formed term -/

/-- A record has FXCOLS columns (30_encoding.md R103). -/
theorem test_wf_play : (Instr.play 0 NoteEvent.empty).wf = true ∧
    (Instr.play 0 { NoteEvent.empty with fx := [⟨0, 0⟩, ⟨0, 0⟩, ⟨0, 0⟩] }).wf = false ∧
    (Instr.play 0 { NoteEvent.empty with fx := [] }).wf = false := by decide

/-- A known kind is no FX_UNKNOWN (R122). -/
theorem test_wf_unknown : (Instr.fxUnknown 0 0x11 0).wf = true ∧ (Instr.fxUnknown 0 0x00 0).wf = false ∧
    (Instr.fxUnknown 0 0x10 0).wf = false ∧ (Instr.fxUnknown 0 0x80 0).wf = false ∧
    (Instr.fxUnknown 0 0x83 0).wf = false ∧ (Instr.fxUnknown 0 0x84 0).wf = true := by decide

/-- The bits the register map leaves zero (20_memory.md R77). -/
theorem test_wf_ports :
    (Instr.periodHi0 0x0F).wf = true ∧ (Instr.periodHi0 0x10).wf = false ∧ (Instr.periodHi1 0x10).wf = false ∧
    (Instr.periodHi2 0x10).wf = false ∧ (Instr.noise 0x1F).wf = true ∧ (Instr.noise 0x20).wf = false ∧
    (Instr.mixer 0x3F).wf = true ∧ (Instr.mixer 0x40).wf = false ∧ (Instr.level0 0x1F).wf = true ∧
    (Instr.level0 0x20).wf = false ∧ (Instr.level1 0x20).wf = false ∧ (Instr.level2 0x20).wf = false ∧
    (Instr.envShape 0x0F).wf = true ∧ (Instr.envShape 0x10).wf = false := by decide

/-! ### Decoding: words written out from the encoding -/

/-- HC words (R100 to R103, R121, R125). -/
theorem test_decode_host :
    decode .host [0x05FF] = .ok (.nop, []) ∧ decode .host [0x1200] = .ok (.reset 2, []) ∧
    decode .host [0x3100] = .ok (.process 1, []) ∧ decode .host [0x4700] = .ok (.refresh 7, []) ∧
    decode .host [0x5000] = .ok (.commit, []) ∧ decode .host [0x6000] = .ok (.tick, []) ∧
    decode .host [0x7100] = .ok (.forcereload 1, []) ∧ decode .host [0x8200, 0xFF00] = .ok (.setpitch 2 0xFF00, []) ∧
    decode .host [0x9502] = .ok (.setcfg 2, []) ∧ decode .host [0xA055] = .ok (.reservedA, []) ∧
    decode .host [0xB000] = .ok (.reservedB, []) ∧ decode .host [0xC000] = .ok (.reservedC, []) ∧
    decode .host [0xD000] = .ok (.reservedD, []) ∧ decode .host [0xE000] = .ok (.reservedE, []) ∧
    decode .host [0xF301] = .ok (.reservedF, []) :=
  ⟨rfl, rfl, rfl, rfl, rfl, rfl, rfl, rfl, rfl, rfl, rfl, rfl, rfl, rfl, rfl⟩

/-- `PLAY 0, C-4 00 A DUTY:40` (95 section 1) takes its six words; a cut command is refused. -/
theorem test_decode_play :
    decode .host [0x2000, 0x0A41, 0x0000, 0x0F40, 0x0000, 0x0000, 0x0000, 0x6000] =
      .ok (.play 0 ⟨1, 4, 10, 0, [⟨0x0F, 0x40⟩, ⟨0, 0⟩, ⟨0, 0⟩, ⟨0, 0⟩]⟩, [0x6000]) ∧
    decode .host [0x2000, 0x0A41, 0x0000, 0x0F40, 0x0000, 0x0000] = .error .truncated ∧
    decode .host [0x8000] = .error .truncated ∧ decode .host [] = .error .truncated :=
  ⟨rfl, rfl, rfl, rfl⟩

/-- Note words: bits 3:0 the code, 6:4 the octave, 12:8 the volume; bits 7 and 15:13 ignored (R104, R105). -/
theorem test_decode_notes :
    decode (.noteWord 0) [0x1040] = .ok (.nNone 0 4 16, []) ∧ decode (.noteWord 0) [0xF0C1] = .ok (.nC 0 4 16, []) ∧
    decode (.noteWord 0) [0x1042] = .ok (.nCs 0 4 16, []) ∧ decode (.noteWord 0) [0x1043] = .ok (.nD 0 4 16, []) ∧
    decode (.noteWord 0) [0x1044] = .ok (.nDs 0 4 16, []) ∧ decode (.noteWord 0) [0x1045] = .ok (.nE 0 4 16, []) ∧
    decode (.noteWord 0) [0x1046] = .ok (.nF 0 4 16, []) ∧ decode (.noteWord 0) [0x1047] = .ok (.nFs 0 4 16, []) ∧
    decode (.noteWord 0) [0x0048] = .ok (.nG 0 4 0, []) ∧ decode (.noteWord 0) [0x1049] = .ok (.nGs 0 4 16, []) ∧
    decode (.noteWord 0) [0x007A] = .ok (.nA 0 7 0, []) ∧ decode (.noteWord 0) [0x0F4B] = .ok (.nAs 0 4 15, []) ∧
    decode (.noteWord 2) [0x1F4C] = .ok (.nB 2 4 31, []) ∧ decode (.noteWord 0) [0x100D] = .ok (.nHalt 0 0 16, []) ∧
    decode (.noteWord 0) [0x100E] = .ok (.nRelease 0 0 16, []) ∧ decode (.noteWord 0) [0x103F] = .ok (.nEcho 0 3 16, []) ∧
    decode (.instWord 1) [0xAB0D] = .ok (.neW1 1 0x0D, []) :=
  ⟨rfl, rfl, rfl, rfl, rfl, rfl, rfl, rfl, rfl, rfl, rfl, rfl, rfl, rfl, rfl, rfl, rfl⟩

/-- FX words: kind in bits 15:8, parameter in bits 7:0 (R109 to R111, R122). -/
theorem test_decode_effects :
    decode (.effect 0) [0x0033] = .ok (.fxNone 0 0x33, []) ∧ decode (.effect 0) [0x0110] = .ok (.fxPortamento 0 0x10, []) ∧
    decode (.effect 0) [0x0247] = .ok (.fxVibrato 0 0x47, []) ∧ decode (.effect 0) [0x038F] = .ok (.fxTremolo 0 0x8F, []) ∧
    decode (.effect 0) [0x0447] = .ok (.fxArpeggio 0 0x47, []) ∧
    decode (.effect 0) [0x0590] = .ok (.fxFinePitch 0 0x90, []) ∧ decode (.effect 0) [0x0610] = .ok (.fxPortaUp 0 0x10, []) ∧
    decode (.effect 0) [0x07FF] = .ok (.fxPortaDown 0 0xFF, []) ∧ decode (.effect 0) [0x0823] = .ok (.fxSlideUp 0 0x23, []) ∧
    decode (.effect 0) [0x0912] = .ok (.fxSlideDown 0 0x12, []) ∧
    decode (.effect 0) [0x0A0F] = .ok (.fxVolSlide 0 0x0F, []) ∧ decode (.effect 0) [0x0B02] = .ok (.fxNoteCut 0 2, []) ∧
    decode (.effect 0) [0x0C06] = .ok (.fxNoteRelease 0 6, []) ∧ decode (.effect 0) [0x0D23] = .ok (.fxDelayedVol 0 0x23, []) ∧
    decode (.effect 0) [0x0E9C] = .ok (.fxTranspose 0 0x9C, []) ∧ decode (.effect 0) [0x0F60] = .ok (.fxDuty 0 0x60, []) :=
  ⟨rfl, rfl, rfl, rfl, rfl, rfl, rfl, rfl, rfl, rfl, rfl, rfl, rfl, rfl, rfl, rfl⟩

/-- FX_DELAY, the chip's four kinds and the unknown kinds at the edges of the tables (R110, R111, R122). -/
theorem test_decode_effects_edges :
    decode (.effect 0) [0x1003] = .ok (.fxDelay 0 3, []) ∧ decode (.effect 1) [0x8034] = .ok (.fxEnvLo 1 0x34, []) ∧
    decode (.effect 1) [0x8112] = .ok (.fxEnvHi 1 0x12, []) ∧ decode (.effect 1) [0x82FE] = .ok (.fxEnvShape 1 0xFE, []) ∧
    decode (.effect 1) [0x83FF] = .ok (.fxNoise 1 0xFF, []) ∧ decode (.effect 0) [0x1155] = .ok (.fxUnknown 0 0x11 0x55, []) ∧
    decode (.effect 0) [0x7F01] = .ok (.fxUnknown 0 0x7F 1, []) ∧ decode (.effect 0) [0x8409] = .ok (.fxUnknown 0 0x84 9, []) ∧
    decode (.effect 0) [0xFF00] = .ok (.fxUnknown 0 0xFF 0, []) :=
  ⟨rfl, rfl, rfl, rfl, rfl, rfl, rfl, rfl, rfl⟩

/-- SQ items by kind and setting (R113, R114; 20_memory.md R75); an item of more than 8 bits is refused. -/
theorem test_decode_items :
    decode (.seqItem 0 .volume 0) [0x000F] = .ok (.sqVolume 0 15, []) ∧
    decode (.seqItem 0 .arpeggio 0) [0x0004] = .ok (.sqArpAbsolute 0 4, []) ∧
    decode (.seqItem 0 .arpeggio 1) [0x003C] = .ok (.sqArpFixed 0 60, []) ∧
    decode (.seqItem 0 .arpeggio 2) [0x0001] = .ok (.sqArpRelative 0 1, []) ∧
    decode (.seqItem 0 .arpeggio 3) [0x003F] = .ok (.sqArpScheme0 0 0x3F, []) ∧
    decode (.seqItem 0 .arpeggio 3) [0x0045] = .ok (.sqArpScheme1 0 5, []) ∧
    decode (.seqItem 0 .arpeggio 3) [0x0085] = .ok (.sqArpScheme2 0 5, []) ∧
    decode (.seqItem 0 .arpeggio 3) [0x00C5] = .ok (.sqArpScheme3 0 5, []) ∧
    decode (.seqItem 0 .pitch 0) [0x00FE] = .ok (.sqPitchRelative 0 0xFE, []) ∧
    decode (.seqItem 0 .pitch 1) [0x0005] = .ok (.sqPitchAbsolute 0 5, []) ∧
    decode (.seqItem 0 .pitch 2) [0x0007] = .ok (.sqPitchReserved 0 7, []) ∧
    decode (.seqItem 0 .pitch 3) [0x0007] = .ok (.sqPitchReserved 0 7, []) ∧
    decode (.seqItem 0 .hipitch 0) [0x00FF] = .ok (.sqHipitch 0 0xFF, []) ∧
    decode (.seqItem 0 .duty 0) [0x008A] = .ok (.sqDuty 0 0x8A, []) ∧
    decode (.seqItem 0 .duty 0) [0x018A] = .error .itemTooWide :=
  ⟨rfl, rfl, rfl, rfl, rfl, rfl, rfl, rfl, rfl, rfl, rfl, rfl, rfl, rfl, rfl⟩

/-- RW pairs: address in bits 15:8, value in bits 7:0 (R112; 20_memory.md R77); what is off the map is refused. -/
theorem test_decode_ports :
    decode .port [0x00C0] = .ok (.periodLo0 0xC0, []) ∧ decode .port [0x010D] = .ok (.periodHi0 0x0D, []) ∧
    decode .port [0x0200] = .ok (.periodLo1 0, []) ∧ decode .port [0x030F] = .ok (.periodHi1 0x0F, []) ∧
    decode .port [0x04FF] = .ok (.periodLo2 0xFF, []) ∧ decode .port [0x0501] = .ok (.periodHi2 1, []) ∧
    decode .port [0x061F] = .ok (.noise 0x1F, []) ∧ decode .port [0x073F] = .ok (.mixer 0x3F, []) ∧
    decode .port [0x081F] = .ok (.level0 0x1F, []) ∧ decode .port [0x0908] = .ok (.level1 8, []) ∧
    decode .port [0x0A00] = .ok (.level2 0, []) ∧ decode .port [0x0B34] = .ok (.envLo 0x34, []) ∧
    decode .port [0x0C12] = .ok (.envHi 0x12, []) ∧ decode .port [0x0D0E] = .ok (.envShape 0x0E, []) ∧
    decode .port [0x0E00] = .error .noSuchRegister ∧ decode .port [0x0110] = .error .reservedValueBits :=
  ⟨rfl, rfl, rfl, rfl, rfl, rfl, rfl, rfl, rfl, rfl, rfl, rfl, rfl, rfl, rfl, rfl⟩

/-- The table's numbered bits: bit 0 of the first word first, operand words of zeros above (log 4). -/
theorem test_table_words :
    decodeTableWord 16 0x6000 = some .tick ∧ decodeTableWord 32 0x01008200 = some (.setpitch 2 0x0100) ∧
    decodeTableWord 48 0x000710412100 = some (.play 1 ⟨1, 4, 16, 7, [⟨0, 0⟩, ⟨0, 0⟩, ⟨0, 0⟩, ⟨0, 0⟩]⟩) ∧
    decodeTableWord 16 0x8200 = some (.setpitch 2 0) ∧ decodeTableWord 8 0x45 = some (.sqArpScheme1 0 5) :=
  ⟨rfl, rfl, rfl, rfl, rfl⟩

/-! ### One step on a small state -/

/-- The entries of 95_test_vectors.md REF that the tests read: `NoteTable(n) = 4000 - 10 n`, some instruments and
sequences of REF-M. -/
def tables : Memory where
  notes := [(0, 4000), (2, 3980), (42, 3580), (46, 3540), (48, 3520), (49, 3510), (50, 3500), (51, 3490), (52, 3480),
    (53, 3470), (54, 3460), (55, 3450), (56, 3440), (60, 3400), (255, 1450)]
  insts := [(0, ⟨.native, ⟨true, false, false, false, false⟩, .const 0⟩),
    (2, ⟨.native, ⟨true, true, false, false, false⟩, ⟨2, 0, 0, 0, 0⟩⟩), (11, ⟨.foreign, .const false, .const 0⟩),
    (12, ⟨.sample, .const false, .const 0⟩), (48, ⟨.none, .const false, .const 0⟩)]
  seqs :=
    { volume := [(0, ⟨2, 4, 0, [15, 12, 10, 8, 6, 4]⟩), (2, ⟨0xFF, 0xFF, 0, [15, 10, 5]⟩)]
      arpeggio := [(0, ⟨0, 0xFF, 0, [0, 4, 7]⟩), (1, ⟨0xFF, 0xFF, 1, [60, 36]⟩)]
      pitch := []
      hipitch := []
      duty := [] }

/-- The state after power-on with the tables and channel 0 as given. -/
def with0 (f : Channel → Channel) : State :=
  { State.reset with chans := ⟨f (.powerOn 0), .powerOn 1, .powerOn 2⟩, mem := tables }

/-- A channel that plays note 48 of the table. -/
def playing (ch : Channel) : Channel := { ch with note := 48, period := 3520, gate := true }

/-- The next state of an outcome. -/
def nextOf (o : Host.Outcome State Fault Refusal) : Option State :=
  match o with
  | .next t => some t
  | .fault _ => none
  | .refused _ => none

/-- What a view of channel 0 is after an instruction. -/
def chan0 {α : Type} (i : Instr) (f : Channel → Channel) (view : Channel → α) : Option α :=
  (nextOf (exec i (with0 f))).map fun t => view t.chans.c0

/-- The pairs an instruction emits. -/
def pairs (i : Instr) (s : State) : Option (List (Nat × Nat)) :=
  (nextOf (exec i s)).map fun t => t.out.map fun p => (p.1.toNat, p.2.toNat)

/-- The handler of instrument 0x00 with its volume slot at `pos`. -/
def volumeHandler (st : PlayState) (pos : Nat) : Option Handler :=
  some ⟨.native, { PerKind.const Slot.off with volume := ⟨some 0, st, pos⟩ }, 0, 0⟩

/-- The port: H1, H2, H3 (R121, R180, R100): one command a step, and the rest of the words stay. -/
theorem test_step_takes_one_command :
    (nextOf (step { State.reset with inp := [0xF301, 0x6000] })).map (·.inp) = some [0x6000] ∧
    (nextOf (step { State.reset with inp := [0x8200] })).map (·.inp) = some [0x8200] ∧
    nextOf (step { State.reset with inp := [0x1500] }) = some State.reset := by decide +kernel

/-- The word the host places is the one the next step runs (log 4). -/
theorem test_fetch_word :
    (nextOf (step (State.reset.withFetchWord 16 0x7100))).map (·.chans.c1.forceReload) = some true ∧
    (nextOf (step (State.reset.withFetchWord 16 0x9003))).map (fun t => (t.cfgReg, t.inp)) = some (⟨true, true⟩, []) ∧
    (nextOf (step ((with0 playing).withFetchWord 8 0x07))).map (·.chans.c0.period) = some 3450 := by decide +kernel

/-- H5, H6, H7 (R181 to R183). -/
theorem test_host_registers :
    chan0 (.forcereload 0) id (·.forceReload) = some true ∧ chan0 (.setpitch 0 0x0100) id (·.pitchWheel) = some 256 ∧
    chan0 (.setpitch 0 0xFF00) id (·.pitchWheel) = some (-256) ∧
    chan0 (.setpitch 0 0x7FFF) id (·.pitchWheel) = some 511 ∧
    chan0 (.setpitch 0 0x8000) id (·.pitchWheel) = some (-511) ∧
    (nextOf (exec (.setcfg 2) State.reset)).map (·.cfgReg) = some ⟨false, true⟩ := by decide +kernel

/-- H8 (R140 to R142). -/
theorem test_reset :
    pairs (.reset 1) State.reset = some [(2, 0), (3, 0), (9, 0)] ∧
    (nextOf (exec (.reset 0) { with0 playing with shr := { Shared.powerOn with mixer := 0 } })).map
      (fun t => (t.chans.c0, t.shr.mixer)) = some (Channel.powerOn 0, 9) := by decide +kernel

/-- The row of N1. -/
def rowN1 : NoteEvent := ⟨1, 4, 10, 2, [⟨0x0F, 0x40⟩, ⟨0, 0⟩, ⟨0, 0⟩, ⟨0, 0⟩]⟩

/-- N1 (R148 to R164): effect, volume column, note. -/
theorem test_play :
    chan0 (.play 0 rowN1) id (fun ch => (ch.duty, ch.vol, ch.defVol, ch.note, ch.period)) =
      some (0x40, 80, 80, 48, 3520) ∧
    chan0 (.play 0 rowN1) id (fun ch => (ch.echo, ch.gate, ch.trigger)) =
      some ([.note 48, .empty, .empty, .empty], true, true) := by decide +kernel

/-- N1 (R155, R165, R166): the instrument. -/
theorem test_play_instrument :
    chan0 (.play 0 rowN1) id (fun ch => (ch.instVol, ch.inst, ch.instType)) = some (15, 2, .native) ∧
    chan0 (.play 0 rowN1) id (·.handler) =
      some (some ⟨.native, ⟨⟨some 2, .running, 0⟩, ⟨some 0, .running, 0⟩, Slot.off, Slot.off, Slot.off⟩, 0, 0⟩) := by
  decide +kernel

/-- N14, N15 (R143, R144): the first delay column with a parameter counts, and the copy has none. -/
theorem test_play_delayed :
    chan0 (.play 0 ⟨1, 4, 16, 0xFF, [⟨0x10, 2⟩, ⟨0x10, 7⟩, ⟨0, 0⟩, ⟨0, 0⟩]⟩) id
      (fun ch => (ch.delayPending, ch.delayTimer, ch.delayEvent, ch.gate)) =
      some (true, 2, ⟨1, 4, 16, 0xFF, [⟨0, 0⟩, ⟨0, 0⟩, ⟨0, 0⟩, ⟨0, 0⟩]⟩, false) ∧
    chan0 (.play 0 ⟨1, 4, 16, 0xFF, [⟨0x10, 0⟩, ⟨0x10, 2⟩, ⟨0, 0⟩, ⟨0, 0⟩]⟩) id (·.delayTimer) = some 2 := by
  decide +kernel

/-- X4, F12 (R242, R243): a step toward the target; the slide clears its slot at it. -/
theorem test_process_slides :
    chan0 (.process 0) (fun ch => { playing ch with eff := .portamento, portaSpeed := 16, portaTo := 3450 }) (·.period) =
      some 3504 ∧
    chan0 (.process 0) (fun ch =>
      { playing ch with period := 3495, eff := .slideUp, effParam := 0x23, portaSpeed := 5, portaTo := 3490 })
      (fun ch => (ch.period, ch.eff, ch.portaSpeed, ch.portaTo)) = some (3490, .none, 0, 0) := by decide +kernel

/-- X5, X7 (R294, R311, R231): the volume slot runs its item and steps; a delayed row plays at timer 0. -/
theorem test_process_slots :
    chan0 (.process 0) (fun ch => { playing ch with handler := volumeHandler .running 4 })
      (fun ch => (ch.instVol, ch.handler)) = some (6, volumeHandler .running 2) ∧
    chan0 (.process 0) (fun ch =>
      { ch with delayPending := true, delayEvent := ⟨1, 4, 16, 0, [⟨0x0F, 0x40⟩, ⟨0, 0⟩, ⟨0, 0⟩, ⟨0, 0⟩]⟩ })
      (fun ch => (ch.delayPending, ch.note, ch.period, ch.instVol, ch.handler)) =
      some (false, 48, 3520, 15, volumeHandler .running 1) := by decide +kernel

/-- A channel that REFRESH shows in M1 and M4. -/
def sounding (period : Nat) (vol : BitVec 7) (instVol duty : Byte) (ch : Channel) : Channel :=
  { ch with
    gate := true, trigger := true, period := period, vol := vol, instVol := instVol, duty := duty
    instType := .native, handler := some (newHandler .native) }

/-- M1, M4 on channel 0 (R333, R338, R339). -/
theorem test_refresh :
    pairs (.refresh 0) { with0 (sounding 3520 80 12 0x40) with cfgReg := ⟨true, false⟩ } =
      some [(0, 0xC0), (1, 0x0D), (8, 8)] ∧
    (nextOf (exec (.refresh 0) (with0 (sounding 0x123 120 15 0xE5)))).map
      (fun t => (t.shr.noisePeriod, t.shr.mixer, t.shr.envAny, t.shr.retrig, t.chans.c0.trigger)) =
      some (5, 0x36, true, true, false) := by decide +kernel

/-- M4, M7 (R340 to R342). -/
theorem test_commit :
    pairs .commit { State.reset with shr := ⟨0x1234, 14, 5, 0x1B, true, false, true⟩ } =
      some [(6, 5), (7, 0x1B), (0x0B, 0x34), (0x0C, 0x12), (0x0D, 14)] ∧
    (nextOf (exec .commit { State.reset with shr := { Shared.powerOn with update := true, envShape := 9 } })).map
      (fun t => (t.out.length, t.shr.update)) = some (4, false) := by decide +kernel

/-- M5 (R345, R347). -/
theorem test_tick :
    pairs .tick { State.reset with mem := tables } =
      some [(0, 0), (1, 0), (8, 0), (2, 0), (3, 0), (9, 0), (4, 0), (5, 0), (10, 0), (6, 0), (7, 0x3F), (11, 0), (12, 0)] := by
  decide +kernel

/-- C-4 to B-4 by their codes: the note numbers 48 to 59 (R105). -/
theorem test_note_numbers :
    chan0 (.nC 0 4 16) id (·.note) = some 48 ∧ chan0 (.nCs 0 4 16) id (·.note) = some 49 ∧
    chan0 (.nD 0 4 16) id (·.note) = some 50 ∧ chan0 (.nDs 0 4 16) id (·.note) = some 51 ∧
    chan0 (.nE 0 4 16) id (·.note) = some 52 ∧ chan0 (.nF 0 4 16) id (·.note) = some 53 ∧
    chan0 (.nFs 0 4 16) id (·.note) = some 54 ∧ chan0 (.nG 0 4 16) id (·.note) = some 55 ∧
    chan0 (.nGs 0 4 16) id (·.note) = some 56 ∧ chan0 (.nA 0 4 16) id (·.note) = some 57 ∧
    chan0 (.nAs 0 4 16) id (·.note) = some 58 ∧ chan0 (.nB 0 4 16) id (·.note) = some 59 := by decide +kernel

/-- F13, N12 (R164, R206, R167): a head under a slide moves on from the note; the volume stays while one runs. -/
theorem test_note_head :
    chan0 (.nC 0 4 16) (fun ch => { ch with eff := .slideDown, effParam := 0x12, volSlide := 4, vol := 56 })
      (fun ch => (ch.note, ch.portaSpeed, ch.portaTo, ch.period, ch.vol)) = some (46, 3, 3540, 3520, 56) ∧
    chan0 (.nG 0 4 8) (fun ch => { playing ch with eff := .portamento, portaSpeed := 16 })
      (fun ch => (ch.note, ch.portaTo, ch.period, ch.vol)) = some (55, 3450, 3520, 64) := by decide +kernel

/-- N4 (R158, R161). -/
theorem test_no_note_and_halt :
    chan0 (.nNone 0 4 5) playing (fun ch => (ch.vol, ch.defVol, ch.note, ch.gate)) = some (40, 40, 48, true) ∧
    chan0 (.nHalt 0 0 16) (fun ch => { playing ch with trigger := true, portaTo := 9 })
      (fun ch => (ch.gate, ch.trigger, ch.period, ch.portaTo)) = some (false, false, 0, 0) ∧
    chan0 (.nHalt 0 0 16) playing (·.echo) = some [.halt, .empty, .empty, .empty] := by decide +kernel

/-- X5, X2 (R162, R150). -/
theorem test_release_and_echo :
    chan0 (.nRelease 0 0 16) (fun ch => { playing ch with handler := volumeHandler .running 3 })
      (fun ch => (ch.release, ch.gate, ch.handler)) = some (true, true, volumeHandler .running 4) ∧
    chan0 (.nEcho 0 3 16) (fun ch => { ch with echo := [.note 33, .note 31, .note 29, .note 48] })
      (fun ch => (ch.period, ch.echo)) = some (3520, [.note 48, .note 33, .note 31, .note 29]) ∧
    chan0 (.nEcho 0 4 16) playing id = some (playing (.powerOn 0)) := by decide +kernel

/-- N5, N7, N8 (R155, R165, R166): a load without a head does not trigger; a sample or missing entry is skipped. -/
theorem test_instrument_word :
    chan0 (.neW1 0 0) playing (fun ch => (ch.inst, ch.instVol, ch.handler)) = some (0, 0, volumeHandler .running 0) ∧
    chan0 (.neW1 0 12) playing id = some (playing (.powerOn 0)) ∧
    chan0 (.neW1 0 48) playing id = some (playing (.powerOn 0)) ∧
    chan0 (.neW1 0 64) playing id = some (playing (.powerOn 0)) := by decide +kernel

/-- F1, F20 (R191, R192, R208, R209): what changes nothing. -/
theorem test_effects_without_effect :
    chan0 (.fxNone 0 0x33) playing id = some (playing (.powerOn 0)) ∧
    chan0 (.fxUnknown 0 0x7F 1) playing id = some (playing (.powerOn 0)) ∧
    chan0 (.fxNoteCut 0 0x80) playing id = some (playing (.powerOn 0)) ∧
    chan0 (.fxNoteRelease 0 0xFF) playing id = some (playing (.powerOn 0)) ∧
    chan0 (.fxDelay 0 0) playing id = some (playing (.powerOn 0)) := by decide +kernel

/-- F3, F4, F8, F15, F22, F23, F25, F27 (R194 to R212): the stored operands. -/
theorem test_effects_store :
    chan0 (.fxVibrato 0 0x47) id (fun ch => (ch.vibSpeed, ch.vibDepth)) = some (4, 7) ∧
    chan0 (.fxTremolo 0 0x8F) id (fun ch => (ch.tremSpeed, ch.tremDepth)) = some (8, 15) ∧
    chan0 (.fxFinePitch 0 0x90) id (·.finePitch) = some 0x90 ∧
    chan0 (.fxVolSlide 0 0) (fun ch => { ch with vol := 52 }) (·.defVol) = some 52 ∧
    chan0 (.fxNoteCut 0 2) id (·.cutTimer) = some 3 ∧ chan0 (.fxNoteRelease 0 0x7F) id (·.relTimer) = some 128 ∧
    chan0 (.fxDelayedVol 0 0xF5) id (fun ch => (ch.voldTimer, ch.newVol)) = some (16, 40) ∧
    chan0 (.fxTranspose 0 0x9C) id (fun ch => (ch.transTimer, ch.transAmount, ch.transDown)) = some (2, 12, true) ∧
    chan0 (.fxDuty 0 0x60) id (fun ch => (ch.duty, ch.defDuty)) = some (0x60, 0x60) ∧
    chan0 (.fxDelay 0 3) id (fun ch => (ch.delayPending, ch.delayTimer)) = some (true, 3) := by decide +kernel

/-- F6, F9, F10, F12, N19 (R193, R196, R198 to R203): the continuous-effect slot. -/
theorem test_effects_slot :
    chan0 (.fxPortamento 0 5) playing (fun ch => (ch.eff, ch.portaSpeed, ch.portaTo)) = some (.portamento, 5, 3520) ∧
    chan0 (.fxArpeggio 0 0) (fun ch => { playing ch with eff := .arpeggio, arpParam := 0x47, arpPhase := 2, period := 3480 })
      (fun ch => (ch.period, ch.eff, ch.arpPhase, ch.arpParam)) = some (3520, .none, 0, 0) ∧
    chan0 (.fxPortaUp 0 0x10) playing (fun ch => (ch.eff, ch.portaSpeed)) = some (.portaUp, 16) ∧
    chan0 (.fxPortaDown 0 0xFF) playing (fun ch => (ch.eff, ch.portaSpeed)) = some (.portaDown, 255) ∧
    chan0 (.fxSlideUp 0 0x23) playing (fun ch => (ch.note, ch.portaSpeed, ch.portaTo)) = some (51, 5, 3490) ∧
    chan0 (.fxSlideDown 0 0x12) playing (fun ch => (ch.note, ch.portaSpeed, ch.portaTo)) = some (46, 3, 3540) := by
  decide +kernel

/-- F28 (R216 to R219). -/
theorem test_effects_chip :
    (nextOf (exec (.fxEnvLo 1 0x34) State.reset)).map (·.shr.envPeriod) = some 0x0034 ∧
    (nextOf (exec (.fxEnvHi 1 0x12) State.reset)).map (·.shr.envPeriod) = some 0x1200 ∧
    (nextOf (exec (.fxEnvShape 1 0xFE) State.reset)).map (fun t => (t.shr.envShape, t.shr.update)) = some (0xE, true) ∧
    (nextOf (exec (.fxNoise 1 0xFF) State.reset)).map (·.shr.noisePeriod) = some 0x1F := by decide +kernel

/-- S7 to S15, X3 (R301 to R309): one item of each form. -/
theorem test_items :
    chan0 (.sqVolume 0 12) playing (·.instVol) = some 12 ∧ chan0 (.sqArpAbsolute 0 7) playing (·.period) = some 3450 ∧
    chan0 (.sqArpFixed 0 60) playing (fun ch => (ch.period, ch.note)) = some (3400, 48) ∧
    chan0 (.sqArpRelative 0 1) playing (fun ch => (ch.period, ch.note)) = some (3510, 49) ∧
    chan0 (.sqArpScheme0 0 5) playing (·.period) = some 3470 ∧
    chan0 (.sqArpScheme1 0 5) (fun ch => { playing ch with arpParam := 0x37 }) (·.period) = some 3440 ∧
    chan0 (.sqArpScheme2 0 5) (fun ch => { playing ch with arpParam := 0x37 }) (·.period) = some 3400 ∧
    chan0 (.sqArpScheme3 0 5) (fun ch => { playing ch with arpParam := 0x37 }) (·.period) = some 3540 ∧
    chan0 (.sqPitchRelative 0 0xFE) playing (·.period) = some 3518 ∧
    chan0 (.sqPitchAbsolute 0 0xFB) (fun ch => { playing ch with period := 3525 }) (·.period) = some 3515 ∧
    chan0 (.sqPitchReserved 0 7) playing id = some (playing (.powerOn 0)) ∧
    chan0 (.sqHipitch 0 0xFF) playing (·.period) = some 3504 ∧
    chan0 (.sqDuty 0 0x8A) playing (fun ch => (ch.duty, ch.defDuty)) = some (0x8A, 0) := by decide +kernel

/-- RW rows append their pair (20_memory.md R76, R77). -/
theorem test_period_ports :
    pairs (.periodLo0 0xC0) State.reset = some [(0, 0xC0)] ∧ pairs (.periodHi0 0x0D) State.reset = some [(1, 0x0D)] ∧
    pairs (.periodLo1 1) State.reset = some [(2, 1)] ∧ pairs (.periodHi1 2) State.reset = some [(3, 2)] ∧
    pairs (.periodLo2 3) State.reset = some [(4, 3)] ∧ pairs (.periodHi2 4) State.reset = some [(5, 4)] := by
  decide +kernel

/-- The other RW rows (20_memory.md R76, R77). -/
theorem test_shared_ports :
    pairs (.noise 5) State.reset = some [(6, 5)] ∧ pairs (.mixer 6) State.reset = some [(7, 6)] ∧
    pairs (.level0 7) State.reset = some [(8, 7)] ∧ pairs (.level1 8) State.reset = some [(9, 8)] ∧
    pairs (.level2 9) State.reset = some [(10, 9)] ∧ pairs (.envLo 10) State.reset = some [(11, 10)] ∧
    pairs (.envHi 11) State.reset = some [(12, 11)] ∧ pairs (.envShape 12) State.reset = some [(13, 12)] := by
  decide +kernel

/-- D2, D3, D8, D10, D14 (R263, R266, R267): the datapath. -/
theorem test_datapath :
    calculatePeriod ⟨⟨false, false⟩, tables⟩ { playing (.powerOn 0) with pitchWheel := 511 } = 3460 ∧
    calculatePeriod ⟨⟨false, false⟩, tables⟩ { playing (.powerOn 0) with pitchWheel := -100 } = 3531 ∧
    calculatePeriod ⟨⟨false, false⟩, tables⟩
      { playing (.powerOn 0) with note := 2, period := 3980, pitchWheel := -511 } = 4000 ∧
    calculateVolume ⟨⟨false, false⟩, tables⟩ (sounding 3520 80 12 0 (.powerOn 0)) = 8 ∧
    calculateVolume ⟨⟨false, false⟩, tables⟩ (sounding 3520 120 0 0 (.powerOn 0)) = 1 ∧
    calculateVolume ⟨⟨true, false⟩, tables⟩ (sounding 3520 120 0xFB 0 (.powerOn 0)) = 0 := by decide +kernel

/-! ### Witnesses: states and operands that meet the hypotheses of the obligations, at the ends of their ranges -/

theorem witness_DecodeOfEncodeIsTheInstruction : WellFormed (.play 15 NoteEvent.empty) ∧ WellFormed (.envShape 0x0F) ∧
    WellFormed (.fxUnknown 0 0xFF 0xFF) ∧ WellFormed (.sqArpScheme3 15 0x3F) := by decide

/-- The edges of each register's range: taken at the last value, refused at the next. -/
theorem witness_RegisterPortTakesTheMapOnly :
    (decode .port [0x01FF]).toOption = none ∧ decode .port [0x050F] = .ok (.periodHi2 0x0F, []) ∧
    (decode .port [0x0740]).toOption = none ∧ (decode .port [0x0620]).toOption = none ∧
    (decode .port [0x0A20]).toOption = none ∧ (decode .port [0x0D10]).toOption = none ∧
    decode .port [0x00FF] = .ok (.periodLo0 0xFF, []) ∧ (decode .port [0x0E00]).toOption = none :=
  ⟨rfl, rfl, rfl, rfl, rfl, rfl, rfl, rfl⟩

theorem witness_StepRunsTheDecodedCommand :
    decode .host ({ State.reset with inp := [0x6000, 0x3000] } : State).inp = .ok (.tick, [0x3000]) := rfl

theorem witness_StepWaitsForACommand : decode .host State.reset.inp = .error .truncated ∧
    decode .host ({ State.reset with inp := [0x2000, 0, 0, 0, 0, 0] } : State).inp = .error .truncated := ⟨rfl, rfl⟩

theorem witness_NopAndReservedChangeNothing :
    ({ State.reset with inp := [0xA000] } : State).inp = [0xA000] ∧ 0xA000 ≤ (0xA000 : Word).toNat ∧
    0xA000 ≤ (0xFFFF : Word).toNat ∧ ¬ 0xA000 ≤ (0x9FFF : Word).toNat := by decide

theorem witness_AbsentChannelDoesNothing : channelOf (.reset 3) = some 3 ∧ 3 ≤ (3 : Chan).toNat ∧
    channelOf (.sqDuty 15 0) = some 15 ∧
    decode .host ({ State.reset with inp := [0x1300] } : State).inp = .ok (.reset 3, []) := ⟨rfl, by decide, rfl, rfl⟩

/-- A state that sounds, with both bits of CFG set and the last instrument loaded. -/
def sample : State :=
  { State.reset with
    cfgReg := ⟨true, true⟩
    chans :=
      ⟨{ Channel.powerOn 0 with
          gate := true, trigger := true, period := 4095, inst := 63, instType := .native
          handler := some (newHandler .native) },
        .powerOn 1, .powerOn 2⟩ }

theorem sample_handler : HandlerInv sample.mem (some (newHandler .native)) 63 .native where
  absent h := by cases h
  typed h hh := by cases hh; exact ⟨rfl, .inl rfl⟩
  index _ _ := by decide
  slots h hh k := by cases hh; cases k <;> exact SlotInv.off _ _

/-- A state that meets the invariant: the premise of the invariant statements, of the emission of TICK and of the
register map. -/
theorem witness_EveryStepKeepsTheInvariant : StateInv sample where
  tables := reset_memory_wf
  channels i := by
    match i with
    | 0 => exact { ChannelInv.resetValues sample.mem 0 0 0 0 rfl with period := Nat.le_refl _, handler := sample_handler }
    | 1 => exact ChannelInv.resetValues _ _ _ _ _ rfl
    | 2 => exact ChannelInv.resetValues _ _ _ _ _ rfl
  mixer := by decide

theorem witness_EveryInstructionKeepsTheInvariant : WellFormed (.refresh 0) ∧ StateInv sample :=
  ⟨rfl, witness_EveryStepKeepsTheInvariant⟩

theorem witness_EveryWriteIsOnTheRegisterMap : WellFormed .tick ∧ StateInv sample :=
  ⟨rfl, witness_EveryStepKeepsTheInvariant⟩

theorem witness_TickIsItsSevenCommands : StateInv sample := witness_EveryStepKeepsTheInvariant

/-- The power-on state and `sample` differ in channel 0 and CFG; with CFG the same they agree on what REFRESH 1 reads. -/
theorem witness_ChannelsAreIsolated :
    channelOf (.refresh 1) = some (BitVec.ofNat 4 (1 : Fin 3)) ∧
    State.reset.chans.get 1 = sample.chans.get 1 ∧ State.reset.shr = sample.shr ∧
    ({ State.reset with cfgReg := ⟨true, true⟩ } : State).cfgReg = sample.cfgReg ∧ State.reset.mem = sample.mem ∧
    State.reset.chans.get 0 ≠ sample.chans.get 0 := by
  refine ⟨rfl, rfl, rfl, rfl, rfl, fun h => ?_⟩
  have : (State.reset.chans.get 0).gate = (sample.chans.get 0).gate := by rw [h]
  exact absurd this (by decide)

theorem witness_SetcfgAndSetpitchWrite : (0x9000 : Word).toNat / 4096 = 9 ∧ (0x9FFF : Word).toNat / 4096 = 9 := by decide

theorem witness_StoringEffectsWrite : (0x0F : Byte) ∈ ([0x05, 0x0A, 0x0D, 0x0E, 0x0F] : List Byte) := by decide

theorem witness_UnaimedSlotEffectsEnterAndExit : (0x07 : Byte) ∈ ([0x04, 0x06, 0x07] : List Byte) := by decide

theorem witness_AimedSlotEffectsSetTheirTarget : (0x09 : Byte) ∈ ([0x01, 0x08, 0x09] : List Byte) := by decide

/-- The parameters at which the timers are loaded and rejected. -/
theorem witness_TimerEffectsLoadOrReject : (0x7F : Byte).toNat < 128 ∧ ¬ (0x80 : Byte).toNat < 128 := by decide

/-- The ends of the ranges of unhandled kinds. -/
theorem witness_EmptyAndUnknownEffectsChangeNothing :
    (⟨0, 1⟩ : Fx).kind = 0 ∧ (0x10 ≤ (0x10 : Byte).toNat ∧ (0x10 : Byte).toNat ≤ 0x7F) ∧
    (0x10 ≤ (0x7F : Byte).toNat ∧ (0x7F : Byte).toNat ≤ 0x7F) ∧ 0x84 ≤ (0x84 : Byte).toNat := by decide

/-- Each clause: an index past the buffer, and an empty slot, a halt and a note within it. -/
theorem witness_EchoWordRecalls : 4 ≤ (4 : BitVec 3).toNat ∧ (3 : BitVec 3).toNat < 4 ∧
    (State.reset.chans.get 0).echo[(3 : BitVec 3).toNat]? = some .empty ∧
    ([.note 255, .halt, .empty, .empty] : List Echo)[(1 : BitVec 3).toNat]? = some .halt ∧
    ([.note 255, .halt, .empty, .empty] : List Echo)[(0 : BitVec 3).toNat]? = some (.note 255) := by decide

theorem witness_InstrumentAndDelayWords : (State.reset.chans.get 0).delayPending = false ∧
    ((with0 fun ch => { ch with delayPending := true }).chans.get 0).delayPending = true := by decide

theorem witness_UnloadableInstrumentIsSkipped : 64 ≤ (64 : Byte).toNat ∧ (tables.instRead 48).type = .none ∧
    (tables.instRead 12).type = .sample := by decide +kernel

theorem witness_LoadableInstrumentIsLoaded : (2 : Byte).toNat < 64 ∧ (tables.instRead 2).type = .native ∧
    (11 : Byte).toNat < 64 ∧ (tables.instRead 11).type = .foreign := by decide +kernel

theorem witness_InstrumentOperationsOnSlots : (sample.chans.get 0).handler = some (newHandler .native) := rfl

theorem witness_PlayBuffersADelayedRow : (State.reset.chans.get 0).delayPending = false ∧
    ([⟨0x10, 0⟩, ⟨0x0F, 1⟩, ⟨0x10, 255⟩, ⟨0x10, 7⟩] : List Fx) = [⟨0x10, 0⟩, ⟨0x0F, 1⟩] ++ ⟨0x10, 255⟩ :: [⟨0x10, 7⟩] ∧
    (255 : Byte) ≠ 0 ∧ ∀ f ∈ ([⟨0x10, 0⟩, ⟨0x0F, 1⟩] : List Fx), f.kind = 0x10 → f.param = 0 := by decide

theorem witness_PlayFlushesTheBufferedRow :
    ((with0 fun ch => { ch with delayPending := true, delayTimer := 255 }).chans.get 0).delayPending = true := by decide

theorem witness_EffectRowIsItsColumnsInOrder : (State.reset.chans.get 0).delayPending = false ∧
    (State.reset.chans.get 0).forceReload = false ∧ 16 ≤ (16 : BitVec 5).toNat ∧ 16 ≤ (31 : BitVec 5).toNat ∧
    ∀ f ∈ ([⟨0x0F, 1⟩, ⟨0x11, 255⟩, ⟨0x10, 0⟩, ⟨0, 0⟩] : List Fx), f.kind = 0x10 → f.param = 0 := by decide

theorem witness_NoteRowRunsItsStepsInOrder : (State.reset.chans.get 0).delayPending = false ∧
    1 ≤ (1 : BitVec 4).toNat ∧ (12 : BitVec 4).toNat ≤ 12 ∧
    ((with0 fun ch => { ch with echo := [.empty, .empty, .empty, .note 255] }).chans.get 0).echo[(3 : BitVec 3).toNat]? =
      some (.note 255) ∧
    ∀ f ∈ ([⟨0x0F, 1⟩, ⟨0x08, 0x23⟩, ⟨0x10, 0⟩, ⟨0, 0⟩] : List Fx), f.kind = 0x10 → f.param = 0 := by decide

/-- Each clause: a halt recalled from the oldest slot, an echo one past the buffer, an echo of an empty slot. -/
theorem witness_HaltReleaseAndMissedEchoRows : (State.reset.chans.get 0).delayPending = false ∧
    ((with0 fun ch => { ch with echo := [.empty, .empty, .empty, .halt] }).chans.get 0).echo[(3 : BitVec 3).toNat]? =
      some .halt ∧
    4 ≤ (4 : BitVec 3).toNat ∧ (State.reset.chans.get 0).echo[(0 : BitVec 3).toNat]? = some .empty ∧
    ∀ f ∈ ([⟨0x0F, 1⟩, ⟨0x10, 0⟩, ⟨0, 0⟩, ⟨0, 0⟩] : List Fx), f.kind = 0x10 → f.param = 0 := by decide

theorem reset_idle (i : Fin 3) : Idle (State.reset.chans.get i) := by
  match i with
  | 0 => exact ⟨rfl, rfl, rfl, rfl, rfl, rfl, rfl, rfl, rfl⟩
  | 1 => exact ⟨rfl, rfl, rfl, rfl, rfl, rfl, rfl, rfl, rfl⟩
  | 2 => exact ⟨rfl, rfl, rfl, rfl, rfl, rfl, rfl, rfl, rfl⟩

theorem witness_IdleProcessIsTheIdentity : Idle (State.reset.chans.get 2) ∧ (State.reset.chans.get 2).eff = .none :=
  ⟨reset_idle 2, rfl⟩

/-- From above the target, at the edge of the range, and from below, with the smallest speed. -/
theorem witness_PortamentoConvergesWithoutOvershoot :
    (let ch := (with0 fun ch => { ch with eff := .portamento, portaSpeed := 255, portaTo := 1, period := 4095 }).chans.get 0
     Idle ch ∧ ch.eff = .portamento ∧ 0 < ch.portaSpeed.toNat ∧ 0 < ch.portaTo ∧ ch.portaTo ≤ 4095 ∧ ch.period ≤ 4095) ∧
    (let ch := (with0 fun ch => { ch with eff := .portamento, portaSpeed := 1, portaTo := 4095, period := 0 }).chans.get 0
     Idle ch ∧ ch.eff = .portamento ∧ 0 < ch.portaSpeed.toNat ∧ 0 < ch.portaTo ∧ ch.portaTo ≤ 4095 ∧ ch.period ≤ 4095) :=
  ⟨⟨⟨rfl, rfl, rfl, rfl, rfl, rfl, rfl, rfl, rfl⟩, rfl, by decide, by decide, by decide, by decide⟩,
   ⟨⟨rfl, rfl, rfl, rfl, rfl, rfl, rfl, rfl, rfl⟩, rfl, by decide, by decide, by decide, by decide⟩⟩

theorem witness_DelayedRowPlaysAfterItsTicks :
    let ch := (with0 fun ch => { ch with delayPending := true, delayTimer := 255, delayEvent := rowN1 }).chans.get 0
    ch.delayPending = true ∧ ∀ f ∈ ch.delayEvent.fx, f.kind ≠ 0x10 := by decide

/-- The tables with an empty sequence. -/
def tablesWithEmpty : Memory := { tables with seqs := { tables.seqs with volume := [(5, ⟨0xFF, 0xFF, 0, []⟩)] } }

/-- Each clause: a slot at rest, an empty sequence, a cursor on the item count, an ended slot of either setting. -/
theorem witness_SlotsUpdateByTheirState :
    (newHandler .native).slots.volume.st = .disabled ∧ (tablesWithEmpty.seqRead .volume 5).items = [] ∧
    (tables.seqRead .volume 0).items ≠ [] ∧ (tables.seqRead .volume 0).items.length ≤ 6 ∧
    (tables.seqRead .arpeggio 1).setting = 1 ∧ (tables.seqRead .arpeggio 0).setting ≠ 1 ∧
    (({ PerKind.const Slot.off with volume := ⟨some 0, .ended, 6⟩ } : PerKind Slot).get .volume).st = .ended := by
  decide +kernel

/-- The first and the last item of a sequence. -/
theorem witness_RunningSlotRunsItsItem :
    ((with0 fun ch => { ch with handler := volumeHandler .running 5 }).chans.get 0).handler = volumeHandler .running 5 ∧
    (tables.seqRead .volume 0).items[5]? = some 4 ∧ (tables.seqRead .volume 0).items[0]? = some 15 := by decide +kernel

/-- One sequence for each clause, with the release point, the loop point or the item count at the edge. -/
theorem witness_CursorPathsByShape :
    (let q : SeqData := ⟨3, 2, 0, [1, 2, 3]⟩; q.items.length ≤ q.loop.toNat ∧ q.release.toNat + 1 = q.items.length) ∧
    (let q : SeqData := ⟨2, 3, 0, [1, 2, 3]⟩; q.loop.toNat < q.items.length ∧ q.items.length ≤ q.release.toNat) ∧
    (let q : SeqData := ⟨1, 1, 0, [1, 2, 3]⟩; q.release.toNat ≤ q.loop.toNat ∧ q.release.toNat + 1 < q.items.length) ∧
    (let q : SeqData := ⟨1, 2, 0, [1, 2, 3]⟩; q.loop.toNat < q.release.toNat ∧ q.release.toNat < q.items.length) ∧
    (let q : SeqData := ⟨3, 0, 0, [1, 2, 3]⟩; q.items.length ≤ q.loop.toNat ∧ q.release.toNat < q.items.length) ∧
    (let q : SeqData := ⟨2, 1, 0, [1, 2, 3]⟩; q.loop.toNat < q.items.length ∧ q.release.toNat ≤ q.loop.toNat ∧
      q.release.toNat + 1 < q.items.length) := by decide

theorem witness_TriggerNoteReadsTheClampedEntry :
    State.reset.env.cfgReg.linearPitch = false ∧ sample.env.cfgReg.linearPitch = true := by decide

theorem witness_CalculatedPeriodInTableMode : State.reset.env.cfgReg.linearPitch = false := by decide

theorem witness_InstalledEntriesRead : (0x0FFF : Word).toNat ≤ 4095 ∧ ¬ (0x1000 : Word).toNat ≤ 4095 ∧
    State.reset.mem.wf = true ∧ (List.replicate 252 (0 : Byte)).length ≤ 252 :=
  ⟨by decide, by decide, reset_memory_wf, by rw [List.length_replicate]⟩

theorem witness_RegisterWriteRowsAppendTheirPair : (Instr.envShape 0xFF).ctx = .port ∧ (Instr.periodLo0 0).ctx = .port := by
  decide

theorem witness_WritersOfCfgIdentityAndPort : (∀ arg, Instr.tick ≠ .setcfg arg) ∧ (Instr.process 0).ctx ≠ .port ∧
    Instr.process 0 ≠ .commit ∧ Instr.process 0 ≠ .tick ∧ (∀ c, Instr.process 0 ≠ .reset c) ∧
    ∀ c, Instr.process 0 ≠ .refresh c := by
  refine ⟨nofun, ?_, nofun, nofun, nofun, nofun⟩
  decide

end Sys2Proof.Tests
end

section
/-! What an instruction can write beside the fields of its channel: CFG and the identities stay under every instruction
but SETCFG, and the output under every one but those that write the register port. -/

namespace Sys2Proof.Machine

/-! ### The identity of a channel (10_state.md R20) -/

/-- Two channels with the same identity. -/
def SameIdentity (a b : Channel) : Prop := a.chipId = b.chipId ∧ a.chIdx = b.chIdx

theorem SameIdentity.trans {a b c : Channel} (h : SameIdentity a b) (g : SameIdentity b c) : SameIdentity a c :=
  ⟨h.1.trans g.1, h.2.trans g.2⟩

theorem Kept.identity {a b : Channel} (h : Kept a b) : SameIdentity a b := ⟨h.chipId, h.chIdx⟩

theorem handleNoteData_identity (e : Env) (ev : NoteEvent) (x : Cx) : SameIdentity (handleNoteData e ev x).ch x.ch := by
  obtain ⟨-, -, hid⟩ := handleNoteData_kept e ev x
  exact hid

theorem flushDelayed_identity (e : Env) (x : Cx) : SameIdentity (flushDelayed e x).ch x.ch := by
  unfold flushDelayed
  split
  · exact handleNoteData_identity e x.ch.delayEvent { x with ch := { x.ch with delayPending := false } }
  · exact ⟨rfl, rfl⟩

theorem playNote_identity (e : Env) (ev : NoteEvent) (x : Cx) : SameIdentity (playNote e ev x).ch x.ch := by
  refine SameIdentity.trans ?_ (flushDelayed_identity e x)
  unfold playNote
  split
  · exact ⟨rfl, rfl⟩
  · exact handleNoteData_identity e ev (flushDelayed e x)

/-! ### States with the same CFG and the same identities -/

/-- `t` has the CFG register of `s` and the identity of each of its channels. -/
structure SameSetup (s t : State) : Prop where
  cfgReg : t.cfgReg = s.cfgReg
  identity : ∀ i, SameIdentity (t.chans.get i) (s.chans.get i)

theorem SameSetup.refl (s : State) : SameSetup s s := ⟨rfl, fun _ => ⟨rfl, rfl⟩⟩

theorem SameSetup.trans {s t u : State} (h : SameSetup s t) (g : SameSetup t u) : SameSetup s u :=
  ⟨g.cfgReg.trans h.cfgReg, fun i => (g.identity i).trans (h.identity i)⟩

theorem SameSetup.emit {s t : State} (h : SameSetup s t) (ws : List RegPair) : SameSetup s (t.emit ws) :=
  ⟨h.cfgReg, h.identity⟩

theorem SameSetup.putCx (s : State) (i : Fin 3) {x : Cx} (h : SameIdentity x.ch (s.chans.get i)) :
    SameSetup s (s.putCx i x) where
  cfgReg := rfl
  identity j := by
    rw [State.putCx_chans]
    by_cases hj : j = i
    · subst hj
      rwa [Channels.get_set_self]
    · rw [Channels.get_set_ne _ _ _ _ hj]
      exact ⟨rfl, rfl⟩

theorem SameSetup.onCx (s : State) (c : Chan) {f : Env → Cx → Cx} (hf : ∀ e x, SameIdentity (f e x).ch x.ch) :
    SameSetup s (s.onCx c f) := by
  rcases s.onCx_cases c f with h | ⟨i, -, h⟩
  · rw [h]
    exact .refl s
  · rw [h]
    exact .putCx s i (hf s.env (s.cx i))

theorem SameSetup.onChannel (s : State) (c : Chan) {f : Fin 3 → State → State} (hf : ∀ i, SameSetup s (f i s)) :
    SameSetup s (s.onChannel c f) := by
  unfold State.onChannel
  split
  · exact hf _
  · exact .refl s

/-- A loop over channels keeps what its body keeps. -/
theorem SameSetup.foldl {f : State → Fin 3 → State} (hf : ∀ s i, SameSetup s (f s i)) (is : List (Fin 3)) (s : State) :
    SameSetup s (is.foldl f s) := by
  induction is generalizing s with
  | nil => exact .refl s
  | cons i is ih => exact (hf s i).trans (ih (f s i))

theorem SameSetup.resetAt (i : Fin 3) (s : State) : SameSetup s (resetAt i s) :=
  .emit (.putCx s i ⟨rfl, rfl⟩) _

theorem SameSetup.refreshChannel (i : Fin 3) (s : State) : SameSetup s (refreshChannel i s) :=
  .emit (.putCx s i ⟨rfl, rfl⟩) _

theorem SameSetup.commitShared (s : State) : SameSetup s (commitShared s) := ⟨rfl, fun _ => ⟨rfl, rfl⟩⟩

/-- TICK is loops of PROCESS and REFRESH, then COMMIT (45_chip_emission.md R345). -/
theorem SameSetup.tickAll (s : State) : SameSetup s (tickAll s) := by
  have process (s : State) (i : Fin 3) : SameSetup s (processAt s i) :=
    .putCx s i (processChannel_identity s.env (s.cx i))
  have refresh (s : State) (i : Fin 3) : SameSetup s (refreshAt s i) := .refreshChannel i s
  exact ((foldl process allChannels s).trans (foldl refresh allChannels _)).trans (.commitShared _)

/-! ### What an instruction can do -/

/-- The instructions that write the register port (20_memory.md R79): the register-write rows, COMMIT, TICK, RESET and
REFRESH. -/
inductive WritesPort : Instr → Prop
  | port {x : Instr} (h : x.ctx = .port) : WritesPort x
  | commit : WritesPort .commit
  | tick : WritesPort .tick
  | reset (c : Chan) : WritesPort (.reset c)
  | refresh (c : Chan) : WritesPort (.refresh c)

/-- The four values of a setting or a scheme (20_memory.md R75, 30_encoding.md R114). -/
theorem settings_cases (b : BitVec 2) : b = 0 ∨ b = 1 ∨ b = 2 ∨ b = 3 := by
  revert b
  decide

/-- A sequence item is one call of ProcessSequence (44_sequence_engine.md R300). -/
theorem exec_decodeSeqItem (c : Chan) (k : Kind) (setting : BitVec 2) (item : Byte) (s : State) :
    exec (decodeSeqItem c k setting item) s =
      .next (s.onCh c fun e ch => (processSequence k setting item e ch).1) := by
  cases k with
  | volume => rfl
  | hipitch => rfl
  | duty => rfl
  | pitch => obtain rfl | rfl | rfl | rfl := settings_cases setting <;> rfl
  | arpeggio =>
    obtain rfl | rfl | rfl | rfl := settings_cases setting
    · rfl
    · rfl
    · rfl
    · dsimp only [decodeSeqItem, processSequence, processArpeggio]
      generalize item.extractLsb' 6 2 = scheme
      obtain rfl | rfl | rfl | rfl := settings_cases scheme <;> rfl

/-- What an instruction does, as far as CFG, the identities and the output go: nothing; an operation on the channel it
addresses that keeps the identity; the write of CFG; or, of a writer of the port, a change of state that keeps CFG
and the identities. -/
inductive Conduct (x : Instr) : Prop
  | nothing (h : ∀ s, exec x s = .next s)
  | onCx (c : Chan) (f : Env → Cx → Cx) (hf : ∀ e y, SameIdentity (f e y).ch y.ch)
      (h : ∀ s, exec x s = .next (s.onCx c f))
  | setcfg (arg : Byte) (h : x = .setcfg arg)
  | writer (hx : WritesPort x) (f : State → State) (hf : ∀ s, SameSetup s (f s)) (h : ∀ s, exec x s = .next (f s))

/-- An instruction on the record of its channel alone. -/
theorem Conduct.onCh {x : Instr} (c : Chan) (f : Env → Channel → Channel) (hf : ∀ e ch, SameIdentity (f e ch) ch)
    (h : ∀ s, exec x s = .next (s.onCh c f)) : Conduct x :=
  .onCx c _ (fun e y => hf e y.ch) h

/-- A row with one note word is HandleNoteData. -/
theorem Conduct.noteWord {x : Instr} (n : BitVec 4) (c : Chan) (oct : BitVec 3) (volc : BitVec 5)
    (h : ∀ s, exec x s = playNoteWord n c oct volc s) : Conduct x :=
  .onCx c _ (fun e y => handleNoteData_identity e (noteRow n oct volc) y) h

/-- An effect word, but for FX_DELAY, is HandleEffect, which writes no identity (41_effects.md R190). -/
theorem Conduct.effectWord (c : Chan) (kind p : Byte) (hk : kind ≠ 0x10) : Conduct (decodeFx c ⟨kind, p⟩) :=
  .onCx c _ (fun e y => (Kept.handleEffect e y ⟨kind, p⟩).identity) fun s => exec_decodeFx c ⟨kind, p⟩ s hk

/-- A sequence item is ProcessSequence of its kind and setting, which writes no identity
(44_sequence_engine.md R280). -/
theorem Conduct.seqItem (c : Chan) (k : Kind) (setting : BitVec 2) (item : Byte) :
    Conduct (decodeSeqItem c k setting item) :=
  .onCh c _ (fun e => (Ignores.processSequence k setting item e).identity) fun s =>
    exec_decodeSeqItem c k setting item s

/-- An arpeggio item under the setting Scheme, put together from its scheme and its limit (30_encoding.md R114). -/
theorem Conduct.schemeItem {x : Instr} (c : Chan) (scheme : BitVec 2) (limit : BitVec 6)
    (h : decodeSeqItem c .arpeggio 3 (schemeItem scheme limit) = x) : Conduct x :=
  h ▸ .seqItem c .arpeggio 3 (Sys2Proof.schemeItem scheme limit)

/-- A register-write row appends one pair to the output (20_memory.md R76). -/
theorem Conduct.port {x : Instr} (addr v : Byte) (hx : x.ctx = .port)
    (h : ∀ s, exec x s = .next (s.emit [(addr, v)])) : Conduct x :=
  .writer (.port hx) _ (fun s => (SameSetup.refl s).emit [(addr, v)]) h

/-! ### Every instruction -/

/-- The conduct of each row of the opcode table. -/
theorem exec_conduct (x : Instr) : Conduct x :=
  match x with
  | .nop => .nothing fun _ => rfl
  | .reset c => .writer (.reset c) (·.onChannel c resetAt) (.onChannel · c (.resetAt · _)) fun _ => rfl
  | .play c ev => .onCx c _ (playNote_identity · ev ·) fun _ => rfl
  | .process c => .onCx c processChannel processChannel_identity fun _ => rfl
  | .refresh c =>
    .writer (.refresh c) (·.onChannel c refreshChannel) (.onChannel · c (.refreshChannel · _)) fun _ => rfl
  | .commit => .writer .commit commitShared .commitShared fun _ => rfl
  | .tick => .writer .tick tickAll .tickAll fun _ => rfl
  | .forcereload c => .onCh c (fun _ ch => { ch with forceReload := true }) (fun _ _ => ⟨rfl, rfl⟩) fun _ => rfl
  | .setpitch c w =>
    .onCh c (fun _ ch => { ch with pitchWheel := wheelOperand w }) (fun _ _ => ⟨rfl, rfl⟩) fun _ => rfl
  | .setcfg arg => .setcfg arg rfl
  | .reservedA => .nothing fun _ => rfl
  | .reservedB => .nothing fun _ => rfl
  | .reservedC => .nothing fun _ => rfl
  | .reservedD => .nothing fun _ => rfl
  | .reservedE => .nothing fun _ => rfl
  | .reservedF => .nothing fun _ => rfl
  | .nNone c oct volc => .noteWord 0 c oct volc fun _ => rfl
  | .nC c oct volc => .noteWord 1 c oct volc fun _ => rfl
  | .nCs c oct volc => .noteWord 2 c oct volc fun _ => rfl
  | .nD c oct volc => .noteWord 3 c oct volc fun _ => rfl
  | .nDs c oct volc => .noteWord 4 c oct volc fun _ => rfl
  | .nE c oct volc => .noteWord 5 c oct volc fun _ => rfl
  | .nF c oct volc => .noteWord 6 c oct volc fun _ => rfl
  | .nFs c oct volc => .noteWord 7 c oct volc fun _ => rfl
  | .nG c oct volc => .noteWord 8 c oct volc fun _ => rfl
  | .nGs c oct volc => .noteWord 9 c oct volc fun _ => rfl
  | .nA c oct volc => .noteWord 10 c oct volc fun _ => rfl
  | .nAs c oct volc => .noteWord 11 c oct volc fun _ => rfl
  | .nB c oct volc => .noteWord 12 c oct volc fun _ => rfl
  | .nHalt c oct volc => .noteWord 13 c oct volc fun _ => rfl
  | .nRelease c oct volc => .noteWord 14 c oct volc fun _ => rfl
  | .nEcho c oct volc => .noteWord 15 c oct volc fun _ => rfl
  | .neW1 c inst => .onCx c _ (handleNoteData_identity · (instRow inst) ·) fun _ => rfl
  | .fxNone c p => .effectWord c 0x00 p (by decide)
  | .fxPortamento c p => .effectWord c 0x01 p (by decide)
  | .fxVibrato c p => .effectWord c 0x02 p (by decide)
  | .fxTremolo c p => .effectWord c 0x03 p (by decide)
  | .fxArpeggio c p => .effectWord c 0x04 p (by decide)
  | .fxFinePitch c p => .effectWord c 0x05 p (by decide)
  | .fxPortaUp c p => .effectWord c 0x06 p (by decide)
  | .fxPortaDown c p => .effectWord c 0x07 p (by decide)
  | .fxSlideUp c p => .effectWord c 0x08 p (by decide)
  | .fxSlideDown c p => .effectWord c 0x09 p (by decide)
  | .fxVolSlide c p => .effectWord c 0x0A p (by decide)
  | .fxNoteCut c p => .effectWord c 0x0B p (by decide)
  | .fxNoteRelease c p => .effectWord c 0x0C p (by decide)
  | .fxDelayedVol c p => .effectWord c 0x0D p (by decide)
  | .fxTranspose c p => .effectWord c 0x0E p (by decide)
  | .fxDuty c p => .effectWord c 0x0F p (by decide)
  | .fxDelay c p => .onCx c _ (playNote_identity · (effectRow ⟨0x10, p⟩) ·) fun _ => rfl
  | .fxEnvLo c p => .effectWord c 0x80 p (by decide)
  | .fxEnvHi c p => .effectWord c 0x81 p (by decide)
  | .fxEnvShape c p => .effectWord c 0x82 p (by decide)
  | .fxNoise c p => .effectWord c 0x83 p (by decide)
  | .fxUnknown c _ _ => .nothing fun s => congrArg _ (s.onCh_id c)
  | .sqVolume c item => .seqItem c .volume 0 item
  | .sqArpAbsolute c item => .seqItem c .arpeggio 0 item
  | .sqArpFixed c item => .seqItem c .arpeggio 1 item
  | .sqArpRelative c item => .seqItem c .arpeggio 2 item
  | .sqArpScheme0 c limit => .schemeItem c 0 limit (by simp [decodeSeqItem])
  | .sqArpScheme1 c limit => .schemeItem c 1 limit (by simp [decodeSeqItem])
  | .sqArpScheme2 c limit => .schemeItem c 2 limit (by simp [decodeSeqItem])
  | .sqArpScheme3 c limit => .schemeItem c 3 limit (by simp [decodeSeqItem])
  | .sqPitchRelative c item => .seqItem c .pitch 0 item
  | .sqPitchAbsolute c item => .seqItem c .pitch 1 item
  | .sqPitchReserved c item => .seqItem c .pitch 2 item
  | .sqHipitch c item => .seqItem c .hipitch 0 item
  | .sqDuty c item => .seqItem c .duty 0 item
  | .periodLo0 v => .port 0x00 v rfl fun _ => rfl
  | .periodHi0 v => .port 0x01 v rfl fun _ => rfl
  | .periodLo1 v => .port 0x02 v rfl fun _ => rfl
  | .periodHi1 v => .port 0x03 v rfl fun _ => rfl
  | .periodLo2 v => .port 0x04 v rfl fun _ => rfl
  | .periodHi2 v => .port 0x05 v rfl fun _ => rfl
  | .noise v => .port 0x06 v rfl fun _ => rfl
  | .mixer v => .port 0x07 v rfl fun _ => rfl
  | .level0 v => .port 0x08 v rfl fun _ => rfl
  | .level1 v => .port 0x09 v rfl fun _ => rfl
  | .level2 v => .port 0x0A v rfl fun _ => rfl
  | .envLo v => .port 0x0B v rfl fun _ => rfl
  | .envHi v => .port 0x0C v rfl fun _ => rfl
  | .envShape v => .port 0x0D v rfl fun _ => rfl

/-- Settles O21: by the conduct of the instruction. Only SETCFG writes CFG, no conduct writes an identity, and only a
writer of the port changes the output. -/
theorem writersOfCfgIdentityAndPort : Obligations.WritersOfCfgIdentityAndPort := by
  intro x s
  cases exec_conduct x with
  | nothing h => exact ⟨s, h s, fun _ => rfl, fun _ => ⟨rfl, rfl⟩, fun _ _ _ _ _ => rfl⟩
  | onCx c f hf h =>
    have hs := SameSetup.onCx s c hf
    exact ⟨s.onCx c f, h s, fun _ => hs.cfgReg, hs.identity, fun _ _ _ _ _ => s.onCx_out c f⟩
  | setcfg arg h =>
    subst h
    exact ⟨_, rfl, fun hx => absurd rfl (hx arg), fun _ => ⟨rfl, rfl⟩, fun _ _ _ _ _ => rfl⟩
  | writer hx f hf h =>
    refine ⟨f s, h s, fun _ => (hf s).cfgReg, (hf s).identity, fun hport hcommit htick hreset hrefresh => ?_⟩
    cases hx with
    | port hp => exact absurd hp hport
    | commit => exact absurd rfl hcommit
    | tick => exact absurd rfl htick
    | reset c => exact absurd rfl (hreset c)
    | refresh c => exact absurd rfl (hrefresh c)

end Sys2Proof.Machine
end

section
/-! Channels are isolated (20_memory.md R91): an instruction on a channel of the chip is a function of that channel,
the shared resource, CFG and the tables. -/

namespace Sys2Proof.Machine

@[simp] theorem State.emit_nil (s : State) : s.emit [] = s := by
  simp only [State.emit, List.append_nil]

/-- What `x` does is a function of channel `i`, the shared resource, CFG and the tables: it replaces that channel and
the shared resource and appends pairs. -/
def LocalTo (i : Fin 3) (x : Instr) : Prop :=
  ∃ f : Env → Cx → Cx × List RegPair,
    ∀ s, exec x s = .next ((s.putCx i (f s.env (s.cx i)).1).emit (f s.env (s.cx i)).2)

/-- An operation on the channel and the shared resource that emits nothing. -/
theorem LocalTo.onCx {i : Fin 3} {x : Instr} (f : Env → Cx → Cx)
    (h : ∀ s, exec x s = .next (s.onCx (BitVec.ofNat 4 i) f)) : LocalTo i x := by
  refine ⟨fun e y => (f e y, []), fun s => ?_⟩
  rw [h, State.onCx_number, State.emit_nil]

/-- RESET writes the reset values, silences the channel in the mixer and emits three pairs (40_row_commands.md R140). -/
theorem LocalTo.reset (i : Fin 3) : LocalTo i (.reset (BitVec.ofNat 4 i)) :=
  ⟨fun _ y => (⟨resetChannel y.ch, y.shr.putMixer i true true⟩, resetPairs i), fun s =>
    congrArg Host.Outcome.next (s.onChannel_number i resetAt)⟩

/-- REFRESH consumes the trigger, notes the channel in the shared resource and emits three pairs
(45_chip_emission.md R333). -/
theorem LocalTo.refresh (i : Fin 3) : LocalTo i (.refresh (BitVec.ofNat 4 i)) :=
  ⟨fun e y => (⟨y.ch.consumeTrigger, refreshShared i y.ch y.shr⟩, refreshPairs e y.ch), fun s =>
    congrArg Host.Outcome.next (s.onChannel_number i refreshChannel)⟩

/-- Every instruction addressed to a channel is local to it: RESET and REFRESH emit, every other row is an operation on
the channel and the shared resource. -/
theorem localTo_of_channelOf {i : Fin 3} {x : Instr} (h : channelOf x = some (BitVec.ofNat 4 i)) : LocalTo i x := by
  cases x
  all_goals cases h
  case reset => exact .reset i
  case refresh => exact .refresh i
  all_goals exact .onCx _ fun _ => rfl

/-- Settles O20: what the instruction does is a function of what the two states agree on. -/
theorem channelsAreIsolated : Obligations.ChannelsAreIsolated := by
  intro x i s s' hx hch hshr hcfg hmem
  obtain ⟨f, hf⟩ := localTo_of_channelOf hx
  have hcx : s'.cx i = s.cx i := by simp only [State.cx, hch, hshr]
  have henv : s'.env = s.env := by simp only [State.env, hcfg, hmem]
  refine ⟨_, _, _, hf s, ?_⟩
  rw [hf s', hcx, henv]
  rfl

end Sys2Proof.Machine
end

section
/-! The register port: which pairs it takes (20_memory.md R77), and the pair each register-write row appends
(30_encoding.md R112). -/

namespace Sys2Proof.Machine

/-! ### The pairs the port takes -/

/-- A register word decodes to the row of its address, if its value leaves that register's unused bits zero. -/
theorem decode_port_eq_ok {w : Word} {ws : List Word} {i : Instr} :
    decode .port (w :: ws) = .ok (i, ws) ↔ registerWrite (hiByte w) (loByte w) = .ok i ∧ i.wf = true := by
  simp only [decode, decodePort]
  cases registerWrite (hiByte w) (loByte w) with
  | error e => simp
  | ok j =>
    by_cases hj : j.wf = true
    · simp only [hj, if_true, Except.ok.injEq, Prod.mk.injEq, and_true]
      exact ⟨fun h => ⟨h, h ▸ hj⟩, fun h => h.1⟩
    · simp only [hj, reduceCtorEq, if_false, Except.ok.injEq, false_iff]
      rintro ⟨rfl, h⟩
      exact hj h

/-- One more than the largest value that leaves the unused bits of the register at address `a` zero
(20_memory.md R77). -/
def valueLimit (a : Nat) : Nat :=
  match a with
  | 0x1 => 16
  | 0x3 => 16
  | 0x5 => 16
  | 0x6 => 32
  | 0x7 => 64
  | 0x8 => 32
  | 0x9 => 32
  | 0xA => 32
  | 0xD => 16
  | _ => 256

/-- A row whose value is bounded by its register's limit, at an address of the map. -/
theorem row_wf_iff {x : Instr} {a limit : Nat} {v : Byte} (ha : a ≤ 0x0D) (hx : x.wf = decide (v.toNat < limit)) :
    (∃ i, (.ok x : Except DecodeError Instr) = .ok i ∧ i.wf = true) ↔ a ≤ 0x0D ∧ v.toNat < limit := by
  simp [ha, hx]

/-- A pair names a well-formed row exactly when its address is on the map and its value is below the register's limit:
five registers take the whole byte, nine leave bits unused. -/
theorem registerWrite_wf_iff (a v : Byte) :
    (∃ i, registerWrite a v = .ok i ∧ i.wf = true) ↔ a.toNat ≤ 0x0D ∧ v.toNat < valueLimit a.toNat := by
  have hv : true = decide (v.toNat < 256) := (decide_eq_true v.isLt).symm
  unfold registerWrite
  generalize a.toNat = n
  match n with
  | 0x0 | 0x2 | 0x4 | 0xB | 0xC => exact row_wf_iff (by decide) hv
  | 0x1 | 0x3 | 0x5 | 0x6 | 0x7 | 0x8 | 0x9 | 0xA | 0xD => exact row_wf_iff (by decide) rfl
  | n + 0xE => simp

/-- Settles O6: by the row each address names. -/
theorem registerPortTakesTheMapOnly : Obligations.RegisterPortTakesTheMapOnly := by
  intro w ws
  have hhi : (hiByte w).toNat = w.toNat / 256 := by
    have := w.isLt
    rw [hiByte_eq, BitVec.toNat_ofNat]
    omega
  have hlo : (loByte w).toNat = w.toNat % 256 := by
    rw [loByte_eq, BitVec.toNat_ofNat]
    omega
  have key := registerWrite_wf_iff (hiByte w) (loByte w)
  rw [hhi, hlo] at key
  simp only [decode_port_eq_ok]
  exact key

/-! ### The register-write rows -/

/-- A register-write row encodes the pair that names it, and appends that pair. -/
theorem port_row {x : Instr} (h : x.ctx = .port) :
    ∃ a v : Byte, encode x = [bytePair a v] ∧ registerWrite a v = .ok x ∧
      ∀ s, exec x s = .next (s.emit [(a, v)]) := by
  cases x
  all_goals cases h
  all_goals exact ⟨_, _, rfl, rfl, fun _ => rfl⟩

/-- Settles O60: by the pair of each row. -/
theorem registerWriteRowsAppendTheirPair : Obligations.RegisterWriteRowsAppendTheirPair := by
  intro x s hx
  obtain ⟨a, v, henc, -, hexec⟩ := port_row hx
  exact ⟨a, v, henc, hexec s⟩

end Sys2Proof.Machine
end

section
/-! The command port and the items of a sequence: what a step runs (20_memory.md R90), and how an item's byte is read
(20_memory.md R75). -/

namespace Sys2Proof.Machine

/-- Settles O8: the step matches on what the port decodes to. -/
theorem stepRunsTheDecodedCommand : Obligations.StepRunsTheDecodedCommand := by
  intro s i rest h
  rw [step, h]

/-- A byte widened to a word is the item's word. -/
theorem setWidth_eq_itemWord (item : Byte) : item.setWidth 16 = itemWord item := by
  apply BitVec.eq_of_toNat_eq
  rw [itemWord, byteAppend_toNat, BitVec.toNat_setWidth_of_le (by decide)]
  simp

/-- A scheme item's selector, bits 7:6 (30_encoding.md R114). -/
theorem scheme_toNat (item : Byte) : (item.extractLsb' 6 2).toNat = item.toNat / 64 := by
  have := item.isLt
  simp only [BitVec.extractLsb'_toNat, Nat.shiftRight_eq_div_pow]
  omega

/-- A scheme item's limit, bits 5:0 (30_encoding.md R114). -/
theorem limit_eq (item : Byte) : item.extractLsb' 0 6 = BitVec.ofNat 6 (item.toNat % 64) := by
  apply BitVec.eq_of_toNat_eq
  simp [BitVec.extractLsb'_toNat]

/-- An item's word is read by its kind and its sequence's setting. -/
theorem decode_itemWord (c : Chan) (k : Kind) (setting : BitVec 2) (item : Byte) (ws : List Word) :
    decode (.seqItem c k setting) (itemWord item :: ws) = .ok (decodeSeqItem c k setting item, ws) := by
  simp only [decode, hiByte_itemWord, loByte_itemWord, if_true]

/-- Settles O5: by the kind, then the setting of an arpeggio or a pitch, then the selector of a scheme item. -/
theorem sequenceItemsDecodeByKindAndSetting : Obligations.SequenceItemsDecodeByKindAndSetting := by
  intro c k setting item limit
  rw [setWidth_eq_itemWord, decode_itemWord]
  cases k with
  | volume => rfl
  | hipitch => rfl
  | duty => rfl
  | pitch => obtain rfl | rfl | rfl | rfl := settings_cases setting <;> rfl
  | arpeggio =>
    obtain rfl | rfl | rfl | rfl := settings_cases setting
    · rfl
    · rfl
    · rfl
    · dsimp only [decodeSeqItem]
      rw [← scheme_toNat, limit_eq]
      generalize item.extractLsb' 6 2 = scheme
      obtain rfl | rfl | rfl | rfl := settings_cases scheme <;> rfl

end Sys2Proof.Machine
end

section
/-! Installed entries: what each table reads after an install (20_memory.md R79, R95). -/

namespace Sys2Proof.Machine

/-- Reading an instrument after an entry was installed. -/
theorem instRead_installInst (m : Memory) (i : BitVec 6) (j : Byte) (en : InstEntry) :
    (m.installInst i en).instRead j = if j.toNat = i.toNat then en else m.instRead j :=
  tableGet_put launchInst m.insts i.toNat j.toNat en

/-- Reading a sequence after one was installed. -/
theorem seqRead_installSeq (m : Memory) (k k' : Kind) (b j : BitVec 7) (q : SeqData) :
    (m.installSeq k b q).seqRead k' j = if k' = k ∧ j = b then q else m.seqRead k' j := by
  unfold Memory.seqRead Memory.installSeq
  by_cases hk : k' = k
  · subst hk
    simp only [PerKind.get_set_self, tableGet_put, BitVec.toNat_inj, true_and]
  · simp only [PerKind.get_set_ne _ _ _ _ hk, hk, false_and, if_false]

/-- Settles O53: by what a read gives after a put, in the table written; the others are not touched. -/
theorem installedEntriesRead : Obligations.InstalledEntriesRead := by
  refine ⟨fun m n v hv hm => ?note, fun m i en hm => ?inst, fun m k b q hq hm => ?seq⟩
  case note =>
    exact ⟨installNote_wf hm n (decide_eq_true hv), fun j => noteTable_installNote m n j v, fun _ => rfl,
      fun _ _ => rfl⟩
  case inst =>
    exact ⟨installInst_wf hm i en, fun j => instRead_installInst m i j en, fun _ => rfl, fun _ _ => rfl⟩
  case seq =>
    exact ⟨installSeq_wf hm k b (decide_eq_true hq), fun k' j => seqRead_installSeq m k k' b j q, fun _ => rfl,
      fun _ => rfl⟩

end Sys2Proof.Machine
end

section
/-! Every pair put on the port is on the register map (20_memory.md R77): the pairs of RESET, REFRESH and COMMIT, the
loops of TICK, and the register-write rows. -/

namespace Sys2Proof.Machine

/-! ### Pairs of the map -/

/-- The port takes the pair. -/
def OnMap (p : RegPair) : Prop := ∃ i, decode .port [p.1 ++ p.2] = .ok (i, [])

/-- A pair that names a well-formed register-write row is on the map. -/
theorem OnMap.of_row {a v : Byte} {x : Instr} (h : registerWrite a v = .ok x) (hx : x.wf = true) : OnMap (a, v) := by
  refine ⟨x, decode_port_eq_ok.mpr ⟨?_, hx⟩⟩
  change registerWrite (hiByte (bytePair a v)) (loByte (bytePair a v)) = .ok x
  rwa [hiByte_bytePair, loByte_bytePair]

theorem periodLoReg_onMap (i : Fin 3) (v : Byte) : OnMap (periodLoReg i, v) :=
  match i with
  | 0 => .of_row (x := .periodLo0 v) rfl rfl
  | 1 => .of_row (x := .periodLo1 v) rfl rfl
  | 2 => .of_row (x := .periodLo2 v) rfl rfl

theorem periodHiReg_onMap (i : Fin 3) {v : Byte} (h : fitsLow 4 v = true) : OnMap (periodHiReg i, v) :=
  match i with
  | 0 => .of_row (x := .periodHi0 v) rfl h
  | 1 => .of_row (x := .periodHi1 v) rfl h
  | 2 => .of_row (x := .periodHi2 v) rfl h

theorem levelReg_onMap (i : Fin 3) {v : Byte} (h : fitsLow 5 v = true) : OnMap (levelReg i, v) :=
  match i with
  | 0 => .of_row (x := .level0 v) rfl h
  | 1 => .of_row (x := .level1 v) rfl h
  | 2 => .of_row (x := .level2 v) rfl h

/-- A value of at most `n` bits, widened to a byte, leaves the bits above them zero. -/
theorem fitsLow_setWidth {n : Nat} (b : BitVec n) : fitsLow n (b.setWidth 8) = true := by
  have h : (b.setWidth 8).toNat ≤ b.toNat := by
    rw [BitVec.toNat_setWidth]
    exact Nat.mod_le _ _
  exact decide_eq_true (Nat.lt_of_le_of_lt h b.isLt)

/-- PERIOD_HI gets bits 11:8 of the period only (45_chip_emission.md R333). -/
theorem fitsLow_periodHigh (p : Nat) : fitsLow 4 (periodHigh p) = true := by
  simp only [fitsLow, periodHigh, BitVec.toNat_ofNat, decide_eq_true_eq]
  omega

/-- The level byte has the envelope mode in bit 4 and the volume below it (45_chip_emission.md R335). -/
theorem fitsLow_levelByte (env : Bool) {v : Nat} (h : v ≤ 15) : fitsLow 5 (levelByte env v) = true := by
  rw [levelByte_eq env h]
  simp only [fitsLow, BitVec.toNat_ofNat, decide_eq_true_eq]
  split <;> omega

/-! ### The pairs of RESET, REFRESH and COMMIT -/

theorem resetPairs_onMap (i : Fin 3) : ∀ p ∈ resetPairs i, OnMap p := by
  simp only [resetPairs, List.forall_mem_cons]
  exact ⟨periodLoReg_onMap i 0, periodHiReg_onMap i rfl, levelReg_onMap i rfl, nofun⟩

theorem refreshPairs_onMap (e : Env) {ch : Channel} (i : Fin 3) (h : ch.chIdx.toNat = i) :
    ∀ p ∈ refreshPairs e ch, OnMap p := by
  simp only [refreshPairs, h, List.forall_mem_cons]
  exact ⟨periodLoReg_onMap i _, periodHiReg_onMap i (fitsLow_periodHigh _),
    levelReg_onMap i (fitsLow_levelByte _ (calculateVolume_le e ch)), nofun⟩

theorem commitPairs_onMap {g : Shared} (h : g.mixer.toNat < 64) : ∀ p ∈ commitPairs g, OnMap p := by
  have shape : ∀ p ∈ if g.triggered then [(envShapeReg, g.envShape.setWidth 8)] else [], OnMap p := by
    split
    · exact List.forall_mem_singleton.mpr (.of_row (x := .envShape _) rfl (fitsLow_setWidth _))
    · exact nofun
  simp only [commitPairs, List.forall_mem_append, List.forall_mem_cons]
  exact ⟨⟨.of_row (x := .noise _) rfl (fitsLow_setWidth _), .of_row (x := .mixer _) rfl (decide_eq_true h),
    .of_row (x := .envLo _) rfl rfl, .of_row (x := .envHi _) rfl rfl, nofun⟩, shape⟩

/-! ### The invariant under PROCESS and REFRESH -/

/-- Putting back a channel that meets its invariant, with the mixer's bits 7:6 zero, keeps the invariant. -/
theorem StateInv.putCx {s : State} (h : StateInv s) {i : Fin 3} {x : Cx} (hc : ChannelInv s.mem i x.ch)
    (hm : x.shr.mixer.toNat < 64) : StateInv (s.putCx i x) where
  tables := h.tables
  channels j := by
    rw [State.putCx_chans, State.putCx_mem]
    by_cases hj : j = i
    · subst hj
      rwa [Channels.get_set_self]
    · rw [Channels.get_set_ne _ _ _ _ hj]
      exact h.channels j
  mixer := hm

theorem StateInv.emit {s : State} (h : StateInv s) (ws : List RegPair) : StateInv (s.emit ws) where
  tables := h.tables
  channels := h.channels
  mixer := h.mixer

theorem StateInv.processAt {s : State} (h : StateInv s) (i : Fin 3) : StateInv (processAt s i) := by
  obtain ⟨hc, hm⟩ := ChannelInv.processChannel (e := s.env) (x := s.cx i) h.tables (h.channels i)
  exact h.putCx hc (hm ▸ h.mixer)

/-- REFRESH writes the two mixer bits of its channel, and no bit above them (45_chip_emission.md R339). -/
theorem refreshShared_mixer_lt (i : Fin 3) (ch : Channel) {g : Shared} (h : g.mixer.toNat < 64) :
    (refreshShared i ch g).mixer.toNat < 64 := by
  simp only [refreshShared, Shared.noteEnvelope_mixer]
  split
  · exact putMixer_lt g i _ _ h
  · exact putMixer_lt g i _ _ h

theorem StateInv.refreshChannel {s : State} (h : StateInv s) (i : Fin 3) : StateInv (refreshChannel i s) :=
  .emit (h.putCx { h.channels i with } (refreshShared_mixer_lt i _ h.mixer)) _

/-! ### Outputs that grow by pairs of the map -/

/-- `t` has the output of `s` and after it pairs of the map. -/
def EmitsOnMap (s t : State) : Prop := ∃ ws, t.out = s.out ++ ws ∧ ∀ p ∈ ws, OnMap p

theorem EmitsOnMap.of_out_eq {s t : State} (h : t.out = s.out) : EmitsOnMap s t :=
  ⟨[], by rw [h, List.append_nil], nofun⟩

theorem EmitsOnMap.trans {s t u : State} (h : EmitsOnMap s t) (g : EmitsOnMap t u) : EmitsOnMap s u := by
  obtain ⟨ws, hs, hws⟩ := h
  obtain ⟨vs, ht, hvs⟩ := g
  exact ⟨ws ++ vs, by rw [ht, hs, List.append_assoc], List.forall_mem_append.mpr ⟨hws, hvs⟩⟩

theorem EmitsOnMap.onChannel {s : State} (c : Chan) {f : Fin 3 → State → State} (hf : ∀ i, EmitsOnMap s (f i s)) :
    EmitsOnMap s (s.onChannel c f) := by
  unfold State.onChannel
  split
  · exact hf _
  · exact .of_out_eq rfl

/-- A loop over channels whose body keeps the invariant and emits pairs of the map. -/
theorem EmitsOnMap.foldl {f : State → Fin 3 → State}
    (hf : ∀ s i, StateInv s → StateInv (f s i) ∧ EmitsOnMap s (f s i)) (is : List (Fin 3)) {s : State}
    (h : StateInv s) : StateInv (is.foldl f s) ∧ EmitsOnMap s (is.foldl f s) := by
  induction is generalizing s with
  | nil => exact ⟨h, .of_out_eq rfl⟩
  | cons i is ih =>
    obtain ⟨hinv, hemits⟩ := hf s i h
    obtain ⟨hinv', hemits'⟩ := ih hinv
    exact ⟨hinv', hemits.trans hemits'⟩

theorem EmitsOnMap.resetAt (s : State) (i : Fin 3) : EmitsOnMap s (resetAt i s) := ⟨_, rfl, resetPairs_onMap i⟩

theorem EmitsOnMap.refreshChannel {s : State} (h : StateInv s) (i : Fin 3) : EmitsOnMap s (refreshChannel i s) :=
  ⟨_, rfl, refreshPairs_onMap s.env i (h.channels i).identity⟩

theorem EmitsOnMap.commitShared {s : State} (h : StateInv s) : EmitsOnMap s (commitShared s) :=
  ⟨_, rfl, commitPairs_onMap h.mixer⟩

/-- TICK is loops of PROCESS, which emits nothing, and REFRESH, then COMMIT (45_chip_emission.md R345). -/
theorem EmitsOnMap.tickAll {s : State} (h : StateInv s) : EmitsOnMap s (tickAll s) := by
  obtain ⟨hprocessed, hprocess⟩ :=
    foldl (f := processAt) (fun _ i h => ⟨h.processAt i, .of_out_eq rfl⟩) allChannels h
  obtain ⟨hrefreshed, hrefresh⟩ :=
    foldl (f := refreshAt) (fun _ i h => ⟨h.refreshChannel i, .refreshChannel h i⟩) allChannels hprocessed
  exact (hprocess.trans hrefresh).trans (.commitShared hrefreshed)

/-- What a well-formed instruction appends to the output, by its conduct: only the writers of the port append anything,
and each appends pairs of the map. -/
theorem exec_emitsOnMap {x : Instr} {s : State} (hx : WellFormed x) (hs : StateInv s) :
    ∃ t, exec x s = .next t ∧ EmitsOnMap s t := by
  cases exec_conduct x with
  | nothing h => exact ⟨s, h s, .of_out_eq rfl⟩
  | onCx c f _ h => exact ⟨_, h s, .of_out_eq (s.onCx_out c f)⟩
  | setcfg arg h =>
    subst h
    exact ⟨_, rfl, .of_out_eq rfl⟩
  | writer hw _ _ _ =>
    cases hw with
    | port hp =>
      obtain ⟨a, v, -, hrow, hexec⟩ := port_row hp
      exact ⟨_, hexec s, [(a, v)], rfl, List.forall_mem_singleton.mpr (.of_row hrow hx)⟩
    | commit => exact ⟨_, rfl, .commitShared hs⟩
    | tick => exact ⟨_, rfl, .tickAll hs⟩
    | reset c => exact ⟨_, rfl, .onChannel c fun i => .resetAt s i⟩
    | refresh c => exact ⟨_, rfl, .onChannel c fun i => .refreshChannel hs i⟩

/-- Settles O59: by what a well-formed instruction appends from a state with the invariant. -/
theorem everyWriteIsOnTheRegisterMap : Obligations.EveryWriteIsOnTheRegisterMap := by
  intro x s hx hs
  obtain ⟨t, hexec, ws, hout, hmap⟩ := exec_emitsOnMap hx hs
  exact ⟨t, ws, hexec, hout, hmap⟩

end Sys2Proof.Machine
end

section
/-! How the decoder reads any word of the command port, of an effect column and of a note record (30_encoding.md R100 to
R111, R122, R125). -/

namespace Sys2Proof.Machine

theorem hiByte_toNat (w : Word) : (hiByte w).toNat = w.toNat / 256 := by
  have := w.isLt
  rw [hiByte_eq, BitVec.toNat_ofNat]
  omega

theorem noteField_toNat (w : Word) : (noteField w).toNat = w.toNat % 16 := by
  rw [noteField_eq, BitVec.toNat_ofNat]
  omega

/-- The fields of a record, by arithmetic on its words (30_encoding.md R103, R104). -/
theorem eventOfWords_eq (w0 w1 : Word) (columns : List Word) :
    eventOfWords w0 w1 columns =
      { note := BitVec.ofNat 4 (w0.toNat % 16)
        oct := BitVec.ofNat 3 (w0.toNat / 16 % 8)
        volc := BitVec.ofNat 5 (w0.toNat / 256 % 32)
        inst := BitVec.ofNat 8 (w1.toNat % 256)
        fx := columns.map fun f => ⟨BitVec.ofNat 8 (f.toNat / 256), BitVec.ofNat 8 (f.toNat % 256)⟩ } := by
  have hfx (f : Word) : fxOfWord f = ⟨BitVec.ofNat 8 (f.toNat / 256), BitVec.ofNat 8 (f.toNat % 256)⟩ := by
    rw [fxOfWord, hiByte_eq, loByte_eq]
  rw [eventOfWords, noteField_eq, octField_eq, volcField_eq, loByte_eq, funext hfx]

/-- Settles O2: by the opcode; PLAY and SETPITCH then by whether the words they take are there. -/
theorem hostCommandsDecodeByOpcode : Obligations.HostCommandsDecodeByOpcode := by
  intro w ws c
  dsimp only [decode, decodeHost]
  rw [opField_toNat, chField_eq, loByte_eq]
  generalize w.toNat / 4096 = op
  match op with
  | 2 =>
    match ws with
    | w0 :: w1 :: f0 :: f1 :: f2 :: f3 :: rest =>
      exact congrArg (fun ev => Except.ok (Instr.play c ev, rest)) (eventOfWords_eq w0 w1 [f0, f1, f2, f3])
    | [] | [_] | [_, _] | [_, _, _] | [_, _, _, _] | [_, _, _, _, _] => rfl
  | 8 => cases ws <;> rfl
  | 0 | 1 | 3 | 4 | 5 | 6 | 7 | 9 | 10 | 11 | 12 | 13 | 14 | _ + 15 => rfl

/-- Settles O3: by the kind, one of the twenty-one of the tables or none of them. -/
theorem effectWordsDecodeByKind : Obligations.EffectWordsDecodeByKind := by
  intro c w ws
  dsimp only [decode, decodeFx, fxOfWord]
  rw [hiByte_toNat, hiByte_eq, loByte_eq]
  generalize w.toNat / 256 = kind
  split <;> simp only [*]

/-- Settles O4: by the note code. -/
theorem noteWordsDecodeByCode : Obligations.NoteWordsDecodeByCode := by
  intro c w ws
  have hlt : w.toNat % 16 < 16 := Nat.mod_lt _ (by decide)
  dsimp only [decode, decodeNoteWord]
  rw [noteField_toNat, octField_eq, volcField_eq]
  generalize w.toNat % 16 = code at hlt ⊢
  match code with
  | 0 | 1 | 2 | 3 | 4 | 5 | 6 | 7 | 8 | 9 | 10 | 11 | 12 | 13 | 14 | 15 => rfl
  | _ + 16 => omega

/-- Settles O7: the decoder is run on each of the words. -/
theorem wordsWrittenOutDecode : Obligations.WordsWrittenOutDecode :=
  ⟨rfl, rfl, rfl, rfl, rfl, rfl, rfl, rfl, rfl, rfl, rfl, rfl⟩

end Sys2Proof.Machine
end

section
/-! The words the encoder writes are read back as their instruction: the rows of each format in turn (30_encoding.md
R100 to R115). -/

namespace Sys2Proof.Machine

/-! ### Host commands -/

/-- A record is read back from the words it is written as. -/
theorem eventOfWords_encoded (n : BitVec 4) (oct : BitVec 3) (volc : BitVec 5) (inst : Byte) (columns : List Fx) :
    eventOfWords (noteWord n oct volc) (instWord inst) (columns.map fun f => bytePair f.kind f.param) =
      ⟨n, oct, volc, inst, columns⟩ := by
  simp only [eventOfWords, noteField_noteWord, octField_noteWord, volcField_noteWord, loByte_instWord, List.map_map,
    Function.comp_def, fxOfWord_bytePair, List.map_id']

/-- PLAY takes its record, which has four columns (30_encoding.md R103). -/
theorem decode_encode_play (c : Chan) {ev : NoteEvent} (h : ev.wf = true) (rest : List Word) :
    decode .host (encode (.play c ev) ++ rest) = .ok (.play c ev, rest) := by
  obtain ⟨n, oct, volc, inst, columns⟩ := ev
  have hlen : columns.length = 4 := of_decide_eq_true h
  obtain ⟨f0, f1, f2, f3, rfl⟩ := List.length_eq_four.mp hlen
  have hev := eventOfWords_encoded n oct volc inst [f0, f1, f2, f3]
  rw [List.map_cons, List.map_cons, List.map_cons, List.map_cons, List.map_nil] at hev
  simp [encode, eventWords, decode, decodeHost, hev]

theorem decode_encode_host {x : Instr} (hx : WellFormed x) (h : x.ctx = .host) (rest : List Word) :
    decode .host (encode x ++ rest) = .ok (x, rest) := by
  cases x
  all_goals cases h
  case play c ev => exact decode_encode_play c hx rest
  all_goals
    dsimp only [encode, List.cons_append, List.nil_append, decode, decodeHost]
    rw [opField_hcWord]
    simp

/-! ### The rows of one word -/

/-- A note row is one word, read by its code. -/
theorem noteWord_row {x : Instr} {c : Chan} (h : x.ctx = .noteWord c) :
    ∃ w, encode x = [w] ∧ decodeNoteWord c w = x := by
  cases x
  all_goals cases h
  all_goals exact ⟨_, rfl, by simp [decodeNoteWord]⟩

/-- The one row read as an instrument word. -/
theorem instWord_row {x : Instr} {c : Chan} (h : x.ctx = .instWord c) : ∃ inst, x = .neW1 c inst := by
  cases x
  all_goals cases h
  exact ⟨_, rfl⟩

/-- A kind of neither table is FX_UNKNOWN (30_encoding.md R122). -/
theorem decodeFx_unknown (c : Chan) {kind : Byte} (p : Byte) (h : knownFxKind kind = false) :
    decodeFx c ⟨kind, p⟩ = .fxUnknown c kind p := by
  unfold decodeFx
  split
  case h_22 => rfl
  all_goals
    rename_i hk
    simp [knownFxKind, hk] at h

/-- An effect row is one word, read by its kind. -/
theorem effect_row {x : Instr} {c : Chan} (hx : WellFormed x) (h : x.ctx = .effect c) :
    ∃ kind p, encode x = [bytePair kind p] ∧ decodeFx c ⟨kind, p⟩ = x := by
  cases x
  all_goals cases h
  case fxUnknown kind p => exact ⟨kind, p, rfl, decodeFx_unknown c p ((Bool.not_eq_true' _).mp hx)⟩
  all_goals exact ⟨_, _, rfl, rfl⟩

/-- An item row is one word, read by its kind and setting; a scheme item's selector and limit are put together in its
byte (30_encoding.md R114). -/
theorem seqItem_row {x : Instr} {c : Chan} {k : Kind} {setting : BitVec 2} (h : x.ctx = .seqItem c k setting) :
    ∃ item, encode x = [itemWord item] ∧ decodeSeqItem c k setting item = x := by
  cases x
  all_goals cases h
  case sqArpScheme0 | sqArpScheme1 | sqArpScheme2 | sqArpScheme3 => exact ⟨_, rfl, by simp [decodeSeqItem]⟩
  all_goals exact ⟨_, rfl, rfl⟩

/-- Settles O1: by the context the row is read in. -/
theorem decodeOfEncodeIsTheInstruction : Obligations.DecodeOfEncodeIsTheInstruction := by
  intro x rest hx
  cases h : x.ctx with
  | host => exact decode_encode_host hx h rest
  | noteWord c =>
    obtain ⟨w, henc, hdec⟩ := noteWord_row h
    rw [henc, List.singleton_append, decode, hdec]
  | instWord c =>
    obtain ⟨inst, rfl⟩ := instWord_row h
    rw [encode, List.singleton_append, decode, loByte_instWord]
  | effect c =>
    obtain ⟨kind, p, henc, hdec⟩ := effect_row hx h
    rw [henc, List.singleton_append, decode, fxOfWord_bytePair, hdec]
  | seqItem c k setting =>
    obtain ⟨item, henc, hdec⟩ := seqItem_row h
    rw [henc, List.singleton_append, decode_itemWord, hdec]
  | port =>
    obtain ⟨a, v, henc, hrow, -⟩ := port_row h
    rw [henc, List.singleton_append, decode_port_eq_ok, hiByte_bytePair, loByte_bytePair]
    exact ⟨hrow, hx⟩

end Sys2Proof.Machine
end

section
/-! A channel the chip does not have (30_encoding.md R100). -/

namespace Sys2Proof.Machine

theorem State.onChannel_none {c : Chan} (h : chanOf c = none) (s : State) (f : Fin 3 → State → State) :
    s.onChannel c f = s := by
  simp only [State.onChannel, h]

/-- An instruction addressed to an absent channel changes nothing: each is an operation on the channel it addresses. -/
theorem exec_absent {x : Instr} {c : Chan} (h : channelOf x = some c) (hc : chanOf c = none) (s : State) :
    exec x s = .next s := by
  cases x
  all_goals cases h
  case reset | refresh => exact congrArg Host.Outcome.next (s.onChannel_none hc _)
  all_goals exact congrArg Host.Outcome.next (s.onCx_none hc _)

/-- Settles O15: by the channel; the step takes the words before it runs the instruction. -/
theorem absentChannelDoesNothing : Obligations.AbsentChannelDoesNothing := by
  intro x c s hx hc
  have hexec := exec_absent hx (chanOf_none hc)
  exact ⟨hexec s, fun rest hdec => (stepRunsTheDecodedCommand s x rest hdec).trans (hexec _)⟩

end Sys2Proof.Machine
end

section
/-! The pitch words: a row with a note head and nothing in its columns (40_row_commands.md R148). -/

namespace Sys2Proof.Machine

/-- The opening of a row with a note head: echo push and cleared timers (40_row_commands.md R151, R152). -/
theorem clearOneShots_pitch {n : Nat} (h : n < 256) (ch : Channel) :
    clearOneShots (.pitch n) (echoUpdate (.pitch n) ch) = headOpened n ch := by
  rw [echoUpdate, noteNumber_of_lt h]
  rfl

/-- HandleNoteData of a row with a note head and empty columns. -/
theorem handleNoteData_head (e : Env) (x : Cx) {ev : NoteEvent} {n : Nat}
    (hcls : echoSubstitute ev x.ch = .pitch n) (hn : n < 256) (hfx : ev.fx = NoteEvent.empty.fx) :
    ∃ m, handleNoteData e ev x = { x with ch := headFinished e n ev.volc ev.inst m (headOpened n x.ch) } := by
  obtain ⟨m, hm⟩ := finishRow_pitch e (headOpened n x.ch) hn ev.volc ev.inst
  refine ⟨m, ?_⟩
  rw [handleNoteData, hcls, clearOneShots_pitch hn, hfx, handleColumns_blank]
  exact congrArg (Cx.mk · x.shr) hm

/-- The pitch word `k` semitones above C has the note code `k + 1` (30_encoding.md R105). -/
theorem exec_pitchWord (k : Fin 12) (c : Chan) (oct : BitVec 3) (volc : BitVec 5) (s : State) :
    exec (pitchWord k c oct volc) s = playNoteWord (BitVec.ofNat 4 (k + 1)) c oct volc s := by
  fin_cases k <;> rfl

/-- The note code `k + 1` names note number `oct * 12 + k` (30_encoding.md R105). -/
theorem echoSubstitute_pitchCode (k : Fin 12) (oct : BitVec 3) (volc : BitVec 5) (ch : Channel) :
    echoSubstitute (noteRow (BitVec.ofNat 4 (k + 1)) oct volc) ch = .pitch (oct.toNat * 12 + k) := by
  fin_cases k <;> rfl

/-- Settles O29: the word's row has a note head of that number. -/
theorem pitchWordsPlayTheNote : Obligations.PitchWordsPlayTheNote := by
  intro s i k oct volc
  have hn : oct.toNat * 12 + k < 256 := by omega
  obtain ⟨m, hm⟩ := handleNoteData_head s.env (s.cx i) (echoSubstitute_pitchCode k oct volc _) hn rfl
  refine ⟨m, ?_⟩
  rw [exec_pitchWord, playNoteWord, State.onCx_number, hm]
  rfl

end Sys2Proof.Machine
end

section
/-! The host commands that set registers (40_row_commands.md R140 to R142, R180 to R183, 30_encoding.md R121). -/

namespace Sys2Proof.Machine

/-! ### RESET -/

/-- Both disable bits of a channel set, and the other mixer bits as they are (40_row_commands.md R142). -/
theorem Shared.putMixer_off (g : Shared) (i : Fin 3) :
    g.putMixer i true true = { g with mixer := g.mixer ||| BitVec.ofNat 8 (2 ^ i.val + 2 ^ (3 + i.val)) } := by
  have absorb (m b : Byte) : m &&& ~~~b ||| b = m ||| b := by
    ext j
    simp only [BitVec.getElem_or, BitVec.getElem_and, BitVec.getElem_not]
    cases m[j] <;> cases b[j] <;> rfl
  simp only [Shared.putMixer, putBit_mixer, if_true, absorb]

/-- Settles O11: the mixer bits by arithmetic, every other field by computation. -/
theorem resetCommandClearsTheChannel : Obligations.ResetCommandClearsTheChannel := by
  intro s i
  refine ⟨(s.chans.get i).free, congrArg Host.Outcome.next ?_⟩
  rw [State.onChannel_number, resetAt, Shared.putMixer_off]
  rfl

/-! ### NOP and the reserved opcodes -/

/-- A word of 0xA000 or above decodes to an instruction that takes that word alone and changes nothing
(30_encoding.md R121). -/
theorem decode_reserved {w : Word} (hw : 0xA000 ≤ w.toNat) (ws : List Word) :
    ∃ x, decode .host (w :: ws) = .ok (x, ws) ∧ ∀ s, exec x s = .next s := by
  have hop : 10 ≤ w.toNat / 4096 := by omega
  have hdec := hostCommandsDecodeByOpcode w ws
  dsimp only at hdec
  rw [hdec]
  generalize w.toNat / 4096 = op at hop
  match op with
  | 10 | 11 | 12 | 13 | 14 | _ + 15 => exact ⟨_, rfl, fun _ => rfl⟩

/-- Settles O12: a reserved word decodes to an instruction that changes nothing. -/
theorem nopAndReservedChangeNothing : Obligations.NopAndReservedChangeNothing := by
  refine ⟨fun _ => rfl, fun _ => ⟨rfl, rfl, rfl, rfl, rfl, rfl⟩, fun s w ws hinp hw => ?_⟩
  obtain ⟨x, hdec, hexec⟩ := decode_reserved hw ws
  rw [← hinp] at hdec
  exact (stepRunsTheDecodedCommand s x ws hdec).trans (hexec _)

/-! ### SETCFG and SETPITCH -/

/-- Settles O13: the bits of the argument and the clamped word as arithmetic, the decoding by the opcode. -/
theorem setcfgAndSetpitchWrite : Obligations.SetcfgAndSetpitchWrite := by
  refine ⟨fun s arg => ?_, fun w ws hop => ?_, fun s i w => ?_⟩
  · show Host.Outcome.next { s with cfgReg := ⟨arg.getLsbD 0, arg.getLsbD 1⟩ } = _
    rw [getLsbD_eq_decide, getLsbD_eq_decide, pow_zero, pow_one, Nat.div_one]
  · refine (hostCommandsDecodeByOpcode w ws).trans ?_
    rw [hop]
    rfl
  · show Host.Outcome.next (s.onCh _ _) = _
    rw [State.onCh_number, wheelOperand, clamp_eq _ _ _ (by decide)]
    rfl

end Sys2Proof.Machine
end

section
/-! TriggerNote (40_row_commands.md R170). -/

namespace Sys2Proof.Machine

/-- In linear pitch mode TriggerNote stays within 0..PERIOD_MAX (log 9). -/
theorem triggerNote_linear_le {e : Env} (h : e.cfgReg.linearPitch = true) (ch : Channel) (n : Int) :
    triggerNote e ch n ≤ cfg.periodMax := by
  rw [triggerNote, if_pos h]
  exact Nat.min_le_right _ _

/-- Settles O52: by the pitch mode. -/
theorem triggerNoteReadsTheClampedEntry : Obligations.TriggerNoteReadsTheClampedEntry := by
  refine fun e ch n => ⟨fun htable => ?_, fun hlinear => triggerNote_linear_le hlinear ch n⟩
  rw [(triggerNote_table htable ch n).1, noteNumber_eq]

end Sys2Proof.Machine
end

section
/-! LoadOrRetrigger: which entries it skips, and what it does with the others (40_row_commands.md R165, R166). -/

namespace Sys2Proof.Machine

/-- An instrument that is missing, or of a type no handler is made for, is skipped (R165). -/
theorem loadOrRetrigger_unloadable {m : Memory} {i : Byte}
    (h : i = 0xFF ∨ 64 ≤ i.toNat ∨ (m.instRead i).type = .none ∨ (m.instRead i).type = .sample) (reload head : Bool)
    (ch : Channel) : loadOrRetrigger m i reload head ch = ch := by
  unfold loadOrRetrigger
  by_cases hnone : i = 0xFF
  · rw [if_pos hnone]
  · by_cases hmissing : cfg.instCount ≤ i.toNat
    · rw [if_neg hnone, if_pos hmissing]
    · have htype : (m.instRead i).type = .none ∨ (m.instRead i).type = .sample :=
        (h.resolve_left hnone).resolve_left hmissing
      rw [if_neg hnone, if_neg hmissing, if_pos htype]

/-- An entry of instrument memory of a type handlers are made for is loaded (R166). -/
theorem loadOrRetrigger_loadable {m : Memory} {i : Byte} (hi : i.toNat < 64)
    (h : (m.instRead i).type = .native ∨ (m.instRead i).type = .foreign) (reload head : Bool) (ch : Channel) :
    loadOrRetrigger m i reload head ch = loadEntry m i (m.instRead i) reload head ch := by
  have hnone : i ≠ 0xFF := by
    rintro rfl
    exact absurd hi (by decide)
  have hthere : ¬ cfg.instCount ≤ i.toNat := Nat.not_le.mpr hi
  have htype : ¬ ((m.instRead i).type = .none ∨ (m.instRead i).type = .sample) := by
    rcases h with h | h <;> simp [h]
  rw [loadOrRetrigger, if_neg hnone, if_neg hthere, if_neg htype]

/-- Settles O33: each of the conditions leaves the channel as it is. -/
theorem unloadableInstrumentIsSkipped : Obligations.UnloadableInstrumentIsSkipped :=
  fun _ _ reload head ch h => loadOrRetrigger_unloadable h reload head ch

/-- Settles O34: the loadable case of LoadOrRetrigger. -/
theorem loadableInstrumentIsLoaded : Obligations.LoadableInstrumentIsLoaded := by
  intro m i reload head ch en fresh kept loaded hi htype
  rw [loadOrRetrigger_loadable hi htype]
  rfl

end Sys2Proof.Machine
end

section
/-! Rows whose columns do nothing: the words that stand for a row alone (40_row_commands.md R148, R150 to R162; log 3). -/

namespace Sys2Proof.Machine

/-! ### The end of a row with no note head -/

/-- The volume column writes the two volumes only (40_row_commands.md R154). -/
theorem columnVolume_keeps (volc : BitVec 5) (ch : Channel) :
    Kept (columnVolume volc ch) ch ∧ (columnVolume volc ch).release = ch.release := by
  unfold columnVolume
  split
  · exact ⟨{ Kept.rfl (a := ch) with }, rfl⟩
  · exact ⟨Kept.rfl, rfl⟩

theorem columnVolume_echoPush (volc : BitVec 5) (ch : Channel) (x : Echo) :
    columnVolume volc (ch.echoPush x) = (columnVolume volc ch).echoPush x := by
  unfold columnVolume
  split <;> rfl

/-- A volume column of 16 or more is no volume (30_encoding.md R125). -/
theorem columnVolume_none {volc : BitVec 5} (h : 16 ≤ volc.toNat) (ch : Channel) : columnVolume volc ch = ch :=
  if_neg (Nat.not_lt.mpr h)

/-- The instrument index a row with no note asks for: hold and none keep the current one (40_row_commands.md R155). -/
def askedInstrument (inst : Byte) (ch : Channel) : Byte := if inst = 0xFE ∨ inst = 0xFF then ch.inst else inst

/-- The end of a row with no note: the volume column, then the instrument. -/
theorem finishRow_none (e : Env) (volc : BitVec 5) (inst : Byte) (ch : Channel) :
    finishRow .none inst e (applyVolumeColumn volc ch) =
      reloadIf e.mem (askedInstrument inst ch) (columnVolume volc ch) := by
  rw [columnVolume_eq, finishRow_noHead .none rfl _ _ _ ⟨rfl, rfl⟩, (columnVolume_keeps volc ch).1.inst]
  simp only [reduceCtorEq, false_or]
  rfl

/-- The end of a halt row: the volume column, the cut, and the current instrument if it is forced
(40_row_commands.md R155, R161). -/
theorem finishRow_halt (e : Env) (volc : BitVec 5) (inst : Byte) (ch : Channel) :
    finishRow .halt inst e (applyVolumeColumn volc ch) =
      reloadIf e.mem ch.inst
        { columnVolume volc ch with gate := false, release := false, trigger := false, period := 0, portaTo := 0 } := by
  rw [columnVolume_eq, finishRow_noHead .halt rfl _ _ _ ⟨rfl, rfl⟩, if_pos (.inl rfl), (columnVolume_keeps volc ch).1.inst]
  rfl

/-- The end of a release row: the volume column, the release, and the current instrument if it is forced
(40_row_commands.md R155, R162). -/
theorem finishRow_release (e : Env) (volc : BitVec 5) (inst : Byte) (ch : Channel) :
    finishRow .release inst e (applyVolumeColumn volc ch) =
      reloadIf e.mem ch.inst (releaseNote e.mem (columnVolume volc ch)) := by
  have hdispatch : (releaseNote e.mem (columnVolume volc ch)).inst = (columnVolume volc ch).inst ∧
      (releaseNote e.mem (columnVolume volc ch)).forceReload = (columnVolume volc ch).forceReload := by
    rw [releaseNote_eq]
    exact ⟨rfl, rfl⟩
  rw [columnVolume_eq, finishRow_noHead .release rfl _ _ _ hdispatch, if_pos (.inr (.inl rfl)),
    (columnVolume_keeps volc ch).1.inst]
  rfl

/-! ### What an echo recalls -/

/-- The class an echo slot plays as (40_row_commands.md R150). -/
def Echo.noteClass : Echo → NoteClass
  | .empty => .none
  | .halt => .halt
  | .note n => .pitch n.toNat

/-- An echo index past the buffer is no note (40_row_commands.md R150). -/
theorem echoSubstitute_past {ev : NoteEvent} (hev : ev.note = 15) (ho : 4 ≤ ev.oct.toNat) (ch : Channel) :
    echoSubstitute ev ch = .none := by
  have hcode : ev.note.toNat = 15 := by rw [hev]; rfl
  simp only [echoSubstitute, hcode]
  exact if_pos ho

/-- An echo of a slot of the buffer has the class of what stands there (40_row_commands.md R150). -/
theorem echoSubstitute_slot {ev : NoteEvent} {ch : Channel} {x : Echo} (hev : ev.note = 15) (ho : ev.oct.toNat < 4)
    (hx : ch.echo[ev.oct.toNat]? = some x) : echoSubstitute ev ch = x.noteClass := by
  have hcode : ev.note.toNat = 15 := by rw [hev]; rfl
  have hin : ¬ cfg.echoLen ≤ ev.oct.toNat := Nat.not_le.mpr ho
  simp only [echoSubstitute, hcode, if_neg hin, List.getD_eq_getElem?_getD, hx, Option.getD_some]
  cases x <;> rfl

/-! ### Rows whose columns do nothing -/

/-- Columns that are empty or FX_DELAY do nothing in HandleEffect (41_effects.md R191, R192). -/
theorem handleColumns_silent (e : Env) (x : Cx) {columns : List Fx} (h : ∀ f ∈ columns, f.kind = 0 ∨ f.kind = 0x10) :
    handleColumns e x columns = x := by
  induction columns with
  | nil => rfl
  | cons f rest ih =>
    have hf : handleEffect e x f = (x, false) := by
      refine handleEffect_unknown e x f ?_
      rcases h f (List.mem_cons_self ..) with h0 | h10
      · exact .inl (by rw [h0]; rfl)
      · exact .inr (.inl (by rw [h10]; decide))
    show handleColumns e (handleEffect e x f).1 rest = x
    rw [hf]
    exact ih fun g hg => h g (List.mem_cons_of_mem f hg)

/-- HandleNoteData of a row whose columns do nothing is the opening of its class and its end. -/
theorem onCx_silentRow (s : State) (i : Fin 3) {ev : NoteEvent} {cls : NoteClass}
    (hfx : ∀ f ∈ ev.fx, f.kind = 0 ∨ f.kind = 0x10) (hcls : echoSubstitute ev (s.chans.get i) = cls) :
    (s.onCx (BitVec.ofNat 4 i) fun e x => handleNoteData e ev x) =
      s.withChan i (finishRow cls ev.inst s.env
        (applyVolumeColumn ev.volc (clearOneShots cls (echoUpdate cls (s.chans.get i))))) := by
  rw [State.onCx_number, handleNoteData, handleColumns_silent _ _ hfx]
  subst hcls
  rfl

theorem empty_columns_silent : ∀ f ∈ NoteEvent.empty.fx, f.kind = 0 ∨ f.kind = 0x10 :=
  fun _ hf => .inl (congrArg Fx.kind (List.eq_of_mem_replicate (n := 4) hf))

/-- A note word, by the class of its row. -/
theorem playNoteWord_eq (s : State) (i : Fin 3) {note : BitVec 4} {oct : BitVec 3} {volc : BitVec 5} {cls : NoteClass}
    (hcls : echoSubstitute (noteRow note oct volc) (s.chans.get i) = cls) :
    playNoteWord note (BitVec.ofNat 4 i) oct volc s =
      .next (s.withChan i (finishRow cls 0xFF s.env
        (applyVolumeColumn volc (clearOneShots cls (echoUpdate cls (s.chans.get i)))))) :=
  congrArg Host.Outcome.next (onCx_silentRow s i empty_columns_silent hcls)

/-- Note words with the same volume column and rows of the same class do the same. -/
theorem playNoteWord_class (s : State) (i : Fin 3) {note note' : BitVec 4} {oct oct' : BitVec 3} {volc : BitVec 5}
    (h : echoSubstitute (noteRow note oct volc) (s.chans.get i) = echoSubstitute (noteRow note' oct' volc) (s.chans.get i)) :
    playNoteWord note (BitVec.ofNat 4 i) oct volc s = playNoteWord note' (BitVec.ofNat 4 i) oct' volc s :=
  (playNoteWord_eq s i h).trans (playNoteWord_eq s i rfl).symm

/-- Settles O30: the words' rows have the classes none, halt and release. -/
theorem noteWordsWithoutHead : Obligations.NoteWordsWithoutHead := by
  intro s i oct volc c ch voiced
  refine ⟨?_, ?_, ?_⟩
  · exact (playNoteWord_eq s i (cls := .none) rfl).trans (by rw [finishRow_none]; rfl)
  · refine (playNoteWord_eq s i (cls := .halt) rfl).trans ?_
    rw [finishRow_halt]
    show Host.Outcome.next (s.withChan i (reloadIf s.mem ch.inst
      { columnVolume volc (ch.echoPush .halt) with
        gate := false, release := false, trigger := false, period := 0, portaTo := 0 })) = _
    rw [columnVolume_echoPush, Channel.echoPush, (columnVolume_keeps volc ch).1.echo]
    rfl
  · obtain ⟨hkept, hrelease⟩ := columnVolume_keeps volc ch
    refine (playNoteWord_eq s i (cls := .release) rfl).trans ?_
    show Host.Outcome.next (s.withChan i (finishRow .release 0xFF s.env (applyVolumeColumn volc ch))) = _
    rw [finishRow_release, releaseNote_eq, hkept.handler, hrelease]
    rfl

/-- Settles O31: by what the echo recalls; the words compared have rows of the same class. -/
theorem echoWordRecalls : Obligations.EchoWordRecalls := by
  intro s i oct volc c ch
  have recalled {x : Echo} (ho : oct.toNat < 4) (hx : ch.echo[oct.toNat]? = some x) :
      echoSubstitute (noteRow 15 oct volc) ch = x.noteClass := echoSubstitute_slot rfl ho hx
  refine ⟨fun ho => ?_, fun ho hx => ?_, fun ho hx => ?_, fun n ho hx => ?_⟩
  · exact playNoteWord_class s i (note := 15) (note' := 0) (oct' := 0) (echoSubstitute_past rfl ho ch)
  · exact playNoteWord_class s i (note := 15) (note' := 0) (oct' := 0) (recalled ho hx)
  · exact playNoteWord_class s i (note := 15) (note' := 13) (oct' := 0) (recalled ho hx)
  · obtain ⟨m, hm⟩ := finishRow_pitch s.env (headOpened n.toNat ch) n.isLt volc 0xFF
    refine ⟨m, (playNoteWord_eq s i (recalled ho hx)).trans ?_⟩
    rw [← hm, ← clearOneShots_pitch n.isLt]
    rfl

/-- Settles O14: the row of N_NONE with no volume column, on the channel with the flag set. -/
theorem forcereloadReloadsAtTheNextRow : Obligations.ForcereloadReloadsAtTheNextRow := by
  intro s i oct
  have hforce : exec (.forcereload (BitVec.ofNat 4 i)) s =
      .next (s.withChan i { s.chans.get i with forceReload := true }) :=
    congrArg Host.Outcome.next (s.onCh_number i fun _ ch => { ch with forceReload := true })
  refine ⟨hforce, ?_⟩
  simp only [execAll, hforce]
  rw [(noteWordsWithoutHead _ i oct 16).1, State.withChan_get, columnVolume_none (by decide), State.withChan_withChan,
    reloadIf, if_pos (.inr rfl)]
  rfl

end Sys2Proof.Machine
end

section
/-! PLAY and the buffered row: a row is buffered by its delay column, and a row still buffered is handled first
(40_row_commands.md R143, R144, R146). -/

namespace Sys2Proof.Machine

/-! ### A row that a column delays -/

/-- PlayNote of a row with a delay column, on a channel with nothing buffered (40_row_commands.md R143, R144). -/
theorem playNote_delayed (e : Env) (x : Cx) {ev : NoteEvent} {before after : List Fx} {n : Byte}
    (hd : x.ch.delayPending = false) (hfx : ev.fx = before ++ ⟨0x10, n⟩ :: after) (hn : n ≠ 0)
    (hbefore : ∀ f ∈ before, f.kind = 0x10 → f.param = 0) : playNote e ev x = bufferRow ev n x := by
  have hskip : before.find? delaysRow = none := by
    simpa [List.find?_eq_none, delaysRow, delayColumn] using hbefore
  have hdelays : delaysRow ⟨0x10, n⟩ = true := by simpa [delaysRow, delayColumn] using hn
  have hfind : ev.fx.find? delaysRow = some ⟨0x10, n⟩ := by
    rw [hfx, List.find?_append, hskip, Option.none_or, List.find?_cons_of_pos hdelays]
  simp only [playNote, hfind, flushDelayed, hd, Bool.false_eq_true, if_false]

/-- The buffered copy has every FX_DELAY column emptied (40_row_commands.md R143). -/
theorem stripDelays_eq (ev : NoteEvent) :
    stripDelays ev = { ev with fx := ev.fx.map fun f => if f.kind = 0x10 then ⟨0, 0⟩ else f } := by
  simp only [stripDelays, delayColumn, decide_eq_true_eq]

/-- Settles O36: the delay column is the first that delays. -/
theorem playBuffersADelayedRow : Obligations.PlayBuffersADelayedRow := by
  intro s i ev before after n hd hfx hn hbefore
  show Host.Outcome.next (s.onCx _ _) = _
  rw [State.onCx_number, playNote_delayed s.env (s.cx i) hd hfx hn hbefore, bufferRow, stripDelays_eq]
  rfl

/-! ### A row on a channel with a row buffered -/

/-- The flush leaves no row buffered (40_row_commands.md R143). -/
theorem flushDelayed_pending (e : Env) (x : Cx) : (flushDelayed e x).ch.delayPending = false := by
  unfold flushDelayed
  cases hd : x.ch.delayPending with
  | false => exact hd
  | true => exact (handleNoteData_kept e x.ch.delayEvent { x with ch := { x.ch with delayPending := false } }).1

/-- PlayNote is PlayNote on what the flush leaves (40_row_commands.md R146). -/
theorem playNote_flushDelayed (e : Env) (ev : NoteEvent) (x : Cx) : playNote e ev (flushDelayed e x) = playNote e ev x := by
  have hagain : flushDelayed e (flushDelayed e x) = flushDelayed e x := by
    rw [flushDelayed, flushDelayed_pending]
    rfl
  simp only [playNote, hagain]

/-- A row on a channel with a row buffered: none is pending on the flushed state, and there the row does what it does
here. -/
theorem onCx_playNote_pending (s : State) (i : Fin 3) (ev : NoteEvent) (h : (s.chans.get i).delayPending = true) :
    let flushed := s.putCx i
      (handleNoteData s.env (s.chans.get i).delayEvent ⟨{ s.chans.get i with delayPending := false }, s.shr⟩)
    (flushed.chans.get i).delayPending = false ∧
    (s.onCx (BitVec.ofNat 4 i) fun e x => playNote e ev x) =
      flushed.onCx (BitVec.ofNat 4 i) fun e x => playNote e ev x := by
  have hflush : handleNoteData s.env (s.chans.get i).delayEvent ⟨{ s.chans.get i with delayPending := false }, s.shr⟩ =
      flushDelayed s.env (s.cx i) := (if_pos h).symm
  rw [hflush]
  refine ⟨?_, ?_⟩
  · rw [State.putCx_chans, Channels.get_set_self]
    exact flushDelayed_pending s.env (s.cx i)
  · rw [State.onCx_number, State.onCx_number, State.putCx_cx', State.putCx_putCx]
    exact congrArg (s.putCx i) (playNote_flushDelayed s.env ev (s.cx i)).symm

/-- Settles O37: PlayNote flushes before it looks at the row. -/
theorem playFlushesTheBufferedRow : Obligations.PlayFlushesTheBufferedRow := by
  intro s i ev h
  obtain ⟨hpending, hplay⟩ := onCx_playNote_pending s i ev h
  exact ⟨hpending, congrArg Host.Outcome.next hplay⟩

/-! ### The instrument word and FX_DELAY -/

/-- The row of FX_DELAY with parameter 0 alone ends as the empty event does (40_row_commands.md R144; log 30). -/
theorem onCx_undelayedRow (s : State) (i : Fin 3) (hd : (s.chans.get i).delayPending = false) :
    (s.onCx (BitVec.ofNat 4 i) fun e x => playNote e (effectRow ⟨0x10, 0⟩) x) =
      s.withChan i (reloadIf s.mem (s.chans.get i).inst (s.chans.get i)) := by
  have hplay : playNote s.env (effectRow ⟨0x10, 0⟩) (s.cx i) = handleNoteData s.env (effectRow ⟨0x10, 0⟩) (s.cx i) :=
    playNote_plain s.env _ (s.cx i) hd (by decide)
  rw [State.onCx_number, hplay]
  refine (State.onCx_number s i fun e x => handleNoteData e (effectRow ⟨0x10, 0⟩) x).symm.trans ?_
  rw [onCx_silentRow s i (cls := .none) (by decide) rfl, finishRow_none]
  rfl

/-- Settles O32: the instrument word's row has silent columns; FX_DELAY's row is buffered or not by its parameter, after
the flush. -/
theorem instrumentAndDelayWords : Obligations.InstrumentAndDelayWords := by
  intro s i b ch
  refine ⟨?_, fun hd => ?_, fun h => ?_⟩
  · refine congrArg Host.Outcome.next ((onCx_silentRow s i (ev := instRow b) (cls := .none) empty_columns_silent rfl).trans ?_)
    rw [finishRow_none]
    rfl
  · by_cases hb : b = 0
    · subst hb
      rw [if_pos rfl]
      exact congrArg Host.Outcome.next (onCx_undelayedRow s i hd)
    · rw [if_neg hb]
      exact playBuffersADelayedRow s i (effectRow ⟨0x10, b⟩) [] _ b hd rfl hb nofun
  · obtain ⟨hpending, hplay⟩ := onCx_playNote_pending s i (effectRow ⟨0x10, b⟩) h
    exact ⟨hpending, congrArg Host.Outcome.next hplay⟩

end Sys2Proof.Machine
end

section
/-! A row that no column delays, as its parts: its opening, its effect columns as words, its volume column and its end
(40_row_commands.md R148). -/

namespace Sys2Proof.Machine

/-- The opening of a row: the echo push, and the timers a note head clears (40_row_commands.md R151, R152). -/
def rowOpened (cls : NoteClass) (ch : Channel) : Channel := clearOneShots cls (echoUpdate cls ch)

theorem State.putCx_withChan (s : State) (i : Fin 3) (x : Cx) (ch : Channel) :
    (s.putCx i x).withChan i ch = s.putCx i { x with ch := ch } := by
  simp only [State.withChan, State.putCx, Channels.set_set]

/-- PLAY of a row of class `cls` is its opening, its columns as effect words, and its end; the columns leave the loaded
instrument and the reload flag alone. -/
theorem exec_play_words (s : State) (i : Fin 3) {ev : NoteEvent} {cls : NoteClass}
    (hd : (s.chans.get i).delayPending = false) (hfx : ∀ f ∈ ev.fx, f.kind = 0x10 → f.param = 0)
    (hcls : echoSubstitute ev (s.chans.get i) = cls) :
    ∃ t, execAll ((ev.fx.filter fun f => f.kind ≠ 0x10).map (decodeFx (BitVec.ofNat 4 i)))
          (s.withChan i (rowOpened cls (s.chans.get i))) = .next t ∧
      Kept (t.chans.get i) (rowOpened cls (s.chans.get i)) ∧
      exec (.play (BitVec.ofNat 4 i) ev) s =
        .next (t.withChan i (finishRow cls ev.inst s.env (applyVolumeColumn ev.volc (t.chans.get i)))) := by
  let opened : Cx := ⟨rowOpened cls (s.chans.get i), s.shr⟩
  have hcx : (s.withChan i opened.ch).cx i = opened := by
    rw [State.cx, State.withChan_get, State.withChan_shr]
  have hput (x : Cx) : (s.withChan i opened.ch).putCx i x = s.putCx i x := State.putCx_putCx s i opened x
  refine ⟨s.putCx i (handleColumns s.env opened ev.fx), ?_, ?_, ?_⟩
  · rw [execAll_words, hcx, hput, State.withChan_env]
  · rw [State.putCx_chans, Channels.get_set_self]
    exact Kept.handleColumns s.env ev.fx opened
  · rw [exec_play_plain s i ev hd hfx, State.putCx_withChan, State.putCx_chans, Channels.get_set_self, hcls]
    rfl

/-- With nothing to load, the end of a row is what stands there. -/
theorem reloadIf_current {m : Memory} {ch : Channel} (h : ch.forceReload = false) : reloadIf m ch.inst ch = ch := by
  rw [reloadIf, if_neg (by simp [h])]

/-- Settles O38: the row has the class none, which opens nothing and pushes nothing. -/
theorem effectRowIsItsColumnsInOrder : Obligations.EffectRowIsItsColumnsInOrder := by
  intro s i ev c words hd hnote hfx
  have hcls : echoSubstitute ev (s.chans.get i) = .none := by rw [echoSubstitute, hnote]; rfl
  obtain ⟨t, hwords, hkept, hplay⟩ := exec_play_words s i hd hfx hcls
  have hopened : s.withChan i (rowOpened .none (s.chans.get i)) = s := s.withChan_self i
  rw [hopened] at hwords
  rw [finishRow_none] at hplay
  refine ⟨⟨t, hwords, hplay⟩, fun hforce hvolc hinst => ?_⟩
  have hasked : askedInstrument ev.inst (t.chans.get i) = (t.chans.get i).inst := if_pos hinst
  rw [hplay, hwords, columnVolume_none hvolc, hasked, reloadIf_current (hkept.forceReload.trans hforce),
    State.withChan_self]

/-- The class of the row of a pitch note, or of an echo of one, of number `n` (30_encoding.md R105, R107). -/
theorem echoSubstitute_head {ev : NoteEvent} {ch : Channel} {n : Nat}
    (h : (1 ≤ ev.note.toNat ∧ ev.note.toNat ≤ 12 ∧ n = ev.oct.toNat * 12 + (ev.note.toNat - 1)) ∨
      (ev.note = 15 ∧ ev.oct.toNat < 4 ∧ ∃ b : Byte, ch.echo[ev.oct.toNat]? = some (.note b) ∧ n = b.toNat)) :
    echoSubstitute ev ch = .pitch n ∧ n < 256 := by
  rcases h with ⟨hlow, hhigh, rfl⟩ | ⟨hnote, ho, b, hecho, rfl⟩
  · have hoct := ev.oct.isLt
    refine ⟨?_, by omega⟩
    unfold echoSubstitute
    generalize ev.note.toNat = code at hlow hhigh
    match code with
    | 1 | 2 | 3 | 4 | 5 | 6 | 7 | 8 | 9 | 10 | 11 | 12 => rfl
    | 0 | _ + 13 => omega
  · exact ⟨echoSubstitute_slot hnote ho hecho, b.isLt⟩

/-- Settles O39: the row has a note head of that number. -/
theorem noteRowRunsItsStepsInOrder : Obligations.NoteRowRunsItsStepsInOrder := by
  intro s i ev n c ch words hd hfx hhead
  obtain ⟨hcls, hn⟩ := echoSubstitute_head hhead
  obtain ⟨t, hwords, -, hplay⟩ := exec_play_words s i hd hfx hcls
  obtain ⟨m, hm⟩ := finishRow_pitch s.env (t.chans.get i) hn ev.volc ev.inst
  rw [rowOpened, clearOneShots_pitch hn] at hwords
  rw [hm] at hplay
  exact ⟨t, m, hwords, hplay⟩

/-- An echo row that recalls nothing does what the row with no note does. -/
theorem exec_play_missedEcho (s : State) (i : Fin 3) {ev : NoteEvent} (hd : (s.chans.get i).delayPending = false)
    (hfx : ∀ f ∈ ev.fx, f.kind = 0x10 → f.param = 0) (hcls : echoSubstitute ev (s.chans.get i) = .none) :
    exec (.play (BitVec.ofNat 4 i) ev) s = exec (.play (BitVec.ofNat 4 i) { ev with note := 0 }) s := by
  have hnone : echoSubstitute { ev with note := 0 } (s.chans.get i) = .none := rfl
  rw [exec_play_plain s i ev hd hfx, exec_play_plain s i { ev with note := 0 } hd hfx, hcls, hnone]

/-- Settles O40: by the class of the row. -/
theorem haltReleaseAndMissedEchoRows : Obligations.HaltReleaseAndMissedEchoRows := by
  intro s i ev c ch words hd hfx
  refine ⟨fun h => ?_, fun h => ?_, fun hnote h => exec_play_missedEcho s i hd hfx ?_⟩
  · have hcls : echoSubstitute ev ch = .halt := by
      rcases h with hnote | ⟨hnote, ho, hecho⟩
      · rw [echoSubstitute, hnote]; rfl
      · exact echoSubstitute_slot hnote ho hecho
    obtain ⟨t, hwords, -, hplay⟩ := exec_play_words s i hd hfx hcls
    rw [finishRow_halt, ← (columnVolume_keeps ev.volc _).1.inst] at hplay
    exact ⟨t, hwords, hplay⟩
  · have hcls : echoSubstitute ev ch = .release := by rw [echoSubstitute, h]; rfl
    obtain ⟨t, hwords, -, hplay⟩ := exec_play_words s i hd hfx hcls
    have hopened : s.withChan i (rowOpened .release ch) = s := s.withChan_self i
    rw [hopened] at hwords
    rw [finishRow_release, ← (columnVolume_keeps ev.volc _).1.inst, releaseNote_eq] at hplay
    exact ⟨t, hwords, hplay⟩
  · by_cases ho : 4 ≤ ev.oct.toNat
    · exact echoSubstitute_past hnote ho ch
    · exact echoSubstitute_slot hnote (Nat.not_le.mp ho) (h.resolve_left ho)

end Sys2Proof.Machine
end

section
/-! A buffered row over the ticks of its delay (40_row_commands.md R145, 42_tick_update.md R231). -/

namespace Sys2Proof.Machine

/-! ### Steps 2 to 9 of PROCESS leave the buffered row alone -/

theorem updateNoteCut_delayEvent (ch : Channel) : (updateNoteCut ch).delayEvent = ch.delayEvent := by
  rw [updateNoteCut_eq]
  split_ifs <;> rfl

theorem updateNoteRelease_delayEvent (e : Env) (ch : Channel) : (updateNoteRelease e ch).delayEvent = ch.delayEvent := by
  rw [updateNoteRelease_eq, releaseNote_eq]
  split_ifs <;> rfl

theorem updateDelayedVolume_delayEvent (ch : Channel) : (updateDelayedVolume ch).delayEvent = ch.delayEvent := by
  rw [updateDelayedVolume_eq]
  split_ifs <;> rfl

theorem updateTranspose_delayEvent (e : Env) (ch : Channel) : (updateTranspose e ch).delayEvent = ch.delayEvent := by
  rw [updateTranspose_eq]
  split_ifs
  · rfl
  · exact Channel.playPeriod_delayEvent ..
  · rfl

theorem stepToTarget_delayEvent (ch : Channel) : (stepToTarget ch).delayEvent = ch.delayEvent := by
  rw [stepToTarget_eq]

theorem autoClear_delayEvent (ch : Channel) : (autoClear ch).delayEvent = ch.delayEvent := by
  unfold autoClear
  split_ifs <;> rfl

theorem updateEffects_delayEvent (e : Env) (ch : Channel) : (updateEffects e ch).delayEvent = ch.delayEvent := by
  unfold updateEffects
  cases ch.eff
  case none | portaUp | portaDown => rfl
  case arpeggio => exact Channel.playPeriod_delayEvent ch e (arpeggioNote ch) 0
  case portamento => exact stepToTarget_delayEvent ch
  case slideUp | slideDown => exact (autoClear_delayEvent _).trans (stepToTarget_delayEvent ch)

theorem processSequence_delayEvent (k : Kind) (setting : BitVec 2) (item : Byte) (e : Env) (ch : Channel) :
    (processSequence k setting item e ch).1.delayEvent = ch.delayEvent := by
  cases k
  case volume | hipitch | duty => rfl
  case arpeggio =>
    show (processArpeggio setting item e ch).delayEvent = _
    unfold processArpeggio
    split
    case h_4 => split <;> exact Channel.playPeriod_delayEvent ..
    all_goals exact Channel.playPeriod_delayEvent ..
  case pitch =>
    unfold processSequence
    dsimp only
    split
    · rfl
    · exact Channel.playPeriod_delayEvent ..
    · rfl

theorem updateSlot_delayEvent (e : Env) (ch : Channel) (k : Kind) : (updateSlot e ch k).delayEvent = ch.delayEvent := by
  unfold updateSlot
  split
  · rfl
  · dsimp only
    split
    · split_ifs
      · rfl
      · rfl
      · exact processSequence_delayEvent k _ _ e ch
    · rfl
    · unfold finalize
      split_ifs
      · exact Channel.playPeriod_delayEvent ch e ch.note.toNat 0
      · rfl
    · rfl
    · rfl
    · rfl

theorem updateHandler_delayEvent (e : Env) (ch : Channel) : (updateHandler e ch).delayEvent = ch.delayEvent := by
  have slots (ks : List Kind) (c : Channel) : (ks.foldl (updateSlot e) c).delayEvent = c.delayEvent := by
    induction ks generalizing c with
    | nil => rfl
    | cons k ks ih => exact (ih _).trans (updateSlot_delayEvent e c k)
  unfold updateHandler updateInstrument
  split_ifs
  · exact slots Kind.all ch
  · rfl
  · rfl

/-- Steps 2 to 9 of PROCESS do not write the buffered row (42_tick_update.md R230). -/
theorem processSteps_delayEvent (e : Env) (ch : Channel) : (processSteps e ch).delayEvent = ch.delayEvent := by
  have phases (c : Channel) : (updateVibratoTremolo (updateVolumeSlide c)).delayEvent = c.delayEvent := rfl
  rw [processSteps, updateHandler_delayEvent, updateEffects_delayEvent, phases, updateTranspose_delayEvent,
    updateDelayedVolume_delayEvent, updateNoteRelease_delayEvent, updateNoteCut_delayEvent]

/-! ### Several ticks -/

/-- Steps 2 to 9 of `n` ticks. -/
def ticked (e : Env) (n : Nat) (ch : Channel) : Channel := (processSteps e)^[n] ch

theorem ticked_delayEvent (e : Env) (n : Nat) (ch : Channel) : (ticked e n ch).delayEvent = ch.delayEvent := by
  induction n generalizing ch with
  | zero => rfl
  | succ n ih => exact (ih (processSteps e ch)).trans (processSteps_delayEvent e ch)

/-- Ticks do not look at the pending flag and the delay timer. -/
theorem ticked_withDelay (e : Env) (n : Nat) (ch : Channel) (p : Bool) (t : Byte) :
    ticked e n (ch.withDelay p t) = (ticked e n ch).withDelay p t := by
  have h : Function.Commute (processSteps e) fun ch => ch.withDelay p t := fun ch => (Ignores.processSteps e).delay ch p t
  exact h.iterate_left n ch

/-- PROCESS with no row buffered is steps 2 to 9 (42_tick_update.md R231). -/
theorem processChannel_idle (e : Env) {x : Cx} (hd : x.ch.delayPending = false) :
    processChannel e x = { x with ch := processSteps e x.ch } := by
  simp only [processChannel, updateDelay, hd, Bool.false_eq_true, if_false]

/-- PROCESS while a row waits counts its timer down, beside steps 2 to 9 (42_tick_update.md R231). -/
theorem processChannel_waiting (e : Env) {x : Cx} (hd : x.ch.delayPending = true) (ht : x.ch.delayTimer ≠ 0) :
    processChannel e x = { x with ch := (processSteps e x.ch).withDelay true (x.ch.delayTimer - 1) } := by
  have hcount : updateDelay e x = { x with ch := x.ch.withDelay true (x.ch.delayTimer - 1) } := by
    rw [updateDelay, if_pos hd, if_neg ht, Channel.withDelay, ← hd]
  rw [processChannel, hcount]
  exact congrArg (Cx.mk · x.shr) ((Ignores.processSteps e).delay x.ch _ _)

/-- PROCESS with a row due is PROCESS after its flush (42_tick_update.md R231). -/
theorem processChannel_due (e : Env) {x : Cx} (hd : x.ch.delayPending = true) (ht : x.ch.delayTimer = 0) :
    processChannel e x = processChannel e (flushDelayed e x) := by
  rw [processChannel_idle e (flushDelayed_pending e x)]
  simp only [processChannel, updateDelay, hd, ht, if_true]

theorem exec_process_number (s : State) (i : Fin 3) :
    exec (.process (BitVec.ofNat 4 i)) s = .next (s.putCx i (processChannel s.env (s.cx i))) :=
  congrArg Host.Outcome.next (s.onCx_number i processChannel)

/-- `n` PROCESS commands with no row buffered. -/
theorem execAll_process_idle (i : Fin 3) (n : Nat) {s : State} (hd : (s.chans.get i).delayPending = false) :
    execAll (List.replicate n (.process (BitVec.ofNat 4 i))) s =
      .next (s.withChan i (ticked s.env n (s.chans.get i))) := by
  induction n generalizing s with
  | zero => exact congrArg Host.Outcome.next (s.withChan_self i).symm
  | succ n ih =>
    let s' := s.withChan i (processSteps s.env (s.chans.get i))
    have hstep : exec (.process (BitVec.ofNat 4 i)) s = .next s' := by
      rw [exec_process_number, processChannel_idle _ hd]
      rfl
    have hd' : (s'.chans.get i).delayPending = false := by
      rw [State.withChan_get, ((Ignores.processSteps s.env).pending _).1, hd]
    simp only [List.replicate_succ, execAll, hstep]
    rw [ih hd', State.withChan_withChan, State.withChan_get]
    rfl

/-- As many PROCESS commands as the timer of a buffered row says: the row becomes due, beside the ticks. -/
theorem execAll_process_waiting (i : Fin 3) (n : Nat) {s : State} (hd : (s.chans.get i).delayPending = true)
    (hn : (s.chans.get i).delayTimer.toNat = n) :
    execAll (List.replicate n (.process (BitVec.ofNat 4 i))) s =
      .next (s.withChan i ((ticked s.env n (s.chans.get i)).withDelay true 0)) := by
  induction n generalizing s with
  | zero =>
    have ht : (s.chans.get i).delayTimer = 0 := BitVec.eq_of_toNat_eq hn
    have hch : (s.chans.get i).withDelay true 0 = s.chans.get i := by rw [Channel.withDelay, ← hd, ← ht]
    exact congrArg Host.Outcome.next ((congrArg (s.withChan i) hch).trans (s.withChan_self i)).symm
  | succ n ih =>
    have ht : (s.chans.get i).delayTimer ≠ 0 := by
      rw [ne_zero_iff_toNat_pos]
      omega
    let s' := s.withChan i ((processSteps s.env (s.chans.get i)).withDelay true ((s.chans.get i).delayTimer - 1))
    have hstep : exec (.process (BitVec.ofNat 4 i)) s = .next s' := by
      rw [exec_process_number, processChannel_waiting _ hd ht]
      rfl
    have hd' : (s'.chans.get i).delayPending = true := by
      rw [State.withChan_get]
      rfl
    have hn' : (s'.chans.get i).delayTimer.toNat = n := by
      rw [State.withChan_get, Channel.withDelay, sub_one_eq _ ht, BitVec.toNat_ofNat]
      have := (s.chans.get i).delayTimer.isLt
      omega
    simp only [List.replicate_succ, execAll, hstep]
    rw [ih hd' hn', State.withChan_withChan, State.withChan_get, State.withChan_env, ticked_withDelay]
    rfl

/-! ### The row when it is due -/

/-- PROCESS with a row due is PLAY of that row with none buffered, then PROCESS. -/
theorem processChannel_plays (e : Env) {x : Cx} (hd : x.ch.delayPending = true) (ht : x.ch.delayTimer = 0)
    (hfx : ∀ f ∈ x.ch.delayEvent.fx, f.kind ≠ 0x10) :
    processChannel e x =
      processChannel e (playNote e x.ch.delayEvent { x with ch := { x.ch with delayPending := false } }) := by
  rw [processChannel_due e hd ht, playNote_plain e _ _ rfl fun f hf hk => absurd hk (hfx f hf), flushDelayed, if_pos hd]

/-- Settles O46: both runs tick alike, and the row that is then due is the one that was buffered. -/
theorem delayedRowPlaysAfterItsTicks : Obligations.DelayedRowPlaysAfterItsTicks := by
  intro s i c ch plain hd hfx
  let q := ticked s.env ch.delayTimer.toNat ch
  let a := s.withChan i (q.withDelay true 0)
  let b := s.withChan i (q.withDelay false 0)
  have ha : execAll (List.replicate ch.delayTimer.toNat (.process c)) s = .next a :=
    execAll_process_waiting i ch.delayTimer.toNat hd rfl
  have hb : execAll (List.replicate ch.delayTimer.toNat (.process c)) plain = .next b := by
    have hplain : plain.chans.get i = ch.withDelay false 0 := s.withChan_get i _
    rw [execAll_process_idle i _ (by rw [hplain]; rfl), hplain, ticked_withDelay, State.withChan_withChan]
    rfl
  have hput (ch' : Channel) (x : Cx) : (s.withChan i ch').putCx i x = s.putCx i x := s.putCx_putCx i ⟨ch', s.shr⟩ x
  have hacx : a.cx i = ⟨q.withDelay true 0, s.shr⟩ := s.putCx_cx' i ⟨_, s.shr⟩
  have hbcx : b.cx i = ⟨q.withDelay false 0, s.shr⟩ := s.putCx_cx' i ⟨_, s.shr⟩
  have hrow : (q.withDelay true 0).delayEvent = ch.delayEvent := ticked_delayEvent s.env _ ch
  refine ⟨a, b, s.putCx i (processChannel s.env (a.cx i)), ha, hb, ?_, ?_, ?_⟩
  · rw [State.withChan_withChan, State.withChan_get]
    rfl
  · exact (exec_process_number a i).trans (congrArg Host.Outcome.next (hput _ _))
  · have hplay : exec (.play c ch.delayEvent) b = .next (s.putCx i (playNote s.env ch.delayEvent (b.cx i))) :=
      congrArg Host.Outcome.next ((b.onCx_number i _).trans (hput _ _))
    simp only [execAll, hplay]
    rw [exec_process_number, State.putCx_cx', State.putCx_putCx, hbcx, hacx,
      processChannel_plays s.env rfl rfl (hrow ▸ hfx), hrow]
    rfl

end Sys2Proof.Machine
end

section
/-! The effect words: what each writes on the channel it addresses or on the shared resource, and which kinds are handled
(41_effects.md R190 to R219). -/

namespace Sys2Proof.Machine

/-! ### The words that write their channel whatever the continuous effect -/

/-- A channel's effect word, by the channel it leaves (30_encoding.md R100). -/
theorem next_onCh_number {s : State} {i : Fin 3} {f : Env → Channel → Channel} {ch : Channel}
    (h : f s.env (s.chans.get i) = ch) :
    (.next (s.onCh (BitVec.ofNat 4 i) f) : Host.Outcome State Fault Refusal) = .next (s.withChan i ch) := by
  rw [State.onCh_number, h]

theorem fxVibrato_eq (p : Byte) (ch : Channel) :
    fxVibrato p ch =
      { ch with
        vibSpeed := BitVec.ofNat 4 (p.toNat / 16)
        vibDepth := BitVec.ofNat 4 (p.toNat % 16)
        vibPhase := if p = 0 then 0 else ch.vibPhase } := by
  rw [fxVibrato, hi_eq, lo_eq]

theorem fxTremolo_eq (p : Byte) (ch : Channel) :
    fxTremolo p ch =
      { ch with
        tremSpeed := BitVec.ofNat 4 (p.toNat / 16)
        tremDepth := BitVec.ofNat 4 (p.toNat % 16)
        tremPhase := if p = 0 then 0 else ch.tremPhase } := by
  rw [fxTremolo, hi_eq, lo_eq]

/-- Settles O22: by the nibbles of the parameter. -/
theorem modulatorEffectsWrite : Obligations.ModulatorEffectsWrite := fun _ _ p =>
  ⟨next_onCh_number (fxVibrato_eq p _), next_onCh_number (fxTremolo_eq p _), fun _ _ => ⟨rfl, rfl⟩⟩

/-- The direction of FX_TRANSPOSE, bit 7 of its parameter (30_encoding.md R110). -/
theorem transposeDown_eq (p : Byte) : transposeDown p = decide (128 ≤ p.toNat) := by
  rw [transposeDown, getLsbD_eq_decide]
  exact decide_eq_decide.mpr (by omega)

theorem fxDelayedVol_eq (p : Byte) (ch : Channel) :
    fxDelayedVol p ch =
      { ch with voldTimer := BitVec.ofNat 5 (p.toNat / 16 + 1), newVol := BitVec.ofNat 7 (p.toNat % 16 * 8) } := by
  rw [fxDelayedVol, delayedVolumeTicks_eq, internalVolume_eq, lo_toNat]

theorem fxTranspose_eq (p : Byte) (ch : Channel) :
    fxTranspose p ch =
      { ch with
        transTimer := BitVec.ofNat 4 (p.toNat / 16 % 8 + 1)
        transAmount := BitVec.ofNat 4 (p.toNat % 16)
        transDown := decide (128 ≤ p.toNat) } := by
  rw [fxTranspose, transposeTicks_eq, lo_eq, transposeDown_eq]

/-- Settles O23: by the operands of the two packed parameters; the other three are stored as they are. -/
theorem storingEffectsWrite : Obligations.StoringEffectsWrite := by
  intro s i p c ch
  refine ⟨next_onCh_number rfl, next_onCh_number rfl, next_onCh_number (fxDelayedVol_eq p _),
    next_onCh_number (fxTranspose_eq p _), next_onCh_number rfl, fun e x kind hkind => ?_⟩
  fin_cases hkind <;> rfl

/-! ### The one-shot timers -/

theorem timerParamRejected_eq (p : Byte) : timerParamRejected p = !decide (p.toNat < 128) := by
  rw [← decide_not]
  exact decide_eq_decide.mpr Nat.not_lt.symm

/-- A timer word: its parameter is taken below 0x80, and rejected with the state unchanged otherwise. -/
theorem next_onCh_timer (s : State) (i : Fin 3) (p : Byte) (load : Byte → Channel → Channel) :
    (.next (s.onCh (BitVec.ofNat 4 i) fun _ ch => if timerParamRejected p then ch else load p ch) :
      Host.Outcome State Fault Refusal) =
      if p.toNat < 128 then .next (s.withChan i (load p (s.chans.get i))) else .next s := by
  rw [State.onCh_number, timerParamRejected_eq]
  by_cases h : p.toNat < 128 <;> simp [h]

/-- HandleEffect reports what a rejecting kind of the base table answers. -/
theorem handleEffect_rejecting (e : Env) (x : Cx) {f : Fx} {rejected : Bool} {ch : Channel}
    (hchip : chipEffect f x.shr = none) (hbase : baseEffect f e x.ch = if rejected then none else some ch) :
    (handleEffect e x f).2 = !rejected := by
  rw [handleEffect, hchip, hbase]
  cases rejected <;> rfl

theorem byte_add_one (p : Byte) : p + 1 = BitVec.ofNat 8 (p.toNat + 1) := by
  rw [BitVec.ofNat_add, BitVec.ofNat_toNat, BitVec.setWidth_eq]
  rfl

theorem fxNoteCut_eq (p : Byte) (ch : Channel) :
    fxNoteCut p ch = { ch with cutTimer := BitVec.ofNat 8 (p.toNat + 1) } := by
  rw [fxNoteCut, byte_add_one]

theorem fxNoteRelease_eq (p : Byte) (ch : Channel) :
    fxNoteRelease p ch = { ch with relTimer := BitVec.ofNat 8 (p.toNat + 1) } := by
  rw [fxNoteRelease, byte_add_one]

/-- Settles O24: by whether the parameter is rejected. -/
theorem timerEffectsLoadOrReject : Obligations.TimerEffectsLoadOrReject := by
  intro s i p c ch
  have hhandled : decide (p.toNat < 128) = !timerParamRejected p := by rw [timerParamRejected_eq, Bool.not_not]
  refine ⟨?_, ?_, fun e x => ?_⟩
  · rw [← fxNoteCut_eq]
    exact next_onCh_timer s i p fxNoteCut
  · rw [← fxNoteRelease_eq]
    exact next_onCh_timer s i p fxNoteRelease
  · rw [hhandled]
    exact ⟨handleEffect_rejecting e x rfl rfl, handleEffect_rejecting e x rfl rfl⟩

/-! ### The chip's table -/

/-- A chip effect's word, by the shared resource it leaves. -/
theorem next_onShr_number {s : State} {i : Fin 3} {f : Shared → Shared} {g : Shared} (h : f s.shr = g) :
    (.next (s.onShr (BitVec.ofNat 4 i) f) : Host.Outcome State Fault Refusal) = .next { s with shr := g } := by
  rw [State.onShr_number, h]

/-- Two bytes put together, as a number. -/
theorem byteAppend_eq (a b : Byte) : (a ++ b : Word) = BitVec.ofNat 16 (a.toNat * 256 + b.toNat) :=
  BitVec.eq_of_toNat_eq <| by
    rw [byteAppend_toNat, BitVec.toNat_ofNat]
    omega

/-- The low bits of a word, as a number. -/
theorem extractLsb'_zero_eq {w : Nat} (n : Nat) (b : BitVec w) : b.extractLsb' 0 n = BitVec.ofNat n (b.toNat % 2 ^ n) :=
  BitVec.eq_of_toNat_eq <| by
    rw [BitVec.extractLsb'_toNat, Nat.shiftRight_zero, BitVec.toNat_ofNat, Nat.mod_mod]

theorem fxEnvLo_eq (p : Byte) (g : Shared) :
    fxEnvLo p g = { g with envPeriod := BitVec.ofNat 16 (g.envPeriod.toNat / 256 * 256 + p.toNat) } := by
  have hhigh : (g.envPeriod.extractLsb' 8 8).toNat = g.envPeriod.toNat / 256 := hiByte_toNat g.envPeriod
  rw [fxEnvLo, byteAppend_eq, hhigh]

theorem fxEnvHi_eq (p : Byte) (g : Shared) :
    fxEnvHi p g = { g with envPeriod := BitVec.ofNat 16 (p.toNat * 256 + g.envPeriod.toNat % 256) } := by
  rw [fxEnvHi, byteAppend_eq, BitVec.extractLsb'_toNat, Nat.shiftRight_zero]

theorem fxEnvShape_eq (p : Byte) (g : Shared) :
    fxEnvShape p g = { g with envShape := BitVec.ofNat 4 (p.toNat % 16), update := true } := by
  rw [fxEnvShape, extractLsb'_zero_eq]
  rfl

theorem fxNoise_eq (p : Byte) (g : Shared) :
    fxNoise p g = { g with noisePeriod := BitVec.ofNat 5 (p.toNat % 32) } := by
  rw [fxNoise, extractLsb'_zero_eq]
  rfl

/-- The chip's table has the kinds 0x80 to 0x83 (41_effects.md R215). -/
theorem chipEffect_handles_iff (f : Fx) (g : Shared) :
    (∃ g', chipEffect f g = some g') ↔ 0x80 ≤ f.kind.toNat ∧ f.kind.toNat ≤ 0x83 := by
  unfold chipEffect
  split
  case h_5 h80 h81 h82 h83 =>
    rw [imp_false] at h80 h81 h82 h83
    exact iff_of_false nofun (by omega)
  all_goals exact iff_of_true ⟨_, rfl⟩ (by omega)

/-- Settles O25: by the bytes and bits each effect replaces, and the kinds of the chip's table. -/
theorem chipEffectsWriteTheSharedResource : Obligations.ChipEffectsWriteTheSharedResource := fun _ _ p =>
  ⟨next_onShr_number (fxEnvLo_eq p _), next_onShr_number (fxEnvHi_eq p _), next_onShr_number (fxEnvShape_eq p _),
    next_onShr_number (fxNoise_eq p _), fun kind g => chipEffect_handles_iff ⟨kind, p⟩ g⟩

/-! ### The kinds of neither table -/

/-- Settles O26: the two words change no channel, and HandleEffect finds the kinds in neither table. -/
theorem emptyAndUnknownEffectsChangeNothing : Obligations.EmptyAndUnknownEffectsChangeNothing :=
  ⟨fun s c _ => congrArg Host.Outcome.next (s.onCh_id c), fun s c _ _ => congrArg Host.Outcome.next (s.onCh_id c),
    fun e x f hkind => handleEffect_unknown e x f (hkind.imp_left (congrArg BitVec.toNat))⟩

/-! ### The continuous-effect slot -/

/-- Entering with a kind other than the arpeggio clears the arpeggio phase (41_effects.md R203). -/
theorem setEffect_of_ne {kind : Eff} (h : kind ≠ .arpeggio) (p : Byte) (ch : Channel) :
    setEffect kind p ch = { ch with arpPhase := 0, eff := kind, effParam := p } := by
  rw [setEffect, if_pos (.inl h)]

/-- The arpeggio phase survives from arpeggio to arpeggio only (41_effects.md R203). -/
theorem setEffect_arpeggio (p : Byte) (ch : Channel) :
    setEffect .arpeggio p ch =
      { ch with arpPhase := if ch.eff = .arpeggio then ch.arpPhase else 0, eff := .arpeggio, effParam := p } := by
  by_cases h : ch.eff = .arpeggio <;> simp [setEffect, h]

/-- A slot command by what it leaves when its parameter is 0 and when it is not, each up to the counter. -/
theorem slotCommand_eq {kind : Eff} {p : Byte} {e : Env} {enter : Channel → Channel} {ch : Channel}
    {exited entered : Nat → Channel} (hexit : p = 0 → ∃ k, exitEffect e ch = exited k)
    (henter : ∃ k, enter (setEffect kind p ch) = entered k) :
    ∃ k, slotCommand kind p e enter ch = if p = 0 then exited k else entered k := by
  unfold slotCommand
  split
  · exact hexit ‹_›
  · exact henter

/-- Settles O27: by what SetEffect and ExitEffect leave; the arpeggio exits from the channel with its parameter written. -/
theorem unaimedSlotEffectsEnterAndExit : Obligations.UnaimedSlotEffectsEnterAndExit := by
  intro s i p c ch exited
  have hexit : p = 0 → ∃ k, exitEffect s.env ch = exited k := fun _ => exitEffect_eq s.env ch
  have hporta (kind : Eff) (h : kind ≠ .arpeggio) :
      ∃ k, slotCommand kind p s.env (fun x => { x with portaSpeed := p }) ch =
        if p = 0 then exited k else { ch with arpPhase := 0, eff := kind, effParam := p, portaSpeed := p } :=
    slotCommand_eq hexit ⟨0, by rw [setEffect_of_ne h]⟩
  have harp : ∃ k, fxArpeggio p s.env ch =
      if p = 0 then { exited k with arpParam := 0 }
      else { ch with
        arpParam := p, arpPhase := if ch.eff = .arpeggio then ch.arpPhase else 0, eff := .arpeggio, effParam := p } := by
    refine slotCommand_eq ?_ ⟨0, setEffect_arpeggio p { ch with arpParam := p }⟩
    rintro rfl
    exact exitEffect_eq s.env { ch with arpParam := 0 }
  refine ⟨(hporta .portaUp nofun).imp fun _ => next_onCh_number, (hporta .portaDown nofun).imp fun _ => next_onCh_number,
    harp.imp fun _ => next_onCh_number, fun e x kind hkind => ?_⟩
  fin_cases hkind <;> rfl

/-- Aiming at the note: the target, up to the counter (41_effects.md R206). -/
theorem aimAtNote_eq (e : Env) (ch : Channel) :
    ∃ k, aimAtNote e ch = { ch with portaTo := min (triggerNote e ch ch.note.toNat) 4095, free := k } := by
  obtain ⟨k, hk⟩ := drawn_eq ch e
  exact ⟨k, by rw [aimAtNote, hk, setTarget_eq]⟩

/-- A semitone slide moves the note to the clamped number and aims there (41_effects.md R206). -/
theorem aimAtNote_setNote (e : Env) (ch : Channel) (speed : Byte) {n : Int} {m : Nat} (h : max 0 (min n 255) = m) :
    ∃ k, aimAtNote e { ch.setNote n with portaSpeed := speed } =
      { ch with
        note := BitVec.ofNat 8 m, portaSpeed := speed, portaTo := min (triggerNote e ch m) 4095, free := k } := by
  have hnote : noteNumber n = BitVec.ofNat 8 m := by rw [noteNumber_eq, h, Int.toNat_natCast]
  have hm : (BitVec.ofNat 8 m).toNat = m := by
    rw [BitVec.toNat_ofNat]
    omega
  obtain ⟨k, hk⟩ := aimAtNote_eq e { ch with note := BitVec.ofNat 8 m, portaSpeed := speed }
  refine ⟨k, ?_⟩
  rw [Channel.setNote, hnote, hk, hm]
  rfl

/-- Settles O28: by the kind's branch of SetupSlide. -/
theorem aimedSlotEffectsSetTheirTarget : Obligations.AimedSlotEffectsSetTheirTarget := by
  intro s i p c ch target exited up down speed
  have hexit : p = 0 → ∃ k, exitEffect s.env ch = exited k := fun _ => exitEffect_eq s.env ch
  have hlo : ((lo p).toNat : Int) = (p.toNat % 16 : Nat) := by rw [lo_toNat]
  have hnote := ch.note.isLt
  have hup : max 0 (min ((ch.note.toNat : Int) + (lo p).toNat) 255) = up := by omega
  have hdown : max 0 (min ((ch.note.toNat : Int) - (lo p).toNat) 255) = down := by omega
  have hspeed : slideSpeed p = speed := slideSpeed_eq p
  refine ⟨(slotCommand_eq hexit ?_).imp fun _ => next_onCh_number, (slotCommand_eq hexit ?_).imp fun _ => next_onCh_number,
    (slotCommand_eq hexit ?_).imp fun _ => next_onCh_number, fun e x kind hkind => ?_⟩
  · rw [setEffect_of_ne (kind := .portamento) nofun]
    exact aimAtNote_eq s.env { ch with arpPhase := 0, eff := .portamento, effParam := p, portaSpeed := p }
  · rw [setEffect_of_ne (kind := .slideUp) nofun, ← hspeed]
    exact aimAtNote_setNote s.env { ch with arpPhase := 0, eff := .slideUp, effParam := p } _ hup
  · rw [setEffect_of_ne (kind := .slideDown) nofun, ← hspeed]
    exact aimAtNote_setNote s.env { ch with arpPhase := 0, eff := .slideDown, effParam := p } _ hdown
  · fin_cases hkind <;> rfl

end Sys2Proof.Machine
end

section
/-! The steps of PROCESS (42_tick_update.md): the continuous effects, the countdowns, their order, and what an idle
channel leaves of them. -/

namespace Sys2Proof.Machine

/-- A played note's period, held at PERIOD_MAX and up to the counter (43_period_volume.md R260; log 8). -/
theorem playPeriod_nat (ch : Channel) (e : Env) (n : Int) :
    ∃ k, ch.playPeriod e n = { ch with period := min (triggerNote e ch n) 4095, free := k } := by
  obtain ⟨k, hk⟩ := playPeriod_eq ch e n 0
  exact ⟨k, by rw [hk, held_nat]⟩

/-! ### Step 8, the continuous effects -/

/-- The three notes of an arpeggio (42_tick_update.md R241). -/
theorem arpeggioNote_eq (ch : Channel) :
    arpeggioNote ch =
      ((match ch.arpPhase with
        | 0 => ch.note.toNat
        | 1 => ch.note.toNat + ch.effParam.toNat / 16
        | 2 => ch.note.toNat + ch.effParam.toNat % 16 : Nat) : Int) := by
  rw [arpeggioNote, hi_toNat, lo_toNat]
  generalize ch.arpPhase = phase
  match phase with
  | 0 => rfl
  | 1 => rfl
  | 2 => rfl

theorem updateArpeggio_eq (e : Env) (ch : Channel) :
    ∃ k, updateArpeggio e ch =
      { ch with
        period := min (triggerNote e ch (arpeggioNote ch)) 4095, arpPhase := ch.arpPhase + 1, free := k } := by
  obtain ⟨k, hk⟩ := playPeriod_nat ch e (arpeggioNote ch)
  exact ⟨k, by rw [updateArpeggio, hk]⟩

/-- The chip is period-based: a higher pitch is a smaller period (41_effects.md R204). -/
theorem upSign_eq : upSign = -1 := rfl

/-- Up on a period-based chip is down in the period, and it stops at 0 (42_tick_update.md R244). -/
theorem setPeriod_portaUp (ch : Channel) (speed : Nat) :
    ch.setPeriod (ch.period + upSign * speed) = { ch with period := min (ch.period - speed) 4095 } := by
  rw [setPeriod_eq, upSign_eq]
  congr 1
  omega

theorem setPeriod_portaDown (ch : Channel) (speed : Nat) :
    ch.setPeriod (ch.period - upSign * speed) = { ch with period := min (ch.period + speed) 4095 } := by
  rw [setPeriod_eq, upSign_eq]
  congr 1
  omega

/-- Settles O43: by the kind in the slot; the aimed kinds by their one step, which the semitone slides test for the
target after it. -/
theorem continuousEffectStep : Obligations.ContinuousEffectStep := by
  intro e ch speed stepped slid chord
  have hstep : stepToTarget ch = { ch with period := stepped } := stepToTarget_eq ch
  have hslid : autoClear (stepToTarget ch) = slid := by rw [hstep]; rfl
  have hchord : arpeggioNote ch = chord := arpeggioNote_eq ch
  obtain ⟨k, harp⟩ := updateArpeggio_eq e ch
  have hup := setPeriod_portaUp ch speed
  have hdown := setPeriod_portaDown ch speed
  refine ⟨k, ?_⟩
  unfold updateEffects
  cases heff : ch.eff with
  | none => rfl
  | arpeggio => rwa [hchord, heff] at harp
  | portamento => rwa [heff] at hstep
  | slideUp => exact hslid
  | slideDown => exact hslid
  | portaUp => rwa [heff] at hup
  | portaDown => rwa [heff] at hdown

/-! ### Steps 1 to 7 -/

theorem updateDelay_eq (e : Env) (x : Cx) :
    updateDelay e x =
      if x.ch.delayPending = false then x
      else if x.ch.delayTimer = 0 then handleNoteData e x.ch.delayEvent ⟨{ x.ch with delayPending := false }, x.shr⟩
      else ⟨{ x.ch with delayTimer := BitVec.ofNat 8 (x.ch.delayTimer.toNat - 1) }, x.shr⟩ := by
  by_cases hd : x.ch.delayPending = true
  · have hn : ¬x.ch.delayPending = false := by simp [hd]
    rw [updateDelay, if_pos hd, if_neg hn]
    by_cases ht : x.ch.delayTimer = 0
    · rw [if_pos ht, if_pos ht, flushDelayed, if_pos hd]
    · rw [if_neg ht, if_neg ht, sub_one_eq _ ht]
  · rw [updateDelay, if_neg hd, if_pos (Bool.eq_false_of_not_eq_true hd)]

/-- A transpose that fires: the note is moved, and the period is the moved note's (42_tick_update.md R237). -/
theorem updateTranspose_fires (e : Env) {ch : Channel} {moved : Nat} (ht : ch.transTimer = 1)
    (hm : noteNumber (transposedNote ch) = BitVec.ofNat 8 moved) (hlt : moved < 256) :
    ∃ k, updateTranspose e ch =
      { ch with
        transTimer := 0, note := BitVec.ofNat 8 moved, period := min (triggerNote e ch moved) 4095, free := k } := by
  have hnat : (BitVec.ofNat 8 moved).toNat = moved := by rw [BitVec.toNat_ofNat, Nat.mod_eq_of_lt hlt]
  obtain ⟨k, hk⟩ := playPeriod_nat { ch with transTimer := 0, note := BitVec.ofNat 8 moved } e moved
  refine ⟨k, ?_⟩
  rw [updateTranspose_eq, ht, hm, hnat]
  exact hk

/-- One step of a phase, modulo 64 (42_tick_update.md R239). -/
theorem phase_add_speed (p : BitVec 6) (speed : BitVec 4) :
    p + speed.setWidth 6 = BitVec.ofNat 6 ((p.toNat + speed.toNat) % 64) := by
  have := speed.isLt
  apply BitVec.eq_of_toNat_eq
  rw [BitVec.toNat_add, BitVec.toNat_setWidth, BitVec.toNat_ofNat]
  omega

/-- Settles O42: each step by its own equation; the transpose by its countdown, for the counter when it fires. -/
theorem countdownSlideAndPhaseSteps : Obligations.CountdownSlideAndPhaseSteps := by
  intro e x ch
  refine ⟨updateDelay_eq e x, updateNoteCut_eq ch, ?_, updateDelayedVolume_eq ch, ?_, updateVolumeSlide_eq ch, ?_⟩
  · rw [updateNoteRelease_eq, releaseNote_eq]
  · intro moved
    have hlt : moved < 256 := by
      have := ch.note.isLt
      dsimp only [moved]
      split <;> omega
    by_cases h0 : ch.transTimer = 0
    · exact ⟨0, by rw [updateTranspose_eq, if_pos h0, if_pos h0]⟩
    by_cases h1 : ch.transTimer = 1
    · obtain ⟨k, hk⟩ := updateTranspose_fires e h1 (noteNumber_transposed ch) hlt
      exact ⟨k, by rw [if_neg h0, if_pos h1, hk]⟩
    · exact ⟨0, by rw [updateTranspose_eq, if_neg h0, if_neg h1, if_neg h0, if_neg h1]⟩
  · rw [updateVibratoTremolo, phase_add_speed, phase_add_speed]

/-! ### The nine steps -/

theorem updateHandler_eq (e : Env) (ch : Channel) :
    updateHandler e ch = if ch.handler = none then ch else updateInstrument e ch := by
  unfold updateHandler
  cases ch.handler <;> rfl

/-- Settles O41: PROCESS of a channel of the chip is ProcessChannel on it, whose last step asks for the handler. -/
theorem processRunsItsNineStepsInOrder : Obligations.ProcessRunsItsNineStepsInOrder := by
  intro s i e x1 c2 c3 c4 c5 c6 c7 c8
  have hlast : processSteps e x1.ch = if c8.handler = none then c8 else updateInstrument e c8 := updateHandler_eq e c8
  rw [← hlast]
  exact exec_process_number s i

/-! ### The idle channel -/

theorem updateVolumeSlide_idle {ch : Channel} (h : Idle ch) : updateVolumeSlide ch = ch := by
  have hmax : min ch.vol.toNat 127 = ch.vol.toNat := by have := ch.vol.isLt; omega
  have hvol : BitVec.ofNat 7 (min (ch.vol.toNat - ch.volSlide.toNat % 16 + ch.volSlide.toNat / 16) 127) = ch.vol := by
    simp [h.slide, hmax]
  rw [updateVolumeSlide_eq, hvol]

theorem updateVibratoTremolo_idle {ch : Channel} (h : Idle ch) : updateVibratoTremolo ch = ch := by
  have hvib : ch.vibPhase + ch.vibSpeed.setWidth 6 = ch.vibPhase := by simp [h.vib]
  have htrem : ch.tremPhase + ch.tremSpeed.setWidth 6 = ch.tremPhase := by simp [h.trem]
  rw [updateVibratoTremolo, hvib, htrem]

/-- On an idle channel PROCESS is its step 8 and then its step 9 (42_tick_update.md R246). -/
theorem processSteps_idle (e : Env) {ch : Channel} (h : Idle ch) :
    processSteps e ch = updateHandler e (updateEffects e ch) := by
  have hcut : updateNoteCut ch = ch := if_pos h.cut
  have hrel : updateNoteRelease e ch = ch := if_pos h.rel
  have hvold : updateDelayedVolume ch = ch := if_pos h.vold
  have htrans : updateTranspose e ch = ch := if_pos h.trans
  rw [processSteps, hcut, hrel, hvold, htrans, updateVolumeSlide_idle h, updateVibratoTremolo_idle h]

/-- With an empty effect slot nothing is left to do. -/
theorem processSteps_idle_none (e : Env) {ch : Channel} (h : Idle ch) (he : ch.eff = .none) :
    processSteps e ch = ch := by
  rw [processSteps_idle e h, updateEffects, he, updateHandler_eq, if_pos h.handler]

/-- Settles O44: no row is buffered, and steps 2 to 9 leave the channel as it is. -/
theorem idleProcessIsTheIdentity : Obligations.IdleProcessIsTheIdentity := by
  intro s i h he
  rw [exec_process_number, processChannel_idle _ h.delay]
  have hsame : s.withChan i (processSteps s.env (s.chans.get i)) = s := by
    rw [processSteps_idle_none s.env h he, State.withChan_self]
  exact congrArg Host.Outcome.next hsame

end Sys2Proof.Machine
end

section
/-! A portamento on an otherwise idle channel: where the period stands after any number of ticks, and when it reaches
its target (42_tick_update.md R242). -/

namespace Sys2Proof.Machine

/-- A period moved by `d` toward `goal`, and not past it. -/
def toward (goal d p : Nat) : Nat := if p ≤ goal then min (p + d) goal else max (p - d) goal

theorem toward_zero (goal p : Nat) : toward goal 0 p = p := by
  unfold toward
  split_ifs <;> omega

/-- A move between two periods in range stays in range. -/
theorem toward_le {goal p m : Nat} (d : Nat) (hgoal : goal ≤ m) (hp : p ≤ m) : toward goal d p ≤ m := by
  unfold toward
  split_ifs <;> omega

/-- Two moves toward the goal are one. -/
theorem toward_toward (goal d d' p : Nat) : toward goal d' (toward goal d p) = toward goal (d + d') p := by
  unfold toward
  split_ifs <;> omega

/-- The goal is reached when the move is at least the distance. -/
theorem toward_eq_goal_iff (goal d p : Nat) :
    toward goal d p = goal ↔ (if p ≤ goal then goal - p else p - goal) ≤ d := by
  unfold toward
  split_ifs <;> omega

/-- With a target in range, a tick of the portamento moves the period toward it by the speed. -/
theorem stepToTarget_toward {ch : Channel} (hgoal : 0 < ch.portaTo) (hmax : ch.portaTo ≤ 4095)
    (hperiod : ch.period ≤ 4095) :
    stepToTarget ch = { ch with period := toward ch.portaTo ch.portaSpeed.toNat ch.period } := by
  rw [stepToTarget_eq]
  congr 1
  unfold toward
  split_ifs <;> omega

/-- Idleness does not speak of the period. -/
theorem Idle.withPeriod {ch : Channel} (h : Idle ch) (p : Nat) : Idle { ch with period := p } := { h with }

/-- `n` ticks of a portamento alone are one move of `n` times the speed. -/
theorem ticked_portamento (e : Env) (n : Nat) {ch : Channel} (h : Idle ch) (he : ch.eff = .portamento)
    (hgoal : 0 < ch.portaTo) (hmax : ch.portaTo ≤ 4095) (hperiod : ch.period ≤ 4095) :
    ticked e n ch = { ch with period := toward ch.portaTo (n * ch.portaSpeed.toNat) ch.period } := by
  induction n generalizing ch with
  | zero =>
    rw [Nat.zero_mul, toward_zero]
    rfl
  | succ n ih =>
    let p := toward ch.portaTo ch.portaSpeed.toNat ch.period
    have hp : p ≤ 4095 := toward_le _ hmax hperiod
    have hstep : processSteps e ch = { ch with period := p } := by
      have heffects : updateEffects e ch = stepToTarget ch := by rw [updateEffects, he]
      rw [processSteps_idle e h, heffects, stepToTarget_toward hgoal hmax hperiod, updateHandler_eq, if_pos h.handler]
    calc ticked e (n + 1) ch = ticked e n { ch with period := p } := congrArg (ticked e n) hstep
      _ = { ch with period := toward ch.portaTo (n * ch.portaSpeed.toNat) p } := ih (h.withPeriod p) he hgoal hmax hp
      _ = _ := by rw [toward_toward, Nat.add_comm, ← Nat.succ_mul]

/-- Settles O45: by the one move that the ticks are together, and the rounded-up division. -/
theorem portamentoConvergesWithoutOvershoot : Obligations.PortamentoConvergesWithoutOvershoot := by
  intro s i n ch speed goal reached distance h he hspeed hgoal hmax hperiod
  have hreached : reached = toward goal (n * speed) ch.period := rfl
  refine ⟨?_, ?_⟩
  · rw [execAll_process_idle i n h.delay, ticked_portamento s.env n h he hgoal hmax hperiod, hreached]
  · calc reached = goal ↔ distance ≤ n * speed := toward_eq_goal_iff goal (n * speed) ch.period
      _ ↔ distance ⌈/⌉ speed ≤ n := by rw [ceilDiv_le_iff_le_mul hspeed, Nat.mul_comm]
      _ ↔ (distance + speed - 1) / speed ≤ n := by rw [Nat.ceilDiv_eq_add_pred_div]

end Sys2Proof.Machine
end

section
/-! The datapath as the rules write it: the terms of the calculated period in table mode, and the calculated volume
(43_period_volume.md R261 to R267). -/

namespace Sys2Proof.Machine

/-! ### The terms of the calculated period -/

theorem fineOffset_eq (ch : Channel) : fineOffset ch = 128 - ch.finePitch.toNat := rfl

/-- The wheel's lower neighbour of a note stops at note 0 (43_period_volume.md R263). -/
theorem noteNumber_wheelDown (n : Byte) : noteNumber (n.toNat - cfg.wheelRange) = BitVec.ofNat 8 (n.toNat - 6) := by
  have hrange : (cfg.wheelRange : Int) = 6 := rfl
  rw [noteNumber_eq]
  refine congrArg (BitVec.ofNat 8) ?_
  omega

/-- The wheel's upper neighbour of a note stops at note 255 (43_period_volume.md R263). -/
theorem noteNumber_wheelUp (n : Byte) :
    noteNumber (n.toNat + cfg.wheelRange) = BitVec.ofNat 8 (min (n.toNat + 6) 255) := by
  have hrange : (cfg.wheelRange : Int) = 6 := rfl
  rw [noteNumber_eq]
  refine congrArg (BitVec.ofNat 8) ?_
  omega

/-- The distance in period that a full deflection of the wheel moves, to the side where the wheel stands
(43_period_volume.md R263). -/
def wheelSpan (m : Memory) (ch : Channel) : Int :=
  let entry (n : Nat) : Int := m.noteTable (BitVec.ofNat 8 n)
  if ch.pitchWheel < 0 then entry ch.note.toNat - entry (ch.note.toNat - 6)
  else entry (min (ch.note.toNat + 6) 255) - entry ch.note.toNat

/-- A wheel at rest is no case of its own: the interpolation gives 0 there. -/
theorem wheelOffset_eq (m : Memory) (ch : Channel) :
    wheelOffset m ch = (wheelSpan m ch * ch.pitchWheel).tdiv 511 := by
  have hmax : cfg.wheelMax = 511 := rfl
  have hnote : BitVec.ofNat 8 ch.note.toNat = ch.note := by rw [BitVec.ofNat_toNat, BitVec.setWidth_eq]
  unfold wheelOffset
  split
  next hrest => rw [hrest, Int.mul_zero, Int.zero_tdiv]
  next => simp only [wheelSpan, noteNumber_wheelDown, noteNumber_wheelUp, hnote, hmax]

/-- CalculatePeriod in table mode, in the terms of R261. -/
theorem calculatePeriod_table {e : Env} (h : e.cfgReg.linearPitch = false) (ch : Channel) :
    (calculatePeriod e ch : Int) =
      max 0 (min (ch.period - vibOffset ch.vibDepth ch.vibPhase + fineOffset ch + wheelOffset e.mem ch) 4095) := by
  rw [calculatePeriod, if_neg (by rw [h]; decide), clamp_eq _ _ _ (by decide), Int.toNat_of_nonneg (le_max_left _ _)]
  rfl

/-- Settles O54, by the terms of R261: the clamped sum, and the wheel offset as one interpolation. -/
theorem calculatedPeriodInTableMode : Obligations.CalculatedPeriodInTableMode := by
  intro e ch entry span vibrato htable
  rw [calculatePeriod_table htable, fineOffset_eq, wheelOffset_eq]
  rfl

/-! ### The calculated volume -/

/-- The 4-bit note volume (43_period_volume.md R266). -/
theorem fourBitVolume_eq (v : BitVec 7) : fourBitVolume v = v.toNat / 8 := Nat.shiftRight_eq_div_pow v.toNat 3

theorem scaledVolume_eq (ch : Channel) :
    scaledVolume ch =
      max 0 (min ((ch.instVol.toInt * (ch.vol.toNat / 8 : Nat)).tdiv 15 - tremAtten ch.tremDepth ch.tremPhase) 15) := by
  rw [scaledVolume, clamp_eq _ _ _ (by decide), fourBitVolume_eq]
  rfl

theorem neverSilent_iff (e : Env) (ch : Channel) :
    neverSilent e ch = true ↔ e.cfgReg.cutSilent = false ∧ ch.handler ≠ none ∧ 0 < ch.vol.toNat / 8 := by
  rw [neverSilent, fourBitVolume_eq, Bool.and_eq_true, Bool.and_eq_true, Bool.not_eq_true', Option.isSome_iff_ne_none,
    decide_eq_true_iff, and_assoc]

/-- CalculateVolume over the integers, where the clamped product is its own value. -/
theorem calculateVolume_cast (e : Env) (ch : Channel) :
    (calculateVolume e ch : Int) =
      if ch.gate = false then 0
      else if scaledVolume ch = 0 ∧ neverSilent e ch = true then 1
      else scaledVolume ch := by
  obtain ⟨hnonneg, -⟩ := scaledVolume_bounds ch
  rw [calculateVolume, Nat.cast_ite, Nat.cast_ite, Int.toNat_of_nonneg hnonneg]
  rfl

/-- Settles O55, by the clamped product and the conditions of the never-silent policy. -/
theorem calculatedVolume : Obligations.CalculatedVolume := by
  intro e ch noteVolume tremolo v
  have hscaled : scaledVolume ch = v := scaledVolume_eq ch
  rw [calculateVolume_cast, hscaled]
  simp only [neverSilent_iff, noteVolume]

end Sys2Proof.Machine
end

section
/-! The instrument operations on the slots of a handler: load, trigger and release (44_sequence_engine.md R288, R289,
R291). -/

namespace Sys2Proof.Machine

/-- TriggerInstrument on a channel with a handler (R289). -/
theorem triggerInstrument_some (m : Memory) {ch : Channel} {h : Handler} (hh : ch.handler = some h) :
    triggerInstrument m ch =
      { ch with
        handler := some { h.mapSlots (triggerSlot m) with noteOff := 0, pitchOff := 0 }
        duty := ch.defDuty
        instVol := if ch.gate = true then 15 else ch.instVol } := by
  rw [triggerInstrument, hh]
  rfl

/-- ReleaseInstrument on a channel with a handler: only the first release reaches the slots (R291). -/
theorem releaseInstrument_some (m : Memory) {ch : Channel} {h : Handler} (hh : ch.handler = some h) :
    releaseInstrument m ch =
      { ch with handler := some (if ch.release = true then h else h.mapSlots (releaseSlot m)) } := by
  unfold releaseInstrument
  split
  · rw [← hh]
  · rw [hh]
    rfl

/-- Settles O35: each operation acts on every slot alike, by what it does to one. -/
theorem instrumentOperationsOnSlots : Obligations.InstrumentOperationsOnSlots := by
  refine ⟨fun m en h k => ⟨?_, rfl, rfl, rfl⟩, fun m ch h hh => ?_, fun m ch h hh => ?_⟩
  · rw [loadInstrument, Handler.mapSlots_get, loadSlot_eq]
    rfl
  · refine ⟨_, triggerInstrument_some m hh, rfl, rfl, rfl, fun k => ?_⟩
    exact (Handler.mapSlots_get h (triggerSlot m) k).trans (triggerSlot_eq m k _)
  · refine ⟨_, releaseInstrument_some m hh, ?_⟩
    cases hr : ch.release with
    | true => exact ⟨rfl, rfl, rfl, fun k => by cases (h.slots.get k).bound <;> simp⟩
    | false =>
      refine ⟨rfl, rfl, rfl, fun k => ?_⟩
      simp only [true_and]
      exact (Handler.mapSlots_get h (releaseSlot m) k).trans (releaseSlot_eq m k _)

end Sys2Proof.Machine
end

section
/-! Step on its own, and the paths that many steps take through a sequence (44_sequence_engine.md R311, R312). -/

namespace Sys2Proof.Machine

/-- Settles O50: by the branches with the points spelled out; the bound is the last item's case. -/
theorem stepBranchesInPriorityOrder : Obligations.StepBranchesInPriorityOrder := by
  intro q releasing sl n l r p next
  refine ⟨?_, fun hst hp => (stepSlot_pos q releasing sl hp).2 hst⟩
  have hrelease : p = r + 1 ↔ sl.pos = r := Nat.add_right_cancel_iff
  simp only [hrelease]
  exact stepSlot_eq q releasing sl

/-! ### One step of a running slot, by where its cursor stands -/

/-- A running slot with its cursor on item `p`. -/
abbrev Slot.on (b : BitVec 7) (p : Nat) : Slot := ⟨some b, .running, p⟩

section
variable {q : SeqData} {releasing : Bool} {b : BitVec 7} {p : Nat}

/-- Before the last item the cursor moves on, unless it stands on the release point of a channel not releasing. -/
theorem stepSlot_advance (hp : p + 1 < q.items.length) (h : p ≠ q.release.toNat ∨ releasing = true) :
    stepSlot q releasing (.on b p) = .on b (p + 1) := by
  have hn : ¬ q.items.length ≤ p + 1 := Nat.not_le.mpr hp
  rcases h with hr | rfl
  · rw [stepSlot_eq, if_neg (not_or.mpr ⟨fun h => hr h.2, hn⟩)]
  · have hloop : ¬ (q.loop.toNat < q.items.length ∧ q.release.toNat < q.items.length ∧
        q.loop.toNat < q.release.toNat ∧ true = false) := fun h => nomatch h.2.2.2
    rw [stepSlot_eq, if_neg hloop, if_neg hn, if_neg (show ¬ true = false from nofun), ite_self]

/-- Branch (a): from the release point back to a loop point before it. -/
theorem stepSlot_loop_before_release (hl : q.loop.toNat < q.release.toNat) (hr : q.release.toNat < q.items.length) :
    stepSlot q false (.on b q.release.toNat) = .on b q.loop.toNat := by
  rw [stepSlot_eq, if_pos (.inl ⟨hr, rfl⟩), if_pos ⟨hl.trans hr, hr, hl, rfl⟩]

/-- Branch (b) with a loop: from the last item back to the loop point. -/
theorem stepSlot_loop_at_end (hp : p + 1 = q.items.length) (hl : q.loop.toNat < q.items.length)
    (hr : q.items.length ≤ q.release.toNat ∨ q.release.toNat ≤ q.loop.toNat) :
    stepSlot q releasing (.on b p) = .on b q.loop.toNat := by
  rw [stepSlot_eq, if_pos (.inr hp.ge), if_neg (by omega), if_pos hp.ge, if_pos ⟨hl, hr⟩]

/-- Branch (b) without a loop: the last item is the end. -/
theorem stepSlot_end (hp : p + 1 = q.items.length)
    (h : q.items.length ≤ q.loop.toNat ∨
      q.loop.toNat < q.release.toNat ∧ q.release.toNat < q.items.length ∧ releasing = true) :
    stepSlot q releasing (.on b p) = ⟨some b, .ended, q.items.length⟩ := by
  have hloop : ¬ (q.loop.toNat < q.items.length ∧ q.release.toNat < q.items.length ∧
      q.loop.toNat < q.release.toNat ∧ releasing = false) := by
    rintro ⟨hl, -, -, rfl⟩
    rcases h with h | ⟨-, -, h⟩
    · omega
    · cases h
  rw [stepSlot_eq, if_pos (.inr hp.ge), if_neg hloop, if_pos hp.ge, if_neg (by omega), hp]

/-- Branch (c): the cursor holds on the release point. -/
theorem stepSlot_hold (hl : q.items.length ≤ q.loop.toNat ∨ q.release.toNat ≤ q.loop.toNat)
    (hr : q.release.toNat + 1 < q.items.length) :
    stepSlot q false (.on b q.release.toNat) = .on b q.release.toNat := by
  have hn : ¬ q.items.length ≤ q.release.toNat + 1 := Nat.not_le.mpr hr
  rw [stepSlot_eq, if_pos (.inl ⟨Nat.lt_of_succ_lt hr, rfl⟩), if_neg (by omega), if_neg hn, if_pos rfl]

end

/-! ### Many steps -/

/-- Where counting goes that falls back from `length` to `start`. -/
def lap (start length p : Nat) : Nat := if p < length then p else start + (p - start) % (length - start)

theorem lap_of_lt {start length p : Nat} (h : p < length) : lap start length p = p := if_pos h

theorem lap_of_le {start length p : Nat} (h : start ≤ p) :
    lap start length p = start + (p - start) % (length - start) := by
  unfold lap
  split
  · rw [Nat.mod_eq_of_lt (by omega)]
    omega
  · rfl

theorem lap_lt {start length : Nat} (h : start < length) (p : Nat) : lap start length p < length := by
  have := Nat.mod_lt (p - start) (Nat.sub_pos_of_lt h)
  unfold lap
  split <;> omega

theorem lap_succ {start length : Nat} (h : start < length) (p : Nat) :
    lap start length (p + 1) = if lap start length p + 1 = length then start else lap start length p + 1 := by
  rcases Nat.lt_or_ge p start with hp | hp
  · rw [lap_of_lt (by omega), lap_of_lt (by omega), if_neg (by omega)]
  · have hlt := Nat.mod_lt (p - start) (Nat.sub_pos_of_lt h)
    rw [lap_of_le hp, lap_of_le (Nat.le_succ_of_le hp), Nat.succ_sub hp, Nat.succ_eq_add_one, ← Nat.mod_add_mod]
    split
    next hend => rw [show (p - start) % (length - start) + 1 = length - start by omega, Nat.mod_self, Nat.add_zero]
    next hend => rw [Nat.mod_eq_of_lt (by omega), Nat.add_assoc]

section
variable {q : SeqData} {releasing : Bool} {b : BitVec 7}

/-- A slot whose next `m` steps follow `cursor` is then where `cursor` says. -/
theorem stepSlot_iterate {cursor : Nat → Nat} {a m : Nat} (hstart : cursor 0 = a)
    (h : ∀ j < m, stepSlot q releasing (.on b (cursor j)) = .on b (cursor (j + 1))) :
    (stepSlot q releasing)^[m] (.on b a) = .on b (cursor m) := by
  subst hstart
  induction m with
  | zero => rfl
  | succ m ih => rw [Function.iterate_succ_apply', ih fun j hj => h j (Nat.lt_succ_of_lt hj), h m (Nat.lt_succ_self m)]

/-- A slot that advances from every item from `a` on and ends after the last one. -/
theorem stepSlot_iterate_end {a : Nat}
    (hadvance : ∀ p, a ≤ p → p + 1 < q.items.length → stepSlot q releasing (.on b p) = .on b (p + 1))
    (hend : ∀ p, p + 1 = q.items.length → stepSlot q releasing (.on b p) = ⟨some b, .ended, q.items.length⟩)
    (m : Nat) :
    (m < q.items.length - a → (stepSlot q releasing)^[m] (.on b a) = .on b (a + m)) ∧
    (a < q.items.length → m = q.items.length - a →
      (stepSlot q releasing)^[m] (.on b a) = ⟨some b, .ended, q.items.length⟩) := by
  have hitems {m : Nat} (hm : m < q.items.length - a) : (stepSlot q releasing)^[m] (.on b a) = .on b (a + m) :=
    stepSlot_iterate (Nat.add_zero a) fun j hj => hadvance (a + j) (Nat.le_add_right a j) (by omega)
  refine ⟨hitems, fun ha hm => ?_⟩
  obtain ⟨last, rfl⟩ : ∃ last, m = last + 1 := ⟨m - 1, by omega⟩
  rw [Function.iterate_succ_apply', hitems (by omega), hend _ (by omega)]

/-- A slot that advances up to an item and from there falls back to `start`. -/
theorem stepSlot_iterate_lap {start length a : Nat} (hstart : start < length) (ha : a < length)
    (hadvance : ∀ p, p + 1 < length → stepSlot q releasing (.on b p) = .on b (p + 1))
    (hback : ∀ p, p + 1 = length → stepSlot q releasing (.on b p) = .on b start) (m : Nat) :
    (stepSlot q releasing)^[m] (.on b a) = .on b (lap start length (a + m)) := by
  refine stepSlot_iterate (cursor := fun m => lap start length (a + m)) (lap_of_lt ha) fun j _ => ?_
  have hlt := lap_lt hstart (a + j)
  rw [← Nat.add_assoc, lap_succ hstart]
  split
  next hlast => exact hback _ hlast
  next hmore => exact hadvance _ (by omega)

/-- A slot that advances up to item `r` and holds there. -/
theorem stepSlot_iterate_hold {r : Nat} (hadvance : ∀ p < r, stepSlot q releasing (.on b p) = .on b (p + 1))
    (hhold : stepSlot q releasing (.on b r) = .on b r) (m : Nat) :
    (stepSlot q releasing)^[m] (.on b 0) = .on b (min m r) := by
  refine stepSlot_iterate (cursor := (min · r)) (Nat.zero_min r) fun j _ => ?_
  rcases Nat.lt_or_ge j r with hj | hj
  · rw [Nat.min_eq_left hj.le, Nat.min_eq_left hj, hadvance j hj]
  · rw [Nat.min_eq_right hj, Nat.min_eq_right (Nat.le_succ_of_le hj), hhold]

end

/-- Settles O51: each row by where a step leads from its items before the last one, and from the last one. -/
theorem cursorPathsByShape : Obligations.CursorPathsByShape := by
  intro q b m n l r at_ round path
  refine ⟨fun hl hr releasing => ?_, fun hl hr releasing => ?_, fun hl hr => ?_, fun hl hr => ?_, fun hl hr => ?_,
    fun hl hlr hr => ?_⟩
  · have hend := stepSlot_iterate_end (b := b) (a := 0)
      (fun p _ hp => stepSlot_advance (releasing := releasing) hp (.inl (by omega)))
      (fun p hp => stepSlot_end hp (.inl hl)) m
    rwa [Nat.zero_add] at hend
  · have hlap := stepSlot_iterate_lap (b := b) hl (Nat.zero_lt_of_lt hl)
      (fun p hp => stepSlot_advance (releasing := releasing) hp (.inl (by omega)))
      (fun p hp => stepSlot_loop_at_end hp hl (.inl hr)) m
    rwa [Nat.zero_add] at hlap
  · exact stepSlot_iterate_hold (fun p hp => stepSlot_advance (by omega) (.inl hp.ne)) (stepSlot_hold hl hr) m
  · have hlap := stepSlot_iterate_lap (q := q) (releasing := false) (b := b) (Nat.lt_succ_of_lt hl) (Nat.succ_pos r)
      (fun p hp => stepSlot_advance (by omega) (.inl (by omega)))
      (fun p hp => Nat.succ.inj hp ▸ stepSlot_loop_before_release hl hr) m
    rwa [Nat.zero_add] at hlap
  · have hend := stepSlot_iterate_end (q := q) (releasing := true) (b := b) (a := r)
      (fun p _ hp => stepSlot_advance hp (.inr rfl))
      (fun p hp => stepSlot_end hp (hl.imp_right fun hlr => ⟨hlr, hr, rfl⟩)) m
    exact ⟨hend.1, hend.2 hr⟩
  · exact stepSlot_iterate_lap hl (Nat.lt_of_succ_lt hr) (fun p hp => stepSlot_advance hp (.inr rfl))
      (fun p hp => stepSlot_loop_at_end hp hl (.inr hlr)) m

end Sys2Proof.Machine
end

section
/-! The sequence items on their channel, and one slot's turn in UpdateInstrument (44_sequence_engine.md R294, R295, R300
to R309). -/

namespace Sys2Proof.Machine

/-! ### The items -/

/-- An arpeggio item of the setting Relative plays the note it moves to (R303). -/
theorem seqArpRelative_eq (item : Byte) (e : Env) (ch : Channel) {moved : Nat}
    (hmoved : (max 0 (min (ch.note.toNat + item.toInt) 255)).toNat = moved) :
    ∃ k, seqArpRelative item e ch =
      { ch with
        note := BitVec.ofNat 8 moved
        period := (max 0 (min (triggerNote e ch moved : Int) 4095)).toNat
        free := k } := by
  have hnote : noteNumber (ch.note.toNat + itemValue item) = BitVec.ofNat 8 moved := by
    rw [noteNumber_eq, ← hmoved]
    rfl
  have hnat : (BitVec.ofNat 8 moved).toNat = moved := by
    rw [BitVec.toNat_ofNat]
    omega
  obtain ⟨k, hk⟩ := playPeriod_eq { ch with note := BitVec.ofNat 8 moved } e moved 0
  refine ⟨k, ?_⟩
  rw [seqArpRelative, Channel.setNote, hnote, hnat, hk, Int.add_zero]
  rfl

theorem seqArpScheme1_eq (limit : BitVec 6) (e : Env) (ch : Channel) :
    seqArpScheme1 limit e ch = ch.playPeriod e (ch.note.toNat + (limit.toInt + ch.arpParam.toNat / 16)) := by
  rw [seqArpScheme1, hi_toNat]
  rfl

theorem seqArpScheme2_eq (limit : BitVec 6) (e : Env) (ch : Channel) :
    seqArpScheme2 limit e ch = ch.playPeriod e (ch.note.toNat + (limit.toInt + ch.arpParam.toNat % 16)) := by
  rw [seqArpScheme2, lo_toNat]
  rfl

theorem seqArpScheme3_eq (limit : BitVec 6) (e : Env) (ch : Channel) :
    seqArpScheme3 limit e ch = ch.playPeriod e (ch.note.toNat + (limit.toInt - ch.arpParam.toNat % 16)) := by
  rw [seqArpScheme3, lo_toNat]
  rfl

/-- An item that plays a note, by the period it leaves, up to the counter (43_period_volume.md R260; log 8). -/
theorem next_onCh_plays {s : State} {i : Fin 3} {f : Env → Channel → Channel} {n add : Int}
    (hf : f s.env (s.chans.get i) = (s.chans.get i).playPeriod s.env n add) :
    ∃ k, (.next (s.onCh (BitVec.ofNat 4 i) f) : Host.Outcome State Fault Refusal) =
      .next (s.withChan i
        { s.chans.get i with
          period := (max 0 (min (triggerNote s.env (s.chans.get i) n + add) 4095)).toNat, free := k }) :=
  (playPeriod_eq (s.chans.get i) s.env n add).imp fun _ hk => next_onCh_number (hf.trans hk)

/-- Settles O47: the items that play a note by the period limiter of the played note, the others by the field they
write. -/
theorem sequenceItemsAct : Obligations.SequenceItemsAct := by
  intro s i item limit c ch v held plays moved
  refine ⟨next_onCh_number rfl, next_onCh_plays rfl, next_onCh_plays rfl, ?_, next_onCh_plays rfl,
    next_onCh_plays (seqArpScheme1_eq limit s.env ch), next_onCh_plays (seqArpScheme2_eq limit s.env ch),
    next_onCh_plays (seqArpScheme3_eq limit s.env ch), next_onCh_number (setPeriod_eq ch _), next_onCh_plays rfl,
    congrArg Host.Outcome.next (s.onCh_id c), next_onCh_number (setPeriod_eq ch _), next_onCh_number rfl⟩
  exact (seqArpRelative_eq item s.env ch rfl).imp fun _ => next_onCh_number

/-- No item writes the handler or the release flag (R300). -/
theorem processSequence_keeps (k : Kind) (setting : BitVec 2) (item : Byte) (e : Env) (ch : Channel) :
    (processSequence k setting item e ch).1.handler = ch.handler ∧
    (processSequence k setting item e ch).1.release = ch.release := by
  have hplay (c : Channel) (n v : Int) :
      (c.playPeriod e n v).handler = c.handler ∧ (c.playPeriod e n v).release = c.release :=
    ⟨c.playPeriod_handler e n v, c.playPeriod_release e n v⟩
  cases k
  case volume | hipitch | duty => exact ⟨rfl, rfl⟩
  case arpeggio =>
    show (processArpeggio setting item e ch).handler = _ ∧ (processArpeggio setting item e ch).release = _
    unfold processArpeggio
    split
    case h_4 => split <;> exact hplay ch _ 0
    case h_3 => exact hplay (ch.setNote _) _ 0
    all_goals exact hplay ch _ 0
  case pitch =>
    unfold processSequence
    dsimp only
    split
    · exact ⟨rfl, rfl⟩
    · exact hplay ch _ _
    · exact ⟨rfl, rfl⟩

/-! ### One slot's turn, by its play state -/

theorem setSlot_some {ch : Channel} {h : Handler} (hh : ch.handler = some h) (k : Kind) (sl : Slot) :
    ch.setSlot k sl = { ch with handler := some { h with slots := h.slots.set k sl } } := by
  rw [Channel.setSlot, hh]
  rfl

section
variable {ch : Channel} {h : Handler} {k : Kind} {b : BitVec 7} (e : Env) (hh : ch.handler = some h)
include hh

theorem updateSlot_rests (hst : (h.slots.get k).st = .disabled ∨ (h.slots.get k).st = .halted) :
    updateSlot e ch k = ch := by
  rcases hst with hst | hst <;> simp only [updateSlot, hh, hst]

theorem updateSlot_running (hst : (h.slots.get k).st = .running) (hb : (h.slots.get k).bound = some b) :
    updateSlot e ch k =
      if count (e.mem.seqRead k b) = 0 then ch
      else if count (e.mem.seqRead k b) ≤ (h.slots.get k).pos then ch.setSlot k { h.slots.get k with st := .ended }
      else
        let after :=
          (processSequence k (e.mem.seqRead k b).setting (seqItem (e.mem.seqRead k b) (h.slots.get k).pos) e ch).1
        after.setSlot k (stepSlot (e.mem.seqRead k b) after.release (h.slots.get k)) := by
  simp only [updateSlot, hh, hst, hb]

theorem updateSlot_ended (hst : (h.slots.get k).st = .ended) (hb : (h.slots.get k).bound = some b) :
    updateSlot e ch k =
      (finalize k (e.mem.seqRead k b).setting e ch).setSlot k { h.slots.get k with st := .halted } := by
  simp only [updateSlot, hh, hst, hb]

/-- A running slot with an item at its cursor: the item's effect, then Step, which asks for the release flag. -/
theorem updateSlot_item {item : Byte} (hst : (h.slots.get k).st = .running) (hb : (h.slots.get k).bound = some b)
    (hitem : (e.mem.seqRead k b).items[(h.slots.get k).pos]? = some item) :
    updateSlot e ch k =
      { (processSequence k (e.mem.seqRead k b).setting item e ch).1 with
        handler := some
          { h with slots := h.slots.set k (stepSlot (e.mem.seqRead k b) ch.release (h.slots.get k)) } } := by
  have hpos : (h.slots.get k).pos < count (e.mem.seqRead k b) := (List.getElem?_eq_some_iff.mp hitem).1
  have hread : seqItem (e.mem.seqRead k b) (h.slots.get k).pos = item := by
    rw [seqItem, List.getD_eq_getElem?_getD, hitem]
    rfl
  obtain ⟨hhandler, hrelease⟩ := processSequence_keeps k (e.mem.seqRead k b).setting item e ch
  rw [updateSlot_running e hh hst hb, if_neg (Nat.ne_zero_of_lt hpos), if_neg (Nat.not_le.mpr hpos), hread,
    ← hrelease]
  exact setSlot_some (hhandler.trans hh) k _

end

/-- Finalize settles the period of a Fixed arpeggio on the note (R295). -/
theorem finalize_eq (k : Kind) (setting : BitVec 2) (e : Env) (ch : Channel) :
    ∃ m, finalize k setting e ch =
      { ch with
        period := if k = .arpeggio ∧ setting = 1 then min (triggerNote e ch ch.note.toNat) 4095 else ch.period
        free := m } := by
  unfold finalize
  split
  · exact playPeriod_nat ch e ch.note.toNat
  · exact ⟨ch.free, rfl⟩

/-- Settles O48: by the play state of the slot. -/
theorem slotsUpdateByTheirState : Obligations.SlotsUpdateByTheirState := by
  refine ⟨fun e ch => rfl, fun e ch h k b hh => ?_⟩
  intro sl q
  refine ⟨updateSlot_rests e hh, fun hb hst hq => ?_, fun hb hst hq hpos => ?_, fun hb hst => ?_⟩
  · exact (updateSlot_running e hh hst hb).trans (if_pos (List.length_eq_zero_iff.mpr hq))
  · have hcount : count q ≠ 0 := mt List.length_eq_zero_iff.mp hq
    have hpast : count q ≤ sl.pos := hpos
    rw [updateSlot_running e hh hst hb, if_neg hcount, if_pos hpast, setSlot_some hh]
  · obtain ⟨m, hm⟩ := finalize_eq k q.setting e ch
    refine ⟨m, ?_⟩
    rw [updateSlot_ended e hh hst hb, hm]
    exact setSlot_some (ch := { ch with period := _, free := m }) hh k _

/-- Settles O49: the item's instruction is ProcessSequence, which leaves the handler and the release flag alone. -/
theorem runningSlotRunsItsItem : Obligations.RunningSlotRunsItsItem := by
  intro s i h k b item ch sl q hh hst hb hitem
  refine ⟨_, (exec_decodeSeqItem _ k q.setting item s).trans (congrArg Host.Outcome.next (s.onCh_number i _)), ?_⟩
  rw [State.withChan_get]
  exact updateSlot_item s.env hh hst hb hitem

end Sys2Proof.Machine
end

section
/-! REFRESH, COMMIT and TICK (45_chip_emission.md R331 to R347): what each leaves in the shared resource and the pairs
each puts on the port. -/

namespace Sys2Proof.Machine

/-! ### REFRESH -/

theorem exec_refresh_number (s : State) (i : Fin 3) :
    exec (.refresh (BitVec.ofNat 4 i)) s = .next (refreshChannel i s) :=
  congrArg Host.Outcome.next (s.onChannel_number i refreshChannel)

/-- A foreign instrument forces the duty byte to D_SQUARE (R331). -/
theorem convertDuty_toNat (ch : Channel) (d : Byte) :
    (convertDuty ch d).toNat = if ch.instType = .foreign then 0x40 else d.toNat := by
  rw [convertDuty, apply_ite BitVec.toNat]
  rfl

/-- The mixer's bits disable, the duty byte's bits enable: a channel's two bits are set where it does not sound (R339). -/
theorem Shared.putMixer_sounding (g : Shared) (i : Fin 3) (square noise : Bool) :
    g.putMixer i (!square) (!noise) =
      { g with
        mixer := (g.mixer &&& ~~~BitVec.ofNat 8 (2 ^ i.val + 2 ^ (3 + i.val))) |||
          BitVec.ofNat 8 ((if square then 0 else 2 ^ i.val) + (if noise then 0 else 2 ^ (3 + i.val))) } := by
  rw [Shared.putMixer, putBit_mixer]
  cases square <;> cases noise <;> rfl

/-- The shared resource after a REFRESH, by the effective duty byte as a number (R333, R336, R338, R339). -/
theorem refreshShared_eq (i : Fin 3) (ch : Channel) (g : Shared) {d : Nat} (hd : (convertDuty ch ch.duty).toNat = d)
    {square noise env : Bool} (hsquare : (decide (d / 64 % 2 = 1) && ch.gate) = square)
    (hnoise : (decide (d / 128 % 2 = 1) && ch.gate) = noise) (henv : (decide (d / 32 % 2 = 1) && ch.gate) = env) :
    refreshShared i ch g =
      { g with
        mixer := (g.mixer &&& ~~~BitVec.ofNat 8 (2 ^ i.val + 2 ^ (3 + i.val))) |||
          BitVec.ofNat 8 ((if square then 0 else 2 ^ i.val) + (if noise then 0 else 2 ^ (3 + i.val)))
        noisePeriod := if noise then BitVec.ofNat 5 (d % 32) else g.noisePeriod
        envAny := g.envAny || env
        retrig := g.retrig || (env && ch.trigger) } := by
  obtain ⟨hsq, hns, hev, hperiod⟩ := duty_bits (convertDuty ch ch.duty)
  simp only [refreshShared, hsq, hns, hev, hperiod, hd, hsquare, hnoise, henv, Shared.putMixer_sounding]
  cases noise <;> rfl

/-- The pairs of a REFRESH as numbers (R333 to R335). -/
theorem refreshPairs_eq (e : Env) (ch : Channel) {d : Nat} (hd : (convertDuty ch ch.duty).toNat = d) {env : Bool}
    (henv : (decide (d / 32 % 2 = 1) && ch.gate) = env) :
    refreshPairs e ch =
      [(BitVec.ofNat 8 (2 * ch.chIdx.toNat), BitVec.ofNat 8 (calculatePeriod e ch % 256)),
       (BitVec.ofNat 8 (2 * ch.chIdx.toNat + 1), BitVec.ofNat 8 (calculatePeriod e ch / 256)),
       (BitVec.ofNat 8 (8 + ch.chIdx.toNat), BitVec.ofNat 8 ((if env then 16 else 0) + calculateVolume e ch))] := by
  have hlow (p : Nat) : periodLow p = BitVec.ofNat 8 (p % 256) :=
    BitVec.eq_of_toNat_eq (Nat.mod_mod p 256).symm
  obtain ⟨-, -, hev, -⟩ := duty_bits (convertDuty ch ch.duty)
  simp only [refreshPairs, hev, hd, henv, hlow, periodHigh_eq (calculatePeriod_le e ch),
    levelByte_eq env (calculateVolume_le e ch)]
  rfl

/-- Settles O56: by the shared resource and the pairs a REFRESH leaves. -/
theorem refreshEmitsTheChannel : Obligations.RefreshEmitsTheChannel := by
  intro s i ch p v d square noise env
  have hd : (convertDuty ch ch.duty).toNat = d := convertDuty_toNat ch ch.duty
  rw [exec_refresh_number, refreshChannel, refreshShared_eq i ch s.shr hd rfl rfl rfl, refreshPairs_eq s.env ch hd rfl]
  rfl

/-! ### COMMIT -/

/-- The trigger condition of the shape write (R341). -/
theorem Shared.triggered_iff (g : Shared) :
    g.triggered = true ↔ g.envAny = true ∧ (g.update = true ∨ g.retrig = true) := by
  rw [Shared.triggered, Bool.and_eq_true, Bool.or_eq_true]

/-- The pairs of a COMMIT as numbers (R340, R341). -/
theorem commitPairs_eq (g : Shared) :
    commitPairs g =
      [(0x06, BitVec.ofNat 8 g.noisePeriod.toNat), (0x07, g.mixer),
       (0x0B, BitVec.ofNat 8 (g.envPeriod.toNat % 256)), (0x0C, BitVec.ofNat 8 (g.envPeriod.toNat / 256))] ++
      if g.envAny = true ∧ (g.update = true ∨ g.retrig = true) then [(0x0D, BitVec.ofNat 8 g.envShape.toNat)]
      else [] := by
  have hlow : g.envPeriod.extractLsb' 0 8 = BitVec.ofNat 8 (g.envPeriod.toNat % 256) :=
    BitVec.eq_of_toNat_eq (Nat.mod_mod _ 256).symm
  have hhigh : g.envPeriod.extractLsb' 8 8 = BitVec.ofNat 8 (g.envPeriod.toNat / 256) := by
    rw [BitVec.extractLsb', Nat.shiftRight_eq_div_pow]
  simp only [commitPairs, Shared.triggered_iff, hlow, hhigh, BitVec.ofNat_toNat]
  rfl

/-- Settles O57: by the pairs of a COMMIT. -/
theorem commitEmitsTheSharedResource : Obligations.CommitEmitsTheSharedResource := by
  refine fun s => congrArg Host.Outcome.next ?_
  rw [commitShared, commitPairs_eq, List.append_assoc]
  rfl

/-! ### TICK -/

/-- One instruction for each channel of a list, then more, is the loop over the list, then the rest. -/
theorem execAll_loop {x : Fin 3 → Instr} {f : State → Fin 3 → State} (h : ∀ s i, exec (x i) s = .next (f s i))
    (is : List (Fin 3)) (rest : List Instr) (s : State) :
    execAll (is.map x ++ rest) s = execAll rest (is.foldl f s) := by
  induction is generalizing s with
  | nil => rfl
  | cons i is ih =>
    rw [List.map_cons, List.cons_append, execAll, h]
    exact ih (f s i)

/-- PROCESS of every channel ascending, then REFRESH of every channel ascending (R345). -/
theorem execAll_process_refresh (rest : List Instr) (s : State) :
    execAll ([.process 0, .process 1, .process 2, .refresh 0, .refresh 1, .refresh 2] ++ rest) s =
      execAll rest (allChannels.foldl refreshAt (allChannels.foldl processAt s)) :=
  (execAll_loop exec_process_number allChannels (allChannels.map (.refresh <| BitVec.ofNat 4 ·.val) ++ rest) s).trans
    (execAll_loop exec_refresh_number allChannels rest _)

/-- `t` has the output of `s` and after it one pair at each of the addresses. -/
def EmitsAt (s t : State) (addresses : List Byte) : Prop := ∃ ws, t.out = s.out ++ ws ∧ ws.map Prod.fst = addresses

theorem EmitsAt.trans {s t u : State} {as bs : List Byte} (h : EmitsAt s t as) (g : EmitsAt t u bs) :
    EmitsAt s u (as ++ bs) := by
  obtain ⟨ws, hs, rfl⟩ := h
  obtain ⟨vs, ht, rfl⟩ := g
  exact ⟨ws ++ vs, by rw [ht, hs, List.append_assoc], List.map_append⟩

/-- Under the invariant `ch_idx` is the channel's number, so a REFRESH writes the registers of its channel (R334). -/
theorem EmitsAt.refreshAt {s : State} (h : StateInv s) (i : Fin 3) :
    EmitsAt s (refreshAt s i) [periodLoReg i, periodHiReg i, levelReg i] := by
  refine ⟨_, rfl, ?_⟩
  rw [refreshPairs, (h.channels i).identity]
  rfl

/-- A COMMIT writes its four registers, and the shape register when triggered (R340, R341). -/
theorem EmitsAt.commitShared (s : State) :
    EmitsAt s (commitShared s) ([0x06, 0x07, 0x0B, 0x0C] ++
      if s.shr.envAny = true ∧ (s.shr.update = true ∨ s.shr.retrig = true) then [0x0D] else []) := by
  refine ⟨_, rfl, ?_⟩
  rw [commitPairs_eq, List.map_append, apply_ite (List.map Prod.fst)]
  rfl

/-- Settles O58: the seven commands are the loops of TICK; PROCESS emits nothing, and REFRESH and COMMIT emit at their
registers. -/
theorem tickIsItsSevenCommands : Obligations.TickIsItsSevenCommands := by
  refine fun s => ⟨(execAll_process_refresh [.commit] s).symm, fun hs => ?_⟩
  have hprocessed := ((hs.processAt 0).processAt 1).processAt 2
  have hrefreshed0 := hprocessed.refreshChannel 0
  have hrefreshed1 := hrefreshed0.refreshChannel 1
  obtain ⟨ws, hout, haddresses⟩ :=
    (((EmitsAt.refreshAt hprocessed 0).trans (.refreshAt hrefreshed0 1)).trans (.refreshAt hrefreshed1 2)).trans
      (.commitShared _)
  exact ⟨_, _, ws, execAll_process_refresh [] s, rfl, hout, haddresses⟩

end Sys2Proof.Machine
end

section
/-! Every instruction completes, leaves the tables and the port as they are, and only appends to the output
(60_exceptions.md R376, 20_memory.md R79, 10_state.md R59). -/

namespace Sys2Proof.Machine

/-- `t` has the tables and the port of `s`, and the output of `s` with pairs appended. -/
structure OnlyAppends (s t : State) : Prop where
  mem : t.mem = s.mem
  inp : t.inp = s.inp
  out : s.out <+: t.out

theorem OnlyAppends.refl (s : State) : OnlyAppends s s := ⟨rfl, rfl, List.prefix_rfl⟩

theorem OnlyAppends.emit {s t : State} (h : OnlyAppends s t) (ws : List RegPair) : OnlyAppends s (t.emit ws) :=
  ⟨h.mem, h.inp, h.out.trans (List.prefix_append t.out ws)⟩

theorem OnlyAppends.putCx {s t : State} (h : OnlyAppends s t) (i : Fin 3) (x : Cx) : OnlyAppends s (t.putCx i x) :=
  ⟨h.mem, h.inp, h.out⟩

theorem OnlyAppends.onCx (s : State) (c : Chan) (f : Env → Cx → Cx) : OnlyAppends s (s.onCx c f) :=
  ⟨s.onCx_mem c f, s.onCx_inp c f, by rw [s.onCx_out c f]⟩

theorem OnlyAppends.onChannel {s : State} (c : Chan) {f : Fin 3 → State → State} (hf : ∀ i, OnlyAppends s (f i s)) :
    OnlyAppends s (s.onChannel c f) := by
  unfold State.onChannel
  split
  · exact hf _
  · exact .refl s

theorem OnlyAppends.refreshChannel {s t : State} (h : OnlyAppends s t) (i : Fin 3) :
    OnlyAppends s (refreshChannel i t) :=
  (h.putCx i _).emit _

theorem OnlyAppends.commitShared {s t : State} (h : OnlyAppends s t) : OnlyAppends s (commitShared t) :=
  .emit (t := { t with shr := t.shr.clearTick }) ⟨h.mem, h.inp, h.out⟩ _

/-- TICK is loops of PROCESS, which appends nothing, and REFRESH, then COMMIT (45_chip_emission.md R345). -/
theorem OnlyAppends.tickAll (s : State) : OnlyAppends s (tickAll s) := by
  have hprocessed : OnlyAppends s (allChannels.foldl processAt s) :=
    List.foldlRecOn _ _ (.refl s) fun _ h i _ => h.putCx i _
  have hrefreshed : OnlyAppends s (allChannels.foldl refreshAt (allChannels.foldl processAt s)) :=
    List.foldlRecOn _ _ hprocessed fun _ h i _ => h.refreshChannel i
  exact hrefreshed.commitShared

/-- What any instruction leaves, by its conduct: the operations on a channel and SETCFG append nothing, the writers of
the port append their pairs. -/
theorem exec_onlyAppends (x : Instr) (s : State) : ∃ t, exec x s = .next t ∧ OnlyAppends s t := by
  cases exec_conduct x with
  | nothing h => exact ⟨s, h s, .refl s⟩
  | onCx c f _ h => exact ⟨_, h s, .onCx s c f⟩
  | setcfg arg h =>
    subst h
    exact ⟨_, rfl, rfl, rfl, List.prefix_rfl⟩
  | writer hw _ _ _ =>
    cases hw with
    | port hp =>
      obtain ⟨a, v, -, -, hexec⟩ := port_row hp
      exact ⟨_, hexec s, (OnlyAppends.refl s).emit [(a, v)]⟩
    | commit => exact ⟨_, rfl, (OnlyAppends.refl s).commitShared⟩
    | tick => exact ⟨_, rfl, .tickAll s⟩
    | reset c => exact ⟨_, rfl, .onChannel c fun i => ((OnlyAppends.refl s).putCx i _).emit _⟩
    | refresh c => exact ⟨_, rfl, .onChannel c fun i => (OnlyAppends.refl s).refreshChannel i⟩

/-- Settles O16: by the conduct of the instruction. -/
theorem everyInstructionCompletes : Obligations.EveryInstructionCompletes := by
  intro x s
  obtain ⟨t, hexec, hmem, hinp, ws, hout⟩ := exec_onlyAppends x s
  exact ⟨t, hexec, hmem, hinp, ws, hout.symm⟩

end Sys2Proof.Machine
end

section
/-! Every instruction and every step keeps the state invariant (60_exceptions.md R376): the operations on an addressed
channel, the rows of each format in turn, then the step. -/

namespace Sys2Proof.Machine

/-! ### The invariant under the operations on a state -/

/-- An operation on an addressed channel that keeps the channel's invariant and the mixer. -/
theorem StateInv.onCx {s : State} (h : StateInv s) (c : Chan) {f : Env → Cx → Cx}
    (hf : ∀ {i : Nat} {x : Cx}, ChannelInv s.env.mem i x.ch →
      ChannelInv s.env.mem i (f s.env x).ch ∧ (f s.env x).shr.mixer = x.shr.mixer) :
    StateInv (s.onCx c f) := by
  rcases s.onCx_cases c f with hnone | ⟨i, -, hsome⟩
  · rwa [hnone]
  · obtain ⟨hch, hmixer⟩ := hf (x := s.cx i) (h.channels i)
    rw [hsome]
    exact h.putCx hch (hmixer ▸ h.mixer)

/-- An operation on the record of an addressed channel. -/
theorem StateInv.onCh {s : State} (h : StateInv s) (c : Chan) {f : Env → Channel → Channel}
    (hf : ∀ {i : Nat} {ch : Channel}, ChannelInv s.env.mem i ch → ChannelInv s.env.mem i (f s.env ch)) :
    StateInv (s.onCh c f) :=
  h.onCx c fun hch => ⟨hf hch, rfl⟩

theorem StateInv.onChannel {s : State} (h : StateInv s) (c : Chan) {f : Fin 3 → State → State}
    (hf : ∀ i, StateInv (f i s)) : StateInv (s.onChannel c f) := by
  unfold State.onChannel
  split
  · exact hf _
  · exact h

/-- RESET keeps the identity of its channel and writes two mixer bits (40_row_commands.md R140, R142). -/
theorem StateInv.resetAt {s : State} (h : StateInv s) (i : Fin 3) : StateInv (resetAt i s) :=
  .emit (h.putCx (.resetValues s.mem i _ _ _ (h.channels i).identity) (putMixer_lt s.shr i true true h.mixer)) _

/-- COMMIT clears the tick flags only (45_chip_emission.md R342). -/
theorem StateInv.commitShared {s : State} (h : StateInv s) : StateInv (commitShared s) where
  tables := h.tables
  channels := h.channels
  mixer := h.mixer

theorem StateInv.tickAll {s : State} (h : StateInv s) : StateInv (tickAll s) := by
  have hprocessed : StateInv (allChannels.foldl Machine.processAt s) :=
    List.foldlRecOn _ _ h fun _ h i _ => h.processAt i
  have hrefreshed : StateInv (allChannels.foldl refreshAt (allChannels.foldl Machine.processAt s)) :=
    List.foldlRecOn _ _ hprocessed fun _ h i _ => h.refreshChannel i
  exact hrefreshed.commitShared

/-- SETCFG writes CFG, which no range speaks of. -/
theorem StateInv.withCfgReg {s : State} (h : StateInv s) (r : CfgReg) : StateInv { s with cfgReg := r } where
  tables := h.tables
  channels := h.channels
  mixer := h.mixer

/-- Taking words from the port, which no range speaks of. -/
theorem StateInv.withInp {s : State} (h : StateInv s) (ws : List Word) : StateInv { s with inp := ws } where
  tables := h.tables
  channels := h.channels
  mixer := h.mixer

/-! ### The rows of each format -/

/-- The outcome is a next state that meets the invariant. -/
def CompletesInv (o : Host.Outcome State Fault Refusal) : Prop := ∃ t, o = .next t ∧ StateInv t

/-- The wheel is clamped to WHEEL_MIN..WHEEL_MAX (30_encoding.md R102). -/
theorem wheelOperand_between (w : Word) : -511 ≤ wheelOperand w ∧ wheelOperand w ≤ 511 :=
  clamp_between _ (by decide)

/-- The host commands: PLAY's record has its four columns because the command is well formed. -/
theorem exec_host_completesInv {x : Instr} {s : State} (hx : WellFormed x) (h : x.ctx = .host) (hs : StateInv s) :
    CompletesInv (exec x s) := by
  cases x
  all_goals cases h
  case reset c => exact ⟨_, rfl, hs.onChannel c hs.resetAt⟩
  case play c ev => exact ⟨_, rfl, hs.onCx c fun hch => hch.playNote hs.tables (of_decide_eq_true hx)⟩
  case process c => exact ⟨_, rfl, hs.onCx c fun hch => hch.processChannel hs.tables⟩
  case refresh c => exact ⟨_, rfl, hs.onChannel c hs.refreshChannel⟩
  case commit => exact ⟨_, rfl, hs.commitShared⟩
  case tick => exact ⟨_, rfl, hs.tickAll⟩
  case forcereload c => exact ⟨_, rfl, hs.onCh c fun hch => { hch with }⟩
  case setpitch c w => exact ⟨_, rfl, hs.onCh c fun hch => { hch with wheel := wheelOperand_between w }⟩
  case setcfg => exact ⟨_, rfl, hs.withCfgReg _⟩
  all_goals exact ⟨s, rfl, hs⟩

/-- A row with one note word is HandleNoteData of that row (log 3). -/
theorem exec_noteWord {x : Instr} {c : Chan} (h : x.ctx = .noteWord c) :
    ∃ n oct volc, ∀ s, exec x s = playNoteWord n c oct volc s := by
  cases x
  all_goals cases h
  all_goals exact ⟨_, _, _, fun _ => rfl⟩

/-- An effect word is HandleEffect, but for FX_DELAY, which is PlayNote of its row (log 3). -/
theorem exec_effect_completesInv (c : Chan) (f : Fx) {s : State} (hs : StateInv s) :
    CompletesInv (exec (decodeFx c f) s) := by
  obtain ⟨kind, p⟩ := f
  by_cases hk : kind = 0x10
  · subst hk
    exact ⟨_, rfl, hs.onCx c fun hch => hch.playNote (ev := effectRow ⟨0x10, p⟩) hs.tables rfl⟩
  · exact ⟨_, exec_decodeFx c ⟨kind, p⟩ s hk, hs.onCx c fun hch => hch.handleEffect ⟨kind, p⟩⟩

/-- A sequence item stores a byte, steps the period, plays a note or applies nothing (44_sequence_engine.md R300). -/
theorem ChannelInv.processSequence {e : Env} {i : Nat} {ch : Channel} (h : ChannelInv e.mem i ch) (k : Kind)
    (setting : BitVec 2) (item : Byte) : ChannelInv e.mem i (processSequence k setting item e ch).1 := by
  cases k
  case volume | duty => exact { h with }
  case hipitch => exact h.setPeriod _
  case pitch =>
    unfold Machine.processSequence
    dsimp only
    split
    · exact h.setPeriod _
    · exact h.playPeriod e _ _
    · exact h
  case arpeggio =>
    change ChannelInv e.mem i (processArpeggio setting item e ch)
    unfold processArpeggio
    split
    case h_3 => exact (h.setNote _).playPeriod e _ _
    case h_4 => split <;> exact h.playPeriod e _ _
    all_goals exact h.playPeriod e _ _

/-- Every well-formed instruction, by the context its row is read in. -/
theorem exec_completesInv {x : Instr} {s : State} (hx : WellFormed x) (hs : StateInv s) : CompletesInv (exec x s) := by
  cases h : x.ctx with
  | host => exact exec_host_completesInv hx h hs
  | noteWord c =>
    obtain ⟨n, oct, volc, hexec⟩ := exec_noteWord h
    exact ⟨_, hexec s, hs.onCx c fun hch => hch.handleNoteData hs.tables (noteRow n oct volc)⟩
  | instWord c =>
    obtain ⟨inst, rfl⟩ := instWord_row h
    exact ⟨_, rfl, hs.onCx c fun hch => hch.handleNoteData hs.tables (instRow inst)⟩
  | effect c =>
    obtain ⟨kind, p, -, rfl⟩ := effect_row hx h
    exact exec_effect_completesInv c ⟨kind, p⟩ hs
  | seqItem c k setting =>
    obtain ⟨item, -, rfl⟩ := seqItem_row h
    exact ⟨_, exec_decodeSeqItem c k setting item s, hs.onCh c fun hch => hch.processSequence k setting item⟩
  | port =>
    obtain ⟨a, v, -, -, hexec⟩ := port_row h
    exact ⟨_, hexec s, hs.emit [(a, v)]⟩

/-- Settles O17: by the context of the row; without gate the volume is 0 in any state. -/
theorem everyInstructionKeepsTheInvariant : Obligations.EveryInstructionKeepsTheInvariant := by
  intro x s hx hs
  obtain ⟨t, hexec, ht⟩ := exec_completesInv hx hs
  exact ⟨t, hexec, ht, fun j => calculateVolume_gate t.env (t.chans.get j)⟩

/-! ### The step -/

/-- The port gives well-formed commands only: PLAY takes four columns (30_encoding.md R103). -/
theorem decode_host_wf {ws rest : List Word} {x : Instr} (h : decode .host ws = .ok (x, rest)) : WellFormed x := by
  change decodeHost ws = .ok (x, rest) at h
  unfold decodeHost at h
  split at h
  · cases h
  · split at h
    case h_3 | h_9 =>
      split at h
      · cases h; rfl
      · cases h
    all_goals
      cases h
      rfl

/-- With no complete command on the port the machine waits (log 1). -/
theorem step_of_decode_error {s : State} {e : DecodeError} (h : decode .host s.inp = .error e) : step s = .next s := by
  rw [step, h]

/-- Settles O18: the step waits, or runs a well-formed command on the state without its words. -/
theorem everyStepKeepsTheInvariant : Obligations.EveryStepKeepsTheInvariant := by
  intro s hs
  cases h : decode .host s.inp with
  | error e => exact ⟨s, step_of_decode_error h, hs⟩
  | ok command =>
    obtain ⟨x, rest⟩ := command
    rw [stepRunsTheDecodedCommand s x rest h]
    exact exec_completesInv (decode_host_wf h) (hs.withInp rest)

end Sys2Proof.Machine
end

section
/-! The machine at rest: the wait for a command (70_reset_and_hazards.md R413), and the state after power-on with its
invariant (70_reset_and_hazards.md R400 to R402). -/

namespace Sys2Proof.Machine

/-- Settles O9: the step's branch for words that do not decode. -/
theorem stepWaitsForACommand : Obligations.StepWaitsForACommand := fun _ _ h => step_of_decode_error h

/-- Each channel starts at its reset values, under its own number (70_reset_and_hazards.md R400, R401). -/
theorem reset_chans_get (i : Fin 3) : State.reset.chans.get i = Channel.powerOn (BitVec.ofNat 8 i) := by
  match i with
  | 0 | 1 | 2 => rfl

/-- Settles O10: each channel is the record of power-on values, whose fields are those of R401. -/
theorem powerOnState : Obligations.PowerOnState := by
  refine ⟨rfl, rfl, rfl, fun i => ?_⟩
  rw [reset_chans_get]
  rfl

/-- Settles O19: the empty tables are legal, and reset values meet the channel invariant under any identity. -/
theorem invariantHoldsAtPowerOn : Obligations.InvariantHoldsAtPowerOn where
  tables := reset_memory_wf
  channels i := by
    have hidentity : (BitVec.ofNat 8 i).toNat = i := Nat.mod_eq_of_lt (by omega)
    rw [reset_chans_get]
    exact .resetValues _ _ _ _ _ hidentity
  mixer := by decide

end Sys2Proof.Machine
end
